-- ==== Sys2Proof/Word.lean ====
section
/-! DEFINITION. Word.lean: the bit-vector types of the block (00_scope.md R5, R6, R9). Bit 0 is the least
significant bit of every value (R9, which `BitVec` numbers the same way). -/

namespace Sys2Proof

/-- One unit of the text source and of the byte sink, and one symbol (`SYM_W = 8`, 00_scope.md R5, R6). -/
abbrev Byte := BitVec 8

/-- A host-visible register and the command word (`REG_W = 32`, 00_scope.md R6); also one frequency entry
(`FREQ_W = 32`). -/
abbrev Word := BitVec 32

/-- The weight of a node (`WEIGHT_W = 40`, 00_scope.md R6), unsigned. -/
abbrev Weight := BitVec 40

/-- An insertion sequence number of the builder (`SEQ_W = 9`, 00_scope.md R6; 41_build.md R128). -/
abbrev Seq := BitVec 9

/-- A byte offset of the host register space: `h_addr[11:0]` (20_memory.md R52, R60). -/
abbrev Offset := BitVec 12

end Sys2Proof
end

