-- ==== Sys2Proof/Config.lean ====
section
/-! DEFINITION. Config.lean: what an implementation fixes. The parameters that the spec leaves to an argument
(`NODE_CAP`, and with it `IDX_W`; `HAS_BUILDER`) stand in `Params`, which State carries and no step changes
(00_scope.md R6, R7; 93_implementation_defined.md S1, S2; log 1). The widths `SYM_W`, `FREQ_W`, `WEIGHT_W`, `SEQ_W`
and `REG_W` are fixed (S3) and stand in the types of Word.lean. -/

namespace Sys2Proof

/-- The parameters of 00_scope.md R6 that a configuration may choose. -/
structure Params where
  /-- `NODE_CAP`: the number of node records in the node store. -/
  nodeCap : Nat
  /-- `HAS_BUILDER`: whether the builder unit, the `BUILD` command and the frequency file exist. -/
  hasBuilder : Bool
deriving DecidableEq, Repr

/-- The defaults "this hardware takes" (00_scope.md R6): `NODE_CAP = 512`, `HAS_BUILDER = 1`. -/
def Params.standard : Params := { nodeCap := 512, hasBuilder := true }

/-- `NSYM = 256`: the number of symbols and of frequency entries (00_scope.md R5, R6). -/
def Config.nsym : Nat := 256

/-- `IDX_W = ceil(log2(NODE_CAP))`, at least 1 (00_scope.md R7): the width of every index the block holds
(`State.WidthsFit`, Safety.lean). -/
def Params.idxW (p : Params) : Nat := (p.nodeCap - 1).log2 + 1

/-- What a host read of an offset the block does not decode returns: the platform's matter (20_memory.md R52,
93_implementation_defined.md S11), so a FREE VALUE, one for each such read (log 11). -/
opaque Config.platformRead : Nat → Offset → Word

end Sys2Proof
end

