-- ==== Sys2Proof/Syntax.lean ====
section
/-! DEFINITION. Syntax.lean: the instructions, one constructor per row of spec/opcode_table.json, and the units
they are read from (30_encoding.md R80). No instruction of this hardware has an operand field: a command takes
its operands from the block's state and streams (R81), and a unit of a stream is its own whole encoding. -/

namespace Sys2Proof

/-- The 21 rows of spec/opcode_table.json. -/
inductive Instr where
  /-- `CLEAR` (40_control.md R112). -/
  | clear
  /-- `BUILD` (41_build.md R125). -/
  | build
  /-- `SAVE` (42_save_load.md R145). -/
  | save
  /-- `LOAD` (42_save_load.md R155). -/
  | load
  /-- `DECODE` (43_decode.md R185). -/
  | decode
  /-- `LEFT`, bit 0 (43_decode.md R189). -/
  | left
  /-- `RIGHT`, bit 1 (43_decode.md R190). -/
  | right
  /-- `SYM_DIGIT_0` (42_save_load.md R158), and so on to `SYM_DIGIT_9`. -/
  | symDigit0
  | symDigit1
  | symDigit2
  | symDigit3
  | symDigit4
  | symDigit5
  | symDigit6
  | symDigit7
  | symDigit8
  | symDigit9
  /-- `SYM_EOL` (42_save_load.md R159). -/
  | symEol
  /-- `CODE_0` (42_save_load.md R162). -/
  | code0
  /-- `CODE_1` (42_save_load.md R163). -/
  | code1
  /-- `CODE_EOL` (42_save_load.md R164). -/
  | codeEol
deriving DecidableEq, Repr

/-- One unit of one of the four formats of 30_encoding.md R80. The format is part of the unit: which of the two
text formats a byte is read in "is decided by the loader's line phase, not by the byte". -/
inductive FetchUnit where
  /-- Format `CMD`: the 32-bit write data of a host write to `CMD`. -/
  | cmd (w : Word)
  /-- Format `BIT`: one unit of the bit source. -/
  | bit (b : Bool)
  /-- Format `TEXT_SYM`: one byte of a symbol line. -/
  | textSym (ch : Byte)
  /-- Format `TEXT_CODE`: one byte of a code line. -/
  | textCode (ch : Byte)
deriving DecidableEq, Repr

/-- Why a unit is no instruction. Every value of a `BIT` unit is one (30_encoding.md R84), so `BIT` has no entry. -/
inductive Reject where
  /-- A reserved command word (30_encoding.md R83): dispatch raises `ILLEGAL_CMD` (40_control.md R113). -/
  | reservedCommand
  /-- A symbol-line byte that is neither a digit nor LF (42_save_load.md R160): `LOAD` raises `FMT_BAD_SYMBOL`. -/
  | badSymbolByte
  /-- A code-line byte other than `0x30`, `0x31`, LF (42_save_load.md R165): `LOAD` raises `FMT_BAD_CODE_CHAR`. -/
  | badCodeByte
deriving DecidableEq, Repr

end Sys2Proof
end

