-- ==== Sys2Proof/WellFormed.lean ====
section
/-! DEFINITION. WellFormed.lean: which instructions exist under given parameters, and which parameters are legal. -/

namespace Sys2Proof

/-- The instructions a block with parameters `p` has: all of them, but that "if `HAS_BUILDER = 0`, `op =
0x00000002` is reserved as well" (30_encoding.md R83). -/
def Instr.wellFormed (p : Params) : Instr → Bool
  | .build => p.hasBuilder
  | .clear | .save | .load | .decode => true
  | .left | .right => true
  | .symDigit0 | .symDigit1 | .symDigit2 | .symDigit3 | .symDigit4 => true
  | .symDigit5 | .symDigit6 | .symDigit7 | .symDigit8 | .symDigit9 => true
  | .symEol => true
  | .code0 | .code1 | .codeEol => true

/-- The parameter constraints of 00_scope.md R7 that are not already in the types: `NODE_CAP >= 1`, and
`NODE_CAP >= 2*NSYM - 1 = 511` when the builder exists. -/
def Params.legal (p : Params) : Bool :=
  decide (1 ≤ p.nodeCap) && (!p.hasBuilder || decide (2 * Config.nsym - 1 ≤ p.nodeCap))

end Sys2Proof
end

