-- ==== Sys2Proof/Decode.lean ====
section
/-! DEFINITION. Decode.lean: from a unit to an instruction or a named rejection (30_encoding.md sections 2 to 4),
and the encoder after it. Both are written from the tables of rules R82, R84, R87, R89 and R90. -/

namespace Sys2Proof

/-- Format `CMD` (30_encoding.md R82, R83): the whole word is the opcode. -/
def decodeCmd (p : Params) (w : Word) : Except Reject Instr :=
  if w = 0x00000001#32 then .ok .clear
  else if w = 0x00000002#32 then (if p.hasBuilder then .ok .build else .error .reservedCommand)
  else if w = 0x00000003#32 then .ok .save
  else if w = 0x00000004#32 then .ok .load
  else if w = 0x00000005#32 then .ok .decode
  else .error .reservedCommand

/-- Format `BIT` (30_encoding.md R84): both values are legal in every position. -/
def decodeBit (b : Bool) : Instr := if b then .right else .left

/-- Format `TEXT_SYM` (30_encoding.md R87, R89). -/
def decodeTextSym (ch : Byte) : Except Reject Instr :=
  if ch = 0x30#8 then .ok .symDigit0
  else if ch = 0x31#8 then .ok .symDigit1
  else if ch = 0x32#8 then .ok .symDigit2
  else if ch = 0x33#8 then .ok .symDigit3
  else if ch = 0x34#8 then .ok .symDigit4
  else if ch = 0x35#8 then .ok .symDigit5
  else if ch = 0x36#8 then .ok .symDigit6
  else if ch = 0x37#8 then .ok .symDigit7
  else if ch = 0x38#8 then .ok .symDigit8
  else if ch = 0x39#8 then .ok .symDigit9
  else if ch = 0x0A#8 then .ok .symEol
  else .error .badSymbolByte

/-- Format `TEXT_CODE` (30_encoding.md R87, R90). -/
def decodeTextCode (ch : Byte) : Except Reject Instr :=
  if ch = 0x30#8 then .ok .code0
  else if ch = 0x31#8 then .ok .code1
  else if ch = 0x0A#8 then .ok .codeEol
  else .error .badCodeByte

/-- The decoder, total on every unit of every format. -/
def decode (p : Params) : FetchUnit → Except Reject Instr
  | .cmd w => decodeCmd p w
  | .bit b => .ok (decodeBit b)
  | .textSym ch => decodeTextSym ch
  | .textCode ch => decodeTextCode ch

/-- The encoder: the unit of each instruction (30_encoding.md R82, R84, R89, R90). -/
def encode : Instr → FetchUnit
  | .clear => .cmd 0x00000001#32
  | .build => .cmd 0x00000002#32
  | .save => .cmd 0x00000003#32
  | .load => .cmd 0x00000004#32
  | .decode => .cmd 0x00000005#32
  | .left => .bit false
  | .right => .bit true
  | .symDigit0 => .textSym 0x30#8
  | .symDigit1 => .textSym 0x31#8
  | .symDigit2 => .textSym 0x32#8
  | .symDigit3 => .textSym 0x33#8
  | .symDigit4 => .textSym 0x34#8
  | .symDigit5 => .textSym 0x35#8
  | .symDigit6 => .textSym 0x36#8
  | .symDigit7 => .textSym 0x37#8
  | .symDigit8 => .textSym 0x38#8
  | .symDigit9 => .textSym 0x39#8
  | .symEol => .textSym 0x0A#8
  | .code0 => .textCode 0x30#8
  | .code1 => .textCode 0x31#8
  | .codeEol => .textCode 0x0A#8

/-- The unit that a number stands for when no format comes with it (log 5). More than one byte is a command word;
one bit, or a byte of value 0 or 1 (no text byte that decodes), is a `BIT` unit; any other byte is read as
`TEXT_SYM`, the format of the loader's first phase (42_save_load.md R157). -/
def unitOfTableWord (nbits w : Nat) : FetchUnit :=
  if 8 < nbits then .cmd (BitVec.ofNat 32 w)
  else if nbits ≤ 1 ∨ w < 2 then .bit (w % 2 = 1)
  else .textSym (BitVec.ofNat 8 w)

/-- The instruction the decoder reads from such a number, under the default parameters. -/
def decodeTableWord (nbits w : Nat) : Option Instr :=
  match decode Params.standard (unitOfTableWord nbits w) with
  | .ok i => some i
  | .error _ => none

end Sys2Proof
end

