-- ==== Sys2Proof/Machine/State.lean ====
section
/-! DEFINITION. Machine/State.lean: the state of the block and of its environment (10_state.md R20, R33), as plain
data, and the state after reset (R37). -/

namespace Sys2Proof.Machine

/-- One record of the node store (10_state.md R21). An index is a `Nat`: no rule adds to, shifts or masks one, and
every index a rule writes is below `NODE_CAP` and fits `IDX_W` bits (`State.WidthsFit`, Safety.lean; log 13). -/
structure NodeRec where
  hasSym : Bool
  sym    : Byte
  lValid : Bool
  lIdx   : Nat
  rValid : Bool
  rIdx   : Nat
  weight : Weight
deriving DecidableEq, Repr

/-- `EMPTY` of 42_save_load.md R155: every field 0. Also what a record that nothing has written reads as (log 6). -/
def NodeRec.empty : NodeRec :=
  { hasSym := false, sym := 0#8, lValid := false, lIdx := 0, rValid := false, rIdx := 0, weight := 0#40 }

/-- The node store `NODE`, the block's only memory (20_memory.md R50, R51): records by index, the unit of access
being one whole record. Indices strictly rising, no entry equal to `NodeRec.empty` (`Memory.wf`, Machine/Ops.lean). -/
abbrev Memory := List (Nat × NodeRec)

/-- The cause codes of 60_exceptions.md R211. -/
inductive Cause where
  | none
  | illegalCmd
  | fmtBadSymbol
  | fmtSymbolRange
  | fmtBadCodeChar
  | fmtTruncated
  | capacity
  | decEmptyTree
  | decLeafRoot
  | treeIllformed
deriving DecidableEq, Repr

/-- One entry of the builder's priority collection (41_build.md R128): `(weight, seq, k)`. -/
structure QEntry where
  weight : Weight
  seq    : Seq
  k      : Nat
deriving DecidableEq, Repr

/-- What the sequencer is doing, with the transient state of the running command (10_state.md R32). `idle` is "no
command is running"; every other value means `STATUS.BUSY = 1`. -/
inductive Sequencer where
  /-- No command is running. -/
  | idle
  /-- `DECODE` (43_decode.md R185): before a `BitHas()`; the walker's position is `CURSOR`. -/
  | walk
  /-- `LOAD`, phase `SYM` (42_save_load.md R157): the accumulated value and "digits seen: not zero". -/
  | sym (v : Nat) (n : Bool)
  /-- `LOAD`, phase `CODE` (42_save_load.md R157): the symbol of this record and the build position. -/
  | code (v : Nat) (pos : Nat)
  /-- `BUILD`, step 1 (41_build.md R127): the next symbol to scan, `Q`, the sequence counter. -/
  | scan (s : Nat) (q : List QEntry) (seq : Seq)
  /-- `BUILD`, steps 2 to 4 (41_build.md R129, R130): `Q` and the sequence counter. -/
  | merge (q : List QEntry) (seq : Seq)
  /-- `SAVE` (42_save_load.md R145, R146): the nodes still to be visited, next one first, each with its path
  (log 19). -/
  | visit (stack : List (Nat × List Bool))
deriving DecidableEq, Repr

/-- One action of the host, or one word of the schedule (log 3). -/
inductive HostAction where
  /-- A host write of a 32-bit word at a byte offset (20_memory.md R52). -/
  | write (addr : Offset) (data : Word)
  /-- A host read at a byte offset (20_memory.md R52). -/
  | read (addr : Offset)
  /-- Assert and release `rst` (70_reset_and_hazards.md R245). -/
  | reset
  /-- Replace `bits_in` (10_state.md R33; `BITS` of 30_encoding.md R96). -/
  | setBits (bits : List Bool)
  /-- Extend `bits_in` (10_state.md R33). -/
  | addBits (bits : List Bool)
  /-- Replace `text_in` (10_state.md R33; `TEXT` of 30_encoding.md R96). -/
  | setText (text : List Byte)
  /-- Extend `text_in` (10_state.md R33). -/
  | addText (text : List Byte)
  /-- Drain `out` (10_state.md R33; log 21). -/
  | drain
  /-- Schedule: let the block make one step. -/
  | tick
  /-- Schedule: wait for `STATUS.BUSY = 0` (70_reset_and_hazards.md R250). -/
  | waitIdle
deriving DecidableEq, Repr

/-- The complete state: the block's (10_state.md R20), its environment's (R33) and four fields of the model's own
(`treeBefore`, `host`, `reads`, `freeCount`). `STATUS.BUSY` and `STATUS.TREE` are computed (Machine/Flags.lean), and `CMD` "holds no
value" (R26). -/
structure State where
  /-- `NODE_CAP` and `HAS_BUILDER` (00_scope.md R6; log 1). -/
  params      : Params
  /-- `NODE[0 .. NODE_CAP-1]` (10_state.md R21). -/
  nodes       : Memory
  /-- `ROOT_VALID` (10_state.md R22). -/
  rootValid   : Bool
  /-- `ROOT` (10_state.md R22). -/
  root        : Nat
  /-- `NEXT_FREE` (10_state.md R23). -/
  nextFree    : Nat
  /-- `CURSOR_VALID` (10_state.md R24). -/
  cursorValid : Bool
  /-- `CURSOR` (10_state.md R24). -/
  cursor      : Nat
  /-- `FREQ[0 .. 255]` (10_state.md R25). -/
  freq        : Vector Word 256
  /-- `STATUS.FAULT` (10_state.md R27). -/
  fault       : Bool
  /-- `STATUS.UNDERFLOW` (10_state.md R27). -/
  underflow   : Bool
  /-- `CAUSE` (10_state.md R28). -/
  cause       : Cause
  /-- `ROOT_VALID` as it was when the running `LOAD` or `BUILD` was accepted: what the host reads as `STATUS.TREE` until that
  command ends (00_scope.md R8, 40_control.md R115; log 17). Not read while any other command or none runs. -/
  treeBefore  : Bool
  /-- The running command and its transient state (10_state.md R32). -/
  sequencer   : Sequencer
  /-- `bits_in` (10_state.md R33). -/
  bitsIn      : List Bool
  /-- `text_in` (10_state.md R33). -/
  textIn      : List Byte
  /-- `out` (10_state.md R33). -/
  out         : List Byte
  /-- What the host will do, next action first (log 3). -/
  host        : List HostAction
  /-- What host reads have returned, oldest first (20_memory.md R52, R59). -/
  reads       : List Word
  /-- How many free values have been used (log 11). -/
  freeCount   : Nat
deriving DecidableEq, Repr

/-- Where the machine stops because the spec gives no effect at all. A fault of the SPEC is no `Fault` of the model: it
is a next state (`State.raise`). -/
inductive Fault where
  /-- Raised by a `NodeRead` or a field write at an index that is not below `NEXT_FREE`, which is "defined only for `k <
  NEXT_FREE`" (20_memory.md R51). Safe: no state reachable from reset does it (10_state.md R30; log 8). -/
  | undefinedNodeRead
  /-- Raised by the meaning of a stream unit (a `BIT`, `TEXT_SYM` or `TEXT_CODE` row) in a state whose running unit does
  not take that format, where the spec gives it no meaning. Safe: no step does it (log 9). -/
  | unitNotRunning
deriving DecidableEq, Repr

/-- What the model declines. -/
inductive Refusal where
  /-- An instruction without a meaning, by its mnemonic: raised by an arm of `exec`. Safe. -/
  | notModelled (mnemonic : String)
  /-- The host replaces, extends or drains a stream while a command runs, which 70_reset_and_hazards.md R251 forbids it.
  Raised by the host's script, never by an instruction. Safe (log 10). -/
  | streamDuringCommand
deriving DecidableEq, Repr

/-- How one step ends. -/
abbrev Result := Host.Outcome State Fault Refusal

/-- The machine right after reset (10_state.md R37), with default parameters, empty streams and no host action
(logs 1, 4, 6, 7, 11, 17, 20). -/
def State.reset : State :=
  { params := Params.standard
    nodes := []
    rootValid := false
    root := 0
    nextFree := 0
    cursorValid := false
    cursor := 0
    freq := Vector.replicate 256 0#32
    fault := false
    underflow := false
    cause := .none
    treeBefore := false
    sequencer := .idle
    bitsIn := []
    textIn := []
    out := []
    host := []
    reads := []
    freeCount := 0 }

end Sys2Proof.Machine
end

