-- ==== Sys2Proof/Machine/Flags.lean ====
section
/-! DEFINITION. Machine/Flags.lean: the flags and the two read-only registers the host reads them in (10_state.md R27
to R29). There are no arithmetic condition codes (R29). -/

namespace Sys2Proof.Machine

/-- Whether a command is running. -/
def Sequencer.running : Sequencer → Bool
  | .idle => false
  | .walk | .sym _ _ | .code _ _ | .scan _ _ _ | .merge _ _ | .visit _ => true

/-- Whether the running command is `LOAD` or `BUILD`, the two that make a tree (60_exceptions.md R224). -/
def Sequencer.constructs : Sequencer → Bool
  | .idle | .walk | .visit _ => false
  | .sym _ _ | .code _ _ | .scan _ _ _ | .merge _ _ => true

/-- `STATUS.BUSY`: "1 while a command is running" (10_state.md R27). -/
def State.busy (s : State) : Bool := s.sequencer.running

/-- `STATUS.TREE`: "a copy of `ROOT_VALID`" (10_state.md R27). While `LOAD` or `BUILD` makes a tree the host still reads the
copy of before the command, since "the only host-readable register that differs during a command is `STATUS.BUSY`"
(40_control.md R115; 00_scope.md R8; log 17). -/
def State.tree (s : State) : Bool := if s.sequencer.constructs then s.treeBefore else s.rootValid

/-- `STATUS` (10_state.md R27): `BUSY` bit 0, `FAULT` bit 1, `TREE` bit 2, `UNDERFLOW` bit 3, bits 31:4 read as 0. -/
def State.statusWord (s : State) : Word :=
  0#28 ++ BitVec.ofBool s.underflow ++ BitVec.ofBool s.tree ++ BitVec.ofBool s.fault ++ BitVec.ofBool s.busy

/-- The 4-bit code of a cause (60_exceptions.md R211). -/
def Cause.code : Cause → BitVec 4
  | .none           => 0#4
  | .illegalCmd     => 1#4
  | .fmtBadSymbol   => 2#4
  | .fmtSymbolRange => 3#4
  | .fmtBadCodeChar => 4#4
  | .fmtTruncated   => 5#4
  | .capacity       => 6#4
  | .decEmptyTree   => 7#4
  | .decLeafRoot    => 8#4
  | .treeIllformed  => 9#4

/-- `CAUSE` (10_state.md R28): bits 3:0 the code, bits 31:4 read as 0. -/
def State.causeWord (s : State) : Word := 0#28 ++ s.cause.code

/-- `UNDERFLOW` at the end of the bit stream: the cursor is valid and not at the root (43_decode.md R193). -/
def State.underflowAtEnd (s : State) : Bool := s.cursorValid && s.cursor != s.root

end Sys2Proof.Machine
end

