-- ==== Sys2Proof/Machine/Operands.lean ====
section
/-! DEFINITION. Machine/Operands.lean: what the commands and the stream units operate on. No instruction has an operand
field (30_encoding.md R81); the operands are the node records, the frequency file, the symbol accumulator and the
heads of the two sources. -/

namespace Sys2Proof.Machine

/-- Node classification (00_scope.md R11). -/
inductive NodeClass where
  | leaf
  | internal
  | illformed
deriving DecidableEq, Repr

/-- `class(rec)` (00_scope.md R11). -/
def NodeRec.cls (r : NodeRec) : NodeClass :=
  if r.hasSym ∧ ¬ r.lValid ∧ ¬ r.rValid then .leaf
  else if ¬ r.hasSym ∧ r.lValid ∧ r.rValid then .internal
  else .illformed

/-- `child(rec, b)` (00_scope.md R10): left for 0, right for 1; `none` where the valid bit is 0. -/
def NodeRec.child (r : NodeRec) (b : Bool) : Option Nat :=
  if b then (if r.rValid then some r.rIdx else none) else (if r.lValid then some r.lIdx else none)

/-- Link child `k` on side `b`, "the other fields unchanged" (42_save_load.md R162, R163). -/
def NodeRec.setChild (r : NodeRec) (b : Bool) (k : Nat) : NodeRec :=
  if b then { r with rValid := true, rIdx := k } else { r with lValid := true, lIdx := k }

/-- Give a record its symbol; "the child links and `weight` are unchanged" (42_save_load.md R164). -/
def NodeRec.setSym (r : NodeRec) (sym : Byte) : NodeRec := { r with hasSym := true, sym := sym }

/-- The record `BUILD` makes for a symbol (41_build.md R127). -/
def NodeRec.leafOf (sym : Byte) (weight : Weight) : NodeRec :=
  { NodeRec.empty with hasSym := true, sym := sym, weight := weight }

/-- The record `BUILD` makes for a merge (41_build.md R129). -/
def NodeRec.internalOf (l r : Nat) (weight : Weight) : NodeRec :=
  { NodeRec.empty with lValid := true, lIdx := l, rValid := true, rIdx := r, weight := weight }

/-- The bit layout of a record (30_encoding.md R93) for an index width `w`, as a number. -/
def NodeRec.pack (w : Nat) (r : NodeRec) : Nat :=
  r.hasSym.toNat + r.sym.toNat * 2 ^ 1 + r.lValid.toNat * 2 ^ 9 + r.lIdx * 2 ^ 10
    + r.rValid.toNat * 2 ^ (10 + w) + r.rIdx * 2 ^ (11 + w) + r.weight.toNat * 2 ^ (11 + 2 * w)

/-- The record a bit pattern of that layout stands for (30_encoding.md R93). -/
def NodeRec.unpack (w x : Nat) : NodeRec :=
  { hasSym := x % 2 = 1
    sym := BitVec.ofNat 8 (x / 2 ^ 1)
    lValid := x / 2 ^ 9 % 2 = 1
    lIdx := x / 2 ^ 10 % 2 ^ w
    rValid := x / 2 ^ (10 + w) % 2 = 1
    rIdx := x / 2 ^ (11 + w) % 2 ^ w
    weight := BitVec.ofNat 40 (x / 2 ^ (11 + 2 * w)) }

/-- Whether `BUILD` uses a frequency entry: `signed(FREQ[i]) > 0` (30_encoding.md R94). -/
def freqPositive (f : Word) : Bool := decide (0 < f.toInt)

/-- `zext_WEIGHT_W(FREQ[s])` (41_build.md R125). -/
def freqWeight (f : Word) : Weight := f.setWidth 40

/-- `FREQ[i]` as a command reads it. -/
def State.freqAt (s : State) (i : Nat) : Word := s.freq.getD i 0#32

/-- One decimal digit more: `v <- min(v*10 + d, 256)` (42_save_load.md R158). -/
def accumulate (v d : Nat) : Nat := min (v * 10 + d) 256

/-- `BitHas()` (20_memory.md R54). -/
def State.bitHas (s : State) : Bool := !s.bitsIn.isEmpty

/-- `TextHas()` (20_memory.md R55). -/
def State.textHas (s : State) : Bool := !s.textIn.isEmpty

/-- The decimal digits of a symbol, most significant first, no leading zeros (30_encoding.md R92; the first three lines
of `WriteRecord`, 42_save_load.md R147). -/
def decimalDigits (sym : Byte) : List Byte :=
  (if 100 ≤ sym.toNat then [BitVec.ofNat 8 (0x30 + sym.toNat / 100)] else [])
    ++ (if 10 ≤ sym.toNat then [BitVec.ofNat 8 (0x30 + sym.toNat / 10 % 10)] else [])
    ++ [BitVec.ofNat 8 (0x30 + sym.toNat % 10)]

/-- A path as code characters: `0x30 + e` for each edge, first edge first (42_save_load.md R147). -/
def codeChars (path : List Bool) : List Byte := path.map fun e => if e then 0x31#8 else 0x30#8

/-- The bytes of `WriteRecord(sym, path)` (42_save_load.md R147). -/
def recordBytes (sym : Byte) (path : List Bool) : List Byte :=
  decimalDigits sym ++ [0x0A#8] ++ codeChars path ++ [0x0A#8]

end Sys2Proof.Machine
end

