-- ==== Sys2Proof/Machine/Ops.lean ====
section
/-! DEFINITION. Machine/Ops.lean: the operations the meanings share: the node store (20_memory.md R51, R67), the sink
(R56), accepting a command (40_control.md R110, R111), entering the fault state and leaving it (60_exceptions.md R224,
R226). -/

namespace Sys2Proof.Machine

/-! ### The node store -/

/-- The record at index `k`; one that is not listed reads as `NodeRec.empty` (log 6). -/
def Memory.read : Memory → Nat → NodeRec
  | [], _ => NodeRec.empty
  | (j, r) :: m, k => if j = k then r else Memory.read m k

/-- Remove the entry of index `k`. -/
def Memory.remove : Memory → Nat → Memory
  | [], _ => []
  | (j, r) :: m, k => if j = k then m else (j, r) :: Memory.remove m k

/-- List the record `r` at index `k`, keeping the indices strictly rising. -/
def Memory.insert : Memory → Nat → NodeRec → Memory
  | [], k, r => [(k, r)]
  | (j, x) :: m, k, r =>
    if k < j then (k, r) :: (j, x) :: m
    else if k = j then (k, r) :: m
    else (j, x) :: Memory.insert m k r

/-- Write a whole record. Writing what an unlisted record reads as removes the entry, so that equal stores are equal
lists. -/
def Memory.write (m : Memory) (k : Nat) (r : NodeRec) : Memory :=
  if r = NodeRec.empty then Memory.remove m k else Memory.insert m k r

/-- The canonical form: indices strictly rising, no entry equal to `NodeRec.empty`. -/
def Memory.wf : Memory → Bool
  | [] => true
  | (j, r) :: m => decide (r ≠ NodeRec.empty) && m.all (fun e => decide (j < e.1)) && Memory.wf m

/-- `NodeRead(k)` (20_memory.md R51): the whole record, "defined only for `k < NEXT_FREE`". -/
def State.nodeRead (s : State) (k : Nat) : Option NodeRec :=
  if k < s.nextFree then some (Memory.read s.nodes k) else none

/-- `NodeWrite(k, rec)` (00_scope.md R10). -/
def State.nodeWrite (s : State) (k : Nat) (r : NodeRec) : State :=
  { s with nodes := Memory.write s.nodes k r }

/-- `Alloc(rec)` (20_memory.md R67): the next free index and the state with the record there; `none` where the store is
full, for which the caller raises `Fault(CAPACITY)`. -/
def State.alloc (s : State) (r : NodeRec) : Option (State × Nat) :=
  if s.nextFree < s.params.nodeCap then
    some ({ s.nodeWrite s.nextFree r with nextFree := s.nextFree + 1 }, s.nextFree)
  else none

/-- Discard the tree "without touching any record" (20_memory.md R68), and the cursor with it (41_build.md R126,
42_save_load.md R156). -/
def State.discardTree (s : State) : State :=
  { s with rootValid := false, nextFree := 0, cursorValid := false }

/-! ### The sink -/

/-- `OutWrite` of each byte in order (20_memory.md R56). -/
def State.outWrite (s : State) (bytes : List Byte) : State := { s with out := s.out ++ bytes }

/-! ### Running a command -/

/-- The test a command word passes before it runs (40_control.md R110): ignored while `BUSY = 1`, and ignored while
`FAULT = 1`. -/
def State.accept (s : State) (body : State → Result) : Result :=
  if s.busy then .next s
  else if s.fault then .next s
  else body s

/-- `LOAD` or `BUILD` is accepted: the old tree is discarded first (41_build.md R126, 42_save_load.md R156), the unit starts as
`q`, and the host goes on reading `STATUS.TREE` as it was (40_control.md R115; log 17). -/
def State.beginTree (s : State) (q : Sequencer) : State :=
  { s.discardTree with treeBefore := s.rootValid, sequencer := q }

/-- The command has reached its end: `STATUS.BUSY <- 0` (40_control.md R111). -/
def State.complete (s : State) : State := { s with sequencer := .idle }

/-- FAULT ENTRY, `raise Fault(cause)` (60_exceptions.md R224): the block's only kind of exception. `FAULT` and `CAUSE`
are set; a running `LOAD` or `BUILD` also discards its tree; the command ends. Nothing is saved and control goes nowhere.
With no running command (`ILLEGAL_CMD`) only `FAULT` and `CAUSE` change. -/
def State.raise (s : State) (c : Cause) : State :=
  let s' := if s.sequencer.constructs then s.discardTree else s
  { s' with fault := true, cause := c, sequencer := .idle }

/-- FAULT RETURN (60_exceptions.md R226), which is also the whole of `CLEAR` (40_control.md R112): the tree, the cursor,
`FAULT`, `CAUSE` and `UNDERFLOW` are cleared. It resumes nothing. -/
def State.acknowledge (s : State) : State :=
  { s.discardTree with fault := false, cause := .none, underflow := false }

/-- Reset (70_reset_and_hazards.md R245): the block's state becomes that of `State.reset`. Not touched: the records
of the node store and the streams (R246), the parameters, and what is the host's own. It may come during a command (R247; log 12). -/
def State.blockReset (s : State) : State :=
  { State.reset with
      params := s.params, nodes := s.nodes, bitsIn := s.bitsIn, textIn := s.textIn, out := s.out,
      host := s.host, reads := s.reads, freeCount := s.freeCount }

/-- Read a record, or stop where the spec does not define the read (log 8). -/
def State.withNode (s : State) (k : Nat) (body : NodeRec → Result) : Result :=
  match s.nodeRead k with
  | some r => body r
  | none => .fault .undefinedNodeRead

/-- Allocate a record, or raise `Fault(CAPACITY)` (20_memory.md R67). -/
def State.withAlloc (s : State) (r : NodeRec) (body : State → Nat → Result) : Result :=
  match s.alloc r with
  | some (s', k) => body s' k
  | none => .next (s.raise .capacity)

end Sys2Proof.Machine
end

