-- ==== Sys2Proof/Machine/Build.lean ====
section
/-! DEFINITION. Machine/Build.lean: `BUILD` (41_build.md). The command word starts the builder; the builder then makes one
scan or one merge a step (70_reset_and_hazards.md R255: "at most 256 scans and 255 merges"). -/

namespace Sys2Proof.Machine

/-- `BUILD` (41_build.md R125, step 0 R126): the old tree is discarded, `Q` is empty, `seq` is 0. With `HAS_BUILDER = 0` it is
a reserved word (40_control.md R110, R113). -/
def execBuild (s : State) : Result :=
  s.accept fun s =>
    if s.params.hasBuilder then .next (s.beginTree (.scan 0 [] 0))
    else .next (s.raise .illegalCmd)

/-- The order of the priority collection (41_build.md R128): `w1 < w2`, or `w1 = w2` and `s1 < s2`, unsigned. -/
def QEntry.before (a b : QEntry) : Bool :=
  decide (a.weight < b.weight) || (decide (a.weight = b.weight) && decide (a.seq < b.seq))

/-- `RemoveMin(Q)` (41_build.md R128): the least entry, and the others in the order they stood. -/
def removeMin : List QEntry → Option (QEntry × List QEntry)
  | [] => none
  | e :: q =>
    match removeMin q with
    | none => some (e, [])
    | some (m, rest) => if m.before e then some (m, e :: rest) else some (e, q)

/-- After the scan of symbol `i`: the next symbol, or the merges after symbol 255. -/
def scanNext (i : Nat) (q : List QEntry) (seq : Seq) : Sequencer :=
  if i + 1 < Config.nsym then .scan (i + 1) q seq else .merge q seq

/-- Step 1 for one symbol `i` (41_build.md R127): a leaf and an entry of `Q` for a positive frequency, nothing for any
other. -/
def scanStep (i : Nat) (q : List QEntry) (seq : Seq) (s : State) : Result :=
  if freqPositive (s.freqAt i) then
    let w := freqWeight (s.freqAt i)
    s.withAlloc (NodeRec.leafOf (BitVec.ofNat 8 i) w) fun s k =>
      .next { s with sequencer := scanNext i ({ weight := w, seq := seq, k := k } :: q) (seq + 1) }
  else .next { s with sequencer := scanNext i q seq }

/-- Steps 2 to 4 for one turn: a merge while `Q` holds two entries or more (41_build.md R129), then the root (R130). The sum
of two weights is exact in every run (R131; log 22). -/
def mergeStep (q : List QEntry) (seq : Seq) (s : State) : Result :=
  match removeMin q with
  | none => .next { s with rootValid := false, sequencer := .idle }
  | some (a, q1) =>
    match removeMin q1 with
    | none => .next { s with root := a.k, rootValid := true, sequencer := .idle }
    | some (b, q2) =>
      let w := a.weight + b.weight
      s.withAlloc (NodeRec.internalOf a.k b.k w) fun s k =>
        .next { s with sequencer := .merge ({ weight := w, seq := seq, k := k } :: q2) (seq + 1) }

end Sys2Proof.Machine
end

