-- ==== Sys2Proof/Machine/Control.lean ====
section
/-! DEFINITION. Machine/Control.lean: `CLEAR` and reserved command words (40_control.md). -/

namespace Sys2Proof.Machine

/-- `CLEAR` (40_control.md R112): "accepted whether `FAULT` is 0 or 1", ignored like every word while `BUSY = 1` (R114). -/
def execClear (s : State) : Result :=
  if s.busy then .next s else .next s.acknowledge

/-- A reserved command word (40_control.md R113): `Fault(ILLEGAL_CMD)`, with the tests of R110 before it. -/
def illegalCommand (s : State) : Result :=
  s.accept fun s => .next (s.raise .illegalCmd)

end Sys2Proof.Machine
end

