-- ==== Sys2Proof/Machine/Load.lean ====
section
/-! DEFINITION. Machine/Load.lean: `LOAD` and the bytes of the saved-code text (42_save_load.md section 2). The command word
starts the loader in phase `SYM`; each step then "consumes one byte, or observes end of stream" (R157). The byte is taken
from the source by the fetch (Machine/Fetch.lean), so the meanings below start after `TextNext()`. -/

namespace Sys2Proof.Machine

/-- `LOAD` (42_save_load.md R155, R156): the old tree is discarded and the loader stands at the start of a symbol line. -/
def execLoad (s : State) : Result :=
  s.accept fun s => .next (s.beginTree (.sym 0 false))

/-! ### Phase SYM -/

/-- Entering phase `CODE` (42_save_load.md R161): first the truncation test, then the root if there is none yet, then
`pos <- ROOT`. -/
def enterCode (v : Nat) (s : State) : Result :=
  if s.textHas then
    if s.rootValid then .next { s with sequencer := .code v s.root }
    else
      s.withAlloc NodeRec.empty fun s k =>
        .next { s with root := k, rootValid := true, sequencer := .code v k }
  else .next (s.raise .fmtTruncated)

/-- The end of a symbol line (42_save_load.md R159): empty, then out of range, then phase `CODE`. -/
def endSymLine (v : Nat) (n : Bool) (s : State) : Result :=
  if !n then .next (s.raise .fmtBadSymbol)
  else if 255 < v then .next (s.raise .fmtSymbolRange)
  else enterCode v s

/-- A digit `d` on a symbol line (42_save_load.md R158). -/
def digitStep (d : Nat) (s : State) : Result :=
  match s.sequencer with
  | .sym v _ => .next { s with sequencer := .sym (accumulate v d) true }
  | _ => .fault .unitNotRunning

/-- `SYM_DIGIT_0`, byte `0x30` (42_save_load.md R158). -/
def execSymDigit0 (s : State) : Result := digitStep 0 s
/-- `SYM_DIGIT_1`, byte `0x31` (42_save_load.md R158). -/
def execSymDigit1 (s : State) : Result := digitStep 1 s
/-- `SYM_DIGIT_2`, byte `0x32` (42_save_load.md R158). -/
def execSymDigit2 (s : State) : Result := digitStep 2 s
/-- `SYM_DIGIT_3`, byte `0x33` (42_save_load.md R158). -/
def execSymDigit3 (s : State) : Result := digitStep 3 s
/-- `SYM_DIGIT_4`, byte `0x34` (42_save_load.md R158). -/
def execSymDigit4 (s : State) : Result := digitStep 4 s
/-- `SYM_DIGIT_5`, byte `0x35` (42_save_load.md R158). -/
def execSymDigit5 (s : State) : Result := digitStep 5 s
/-- `SYM_DIGIT_6`, byte `0x36` (42_save_load.md R158). -/
def execSymDigit6 (s : State) : Result := digitStep 6 s
/-- `SYM_DIGIT_7`, byte `0x37` (42_save_load.md R158). -/
def execSymDigit7 (s : State) : Result := digitStep 7 s
/-- `SYM_DIGIT_8`, byte `0x38` (42_save_load.md R158). -/
def execSymDigit8 (s : State) : Result := digitStep 8 s
/-- `SYM_DIGIT_9`, byte `0x39` (42_save_load.md R158). -/
def execSymDigit9 (s : State) : Result := digitStep 9 s

/-- `SYM_EOL`, byte `0x0A` on a symbol line (42_save_load.md R159). -/
def execSymEol (s : State) : Result :=
  match s.sequencer with
  | .sym v n => endSymLine v n s
  | _ => .fault .unitNotRunning

/-- End of stream in phase `SYM` (42_save_load.md R166): before the first byte of a line `LOAD` completes (a); after one the
line ends there (b). -/
def symStreamEnd (v : Nat) (n : Bool) (s : State) : Result :=
  if n then endSymLine v n s else .next s.complete

/-! ### Phase CODE -/

/-- An edge of a code line (42_save_load.md R162, R163): descend on side `e`, making the child first where there is none. The
node at `pos` "is not examined beyond" that link. -/
def edgeStep (e : Bool) (s : State) : Result :=
  match s.sequencer with
  | .code v pos =>
    s.withNode pos fun r =>
      match r.child e with
      | some k => .next { s with sequencer := .code v k }
      | none =>
        s.withAlloc NodeRec.empty fun s k =>
          .next { s.nodeWrite pos (r.setChild e k) with sequencer := .code v k }
  | _ => .fault .unitNotRunning

/-- `CODE_0`, byte `0x30` on a code line (42_save_load.md R162). -/
def execCode0 (s : State) : Result := edgeStep false s

/-- `CODE_1`, byte `0x31` on a code line (42_save_load.md R163). -/
def execCode1 (s : State) : Result := edgeStep true s

/-- The end of a code line (42_save_load.md R164): the record at `pos` receives the symbol `v[7:0]`. -/
def markLeaf (v pos : Nat) (next : Sequencer) (s : State) : Result :=
  s.withNode pos fun r =>
    .next { s.nodeWrite pos (r.setSym (BitVec.ofNat 8 v)) with sequencer := next }

/-- `CODE_EOL`, byte `0x0A` on a code line (42_save_load.md R164): "the loader returns to phase `SYM`". -/
def execCodeEol (s : State) : Result :=
  match s.sequencer with
  | .code v pos => markLeaf v pos (.sym 0 false) s
  | _ => .fault .unitNotRunning

/-- End of stream in phase `CODE` (42_save_load.md R166 (d)): the line ends there, the leaf is marked, and with no byte left
the command completes (log 16). -/
def codeStreamEnd (v pos : Nat) (s : State) : Result := markLeaf v pos .idle s

end Sys2Proof.Machine
end

