-- ==== Sys2Proof/Machine/Save.lean ====
section
/-! DEFINITION. Machine/Save.lean: `SAVE` (42_save_load.md section 1). The command word starts the serializer; the serializer
then makes one visit a step (70_reset_and_hazards.md R255: "one visit per node"). -/

namespace Sys2Proof.Machine

/-- `SAVE` (42_save_load.md R145): the first visit is the root's, with the empty path; none where there is no tree (R148). -/
def execSave (s : State) : Result :=
  s.accept fun s => .next { s with sequencer := .visit (if s.rootValid then [(s.root, [])] else []) }

/-- One `Visit(k, path)` (42_save_load.md R145): a leaf writes its record, an internal node's subtrees are visited next, left
one first, an ill-formed node raises `TREE_ILLFORMED` (R150). With nothing left to visit the command completes. -/
def visitStep (stack : List (Nat × List Bool)) (s : State) : Result :=
  match stack with
  | [] => .next s.complete
  | (k, path) :: rest =>
    s.withNode k fun r =>
      match r.cls with
      | .leaf => .next { s.outWrite (recordBytes r.sym path) with sequencer := .visit rest }
      | .internal =>
        .next { s with sequencer := .visit ((r.lIdx, path ++ [false]) :: (r.rIdx, path ++ [true]) :: rest) }
      | .illformed => .next (s.raise .treeIllformed)

end Sys2Proof.Machine
end

