-- ==== Sys2Proof/Machine/Walk.lean ====
section
/-! DEFINITION. Machine/Walk.lean: `DECODE` and the bits of the bit source (43_decode.md). The command word puts the walker at
the root; each step then takes one bit, or observes the end of the stream. The bit is taken from the source by the fetch
(Machine/Fetch.lean), so `walkStep` starts after `BitNext()`. -/

namespace Sys2Proof.Machine

/-- The cursor to the root: `CURSOR_VALID <- ROOT_VALID`, `CURSOR <- ROOT` (43_decode.md R187, R193). -/
def State.cursorToRoot (s : State) : State :=
  { s with cursorValid := s.rootValid, cursor := s.root }

/-- `DECODE` (43_decode.md R185, R187). -/
def execDecode (s : State) : Result :=
  s.accept fun s => .next { s.cursorToRoot with sequencer := .walk }

/-- Arrival at child `c` (43_decode.md R191): a leaf writes its symbol and returns the cursor to the root, any other node
receives the cursor. -/
def arrive (c : Nat) (s : State) : Result :=
  s.withNode c fun r =>
    match r.cls with
    | .leaf => .next { s.outWrite [r.sym] with cursor := s.root }
    | .internal | .illformed => .next { s with cursor := c }

/-- `Step(b)` (43_decode.md R185, R189 to R192): the three faults in order, then the move to the child on side `b`. -/
def walkStep (b : Bool) (s : State) : Result :=
  match s.sequencer with
  | .walk =>
    if !s.cursorValid then .next (s.raise .decEmptyTree)
    else
      s.withNode s.cursor fun r =>
        match r.cls with
        | .leaf => .next (s.raise .decLeafRoot)
        | .illformed => .next (s.raise .treeIllformed)
        | .internal => arrive (if b then r.rIdx else r.lIdx) s
  | _ => .fault .unitNotRunning

/-- `LEFT`, bit 0 (43_decode.md R189). -/
def execLeft (s : State) : Result := walkStep false s

/-- `RIGHT`, bit 1 (43_decode.md R190). -/
def execRight (s : State) : Result := walkStep true s

/-- End of the bit stream (43_decode.md R193): `UNDERFLOW` says whether a partial code is discarded, the cursor returns to the
root, the command completes. -/
def bitStreamEnd (s : State) : Result :=
  .next { s.cursorToRoot with underflow := s.underflowAtEnd, sequencer := .idle }

end Sys2Proof.Machine
end

