-- ==== Sys2Proof/Machine/Dispatch.lean ====
section
/-! DEFINITION. Machine/Dispatch.lean: one arm per row of spec/opcode_table.json. -/

namespace Sys2Proof.Machine

def exec (i : Instr) (s : State) : Host.Outcome State Fault Refusal :=
  match i with
  | .clear => Sys2Proof.Machine.execClear s
  | .build => Sys2Proof.Machine.execBuild s
  | .save => Sys2Proof.Machine.execSave s
  | .load => Sys2Proof.Machine.execLoad s
  | .decode => Sys2Proof.Machine.execDecode s
  | .left => Sys2Proof.Machine.execLeft s
  | .right => Sys2Proof.Machine.execRight s
  | .symDigit0 => Sys2Proof.Machine.execSymDigit0 s
  | .symDigit1 => Sys2Proof.Machine.execSymDigit1 s
  | .symDigit2 => Sys2Proof.Machine.execSymDigit2 s
  | .symDigit3 => Sys2Proof.Machine.execSymDigit3 s
  | .symDigit4 => Sys2Proof.Machine.execSymDigit4 s
  | .symDigit5 => Sys2Proof.Machine.execSymDigit5 s
  | .symDigit6 => Sys2Proof.Machine.execSymDigit6 s
  | .symDigit7 => Sys2Proof.Machine.execSymDigit7 s
  | .symDigit8 => Sys2Proof.Machine.execSymDigit8 s
  | .symDigit9 => Sys2Proof.Machine.execSymDigit9 s
  | .symEol => Sys2Proof.Machine.execSymEol s
  | .code0 => Sys2Proof.Machine.execCode0 s
  | .code1 => Sys2Proof.Machine.execCode1 s
  | .codeEol => Sys2Proof.Machine.execCodeEol s

end Sys2Proof.Machine
end

