-- ==== Sys2Proof/Machine/HostPort.lean ====
section
/-! DEFINITION. Machine/HostPort.lean: the host register space (20_memory.md R52, R53), except that a write to `CMD` issues a
command, which is the fetch's (Machine/Fetch.lean). -/

namespace Sys2Proof.Machine

/-- What an offset selects (20_memory.md R52). -/
inductive HostReg where
  | cmd
  | status
  | cause
  | reserved
  | freq (i : Nat)
  | undecoded
deriving DecidableEq, Repr

/-- The register map (20_memory.md R52). The block "ignores offset bits 1:0" (R53), so the word index decides. -/
def hostReg (addr : Offset) : HostReg :=
  let i := addr.toNat / 4
  if i = 0 then .cmd
  else if i = 1 then .status
  else if i = 2 then .cause
  else if i < 256 then .reserved
  else if i < 512 then .freq (i - 256)
  else .undecoded

/-- What a host read of a register the block decodes returns (20_memory.md R52; 10_state.md R25 to R28). `none` for an offset
it does not decode. -/
def State.hostValue (s : State) (addr : Offset) : Option Word :=
  match hostReg addr with
  | .cmd => some 0#32
  | .status => some s.statusWord
  | .cause => some s.causeWord
  | .reserved => some 0#32
  | .freq i => some (if s.params.hasBuilder then s.freqAt i else 0#32)
  | .undecoded => none

/-- A host read: no side effect on the block (20_memory.md R59). Above `0x7FF` the word is the platform's, a free value
(93_implementation_defined.md S11; log 11). -/
def hostRead (addr : Offset) (s : State) : State :=
  match s.hostValue addr with
  | some w => { s with reads := s.reads ++ [w] }
  | none => { s with reads := s.reads ++ [Config.platformRead s.freeCount addr], freeCount := s.freeCount + 1 }

/-- A host write anywhere but `CMD`: `FREQ[i]` takes the word, unless a command is running (40_control.md R114) or the file is
absent (10_state.md R25); a write to anything else is ignored (20_memory.md R52). `FAULT` does not matter (log 18). -/
def hostWrite (addr : Offset) (w : Word) (s : State) : State :=
  match hostReg addr with
  | .freq i => if s.busy || !s.params.hasBuilder then s else { s with freq := s.freq.setIfInBounds i w }
  | .cmd | .status | .cause | .reserved | .undecoded => s

/-- Handing a stream over, which the host may do only while no command runs (10_state.md R33, 70_reset_and_hazards.md R251;
log 10). -/
def handOver (s : State) (s' : State) : Result :=
  if s.busy then .refused .streamDuringCommand else .next s'

end Sys2Proof.Machine
end

