-- ==== Sys2Proof/Machine/Fetch.lean ====
section
/-! DEFINITION. Machine/Fetch.lean: where the next instruction comes from. The block fetches from no instruction memory
(30_encoding.md): a command is the write data of a host write to `CMD`, a `BIT` unit is the head of the bit source while
`DECODE` runs, a text byte is the head of the text source while `LOAD` runs, in the format of the loader's phase
(42_save_load.md R157). -/

namespace Sys2Proof.Machine

/-- What the next step does: run an instruction in a state, or end as given. -/
inductive Fetched where
  /-- An instruction was fetched; the state is the one after the fetch. -/
  | run (i : Instr) (s : State)
  /-- Something that is no instruction. -/
  | done (r : Result)

/-- What a unit that decodes to no instruction does: a reserved word goes to dispatch (40_control.md R113), a bad byte faults
the loader "at that byte" (42_save_load.md R160, R165). -/
def rejected (r : Reject) (s : State) : Result :=
  match r with
  | .reservedCommand => illegalCommand s
  | .badSymbolByte => .next (s.raise .fmtBadSymbol)
  | .badCodeByte => .next (s.raise .fmtBadCodeChar)

/-- Decode a unit in the state after it was taken. -/
def fetchUnit (u : FetchUnit) (s : State) : Fetched :=
  match decode s.params u with
  | .ok i => .run i s
  | .error r => .done (rejected r s)

/-- One step of the block: of the unit that is running, nothing where none is ("an idle block holds its state",
60_exceptions.md R233). -/
def blockNext (s : State) : Fetched :=
  match s.sequencer with
  | .idle => .done (.next s)
  | .walk =>
    match s.bitsIn with
    | [] => .done (bitStreamEnd s)
    | b :: rest => fetchUnit (.bit b) { s with bitsIn := rest }
  | .sym v n =>
    match s.textIn with
    | [] => .done (symStreamEnd v n s)
    | ch :: rest => fetchUnit (.textSym ch) { s with textIn := rest }
  | .code v pos =>
    match s.textIn with
    | [] => .done (codeStreamEnd v pos s)
    | ch :: rest => fetchUnit (.textCode ch) { s with textIn := rest }
  | .scan i q seq => .done (scanStep i q seq s)
  | .merge q seq => .done (mergeStep q seq s)
  | .visit stack => .done (visitStep stack s)

/-- One action of the host, in the state where it is off the script. -/
def hostNext (a : HostAction) (s : State) : Fetched :=
  match a with
  | .write addr w => if hostReg addr = .cmd then fetchUnit (.cmd w) s else .done (.next (hostWrite addr w s))
  | .read addr => .done (.next (hostRead addr s))
  | .reset => .done (.next s.blockReset)
  | .setBits bits => .done (handOver s { s with bitsIn := bits })
  | .addBits bits => .done (handOver s { s with bitsIn := s.bitsIn ++ bits })
  | .setText text => .done (handOver s { s with textIn := text })
  | .addText text => .done (handOver s { s with textIn := s.textIn ++ text })
  | .drain => .done (handOver s { s with out := [] })
  | .tick => blockNext s
  | .waitIdle => .done (.next s)

/-- The next step: the host's next action; the block's own where the script is empty, says `tick`, or waits for `BUSY = 0`. -/
def State.fetchNext (s : State) : Fetched :=
  match s.host with
  | [] => blockNext s
  | a :: rest =>
    if a = .waitIdle ∧ s.busy then blockNext s
    else hostNext a { s with host := rest }

/-- Place a unit where the next step takes it (log 5). A command word is the host's next write to `CMD`, with the block idle
and no fault pending, since R110 of 40_control.md decodes it only then; a bit or a byte is the head of its source, with the
unit that takes it running (where it stands, if it runs already) and the block's turn to move. -/
def State.placeUnit (s : State) (u : FetchUnit) : State :=
  match u with
  | .cmd w => { s with host := .write 0#12 w :: s.host, sequencer := .idle, fault := false, cause := .none }
  | .bit b => { s with host := .tick :: s.host, sequencer := .walk, bitsIn := b :: s.bitsIn }
  | .textSym ch =>
    { s with host := .tick :: s.host, textIn := ch :: s.textIn
             sequencer := match s.sequencer with | .sym v n => .sym v n | _ => .sym 0 false }
  | .textCode ch =>
    { s with host := .tick :: s.host, textIn := ch :: s.textIn
             sequencer := match s.sequencer with | .code v pos => .code v pos | _ => .code 0 s.root }

end Sys2Proof.Machine
end

