-- ==== Sys2Proof/Machine/Step.lean ====
section
/-! DEFINITION. Machine/Step.lean: one step of the machine. -/

namespace Sys2Proof.Machine

/-- One step: an instruction that was fetched is run by `exec` and nothing is added around it; everything else is as the
fetch says. -/
def step (s : State) : Host.Outcome State Fault Refusal :=
  match s.fetchNext with
  | .run i s' => exec i s'
  | .done r => r

/-- `s` with the instruction of that number placed where `step` takes its next one. -/
def State.withFetchWord (s : State) (nbits w : Nat) : State := s.placeUnit (unitOfTableWord nbits w)

end Sys2Proof.Machine
end

