-- ==== Sys2Proof/Machine/Abstract.lean ====
section
/-! DEFINITION. Machine/Abstract.lean: the abstract tree of a state and the commands as functions of it (00_scope.md R12, R13;
10_state.md R31; 43_decode.md R196). No step calls anything here: claims about whole commands are stated in these terms. -/

namespace Sys2Proof.Machine

/-- The abstract tree (00_scope.md R12). -/
inductive ATree where
  | absent
  | node (sym : Option Byte) (left right : ATree)
deriving DecidableEq, Repr

/-- The symbol of a record, `none` where `has_sym` is 0 (00_scope.md R12). -/
def NodeRec.symbol (r : NodeRec) : Option Byte := if r.hasSym then some r.sym else none

/-- Whether the pointer `p` (an index, or `none` for an absent node) leads to the abstract tree `T` in a store with `nf`
records in use: `abs` of 00_scope.md R12, read as a relation. -/
def treeAt (m : Memory) (nf : Nat) : Option Nat → ATree → Bool
  | none, .absent => true
  | some _, .absent => false
  | none, .node _ _ _ => false
  | some k, .node sym l r =>
    let rec' := Memory.read m k
    decide (k < nf) && decide (rec'.symbol = sym) && treeAt m nf (rec'.child false) l && treeAt m nf (rec'.child true) r

/-- The root as a pointer. -/
def State.rootPtr (s : State) : Option Nat := if s.rootValid then some s.root else none

/-- `tree(state) = T` (00_scope.md R12). -/
def State.hasTree (s : State) (T : ATree) : Bool := treeAt s.nodes s.nextFree s.rootPtr T

/-- The number of nodes. -/
def ATree.size : ATree → Nat
  | .absent => 0
  | .node _ l r => l.size + r.size + 1

/-- `class` (00_scope.md R11) of the root of an abstract tree; `illformed` for none. -/
def ATree.cls : ATree → NodeClass
  | .node (some _) .absent .absent => .leaf
  | .node none (.node _ _ _) (.node _ _ _) => .internal
  | _ => .illformed

/-- `WF` (00_scope.md R13): absent, or every node a leaf or internal. -/
def ATree.wf : ATree → Bool
  | .absent => true
  | .node sym l r => decide ((ATree.node sym l r).cls ≠ .illformed) && l.wf && r.wf

/-- `Decodable` (00_scope.md R13). -/
def ATree.decodable (T : ATree) : Bool := T.wf && decide (T.cls = .internal)

/-- The leaves from left to right, each with its code (00_scope.md R12): every node that holds a symbol and has no
children. -/
def ATree.leaves : ATree → List (Byte × List Bool)
  | .absent => []
  | .node sym l r =>
    (match sym, l, r with | some y, .absent, .absent => [(y, [])] | _, _, _ => [])
      ++ l.leaves.map (fun e => (e.1, false :: e.2)) ++ r.leaves.map (fun e => (e.1, true :: e.2))

/-- How a `DECODE` ends (43_decode.md R196). -/
inductive DecodeEnd where
  | done (underflow : Bool)
  | faulted (cause : Cause) (rest : List Bool)
deriving DecidableEq, Repr

/-- `go(pos, bits, out)` of 43_decode.md R196, for the tree `T`; `atRoot` says whether `pos` is the root of `T`. -/
def decodeGo (T : ATree) : ATree → Bool → List Bool → List Byte → List Byte × DecodeEnd
  | _, atRoot, [], out => (out, .done (!atRoot))
  | .absent, _, _ :: rest, out => (out, .faulted .decEmptyTree rest)
  | .node sym l r, _, b :: rest, out =>
    match (ATree.node sym l r).cls with
    | .leaf => (out, .faulted .decLeafRoot rest)
    | .illformed => (out, .faulted .treeIllformed rest)
    | .internal =>
      let c := if b then r else l
      match c with
      | .node (some y) .absent .absent => decodeGo T T true rest (out ++ [y])
      | c => decodeGo T c false rest out

/-- `run(T, bits)` (43_decode.md R196). -/
def decodeRun (T : ATree) (bits : List Bool) : List Byte × DecodeEnd := decodeGo T T true bits []

/-- What `SAVE` writes for the subtree at `path`, and whether it got through without meeting an ill-formed node
(42_save_load.md R145, R150). -/
def saveRun : ATree → List Bool → List Byte × Bool
  | .absent, _ => ([], true)
  | .node sym l r, path =>
    match (ATree.node sym l r).cls with
    | .leaf => (recordBytes (sym.getD 0#8) path, true)
    | .illformed => ([], false)
    | .internal =>
      let a := saveRun l (path ++ [false])
      if a.2 then
        let b := saveRun r (path ++ [true])
        (a.1 ++ b.1, b.2)
      else a

/-- Insert one record: "insert-if-absent along a path, then mark leaf at path end" (42_save_load.md R155). -/
def ATree.insert : ATree → List Bool → Byte → ATree
  | .absent, [], y => .node (some y) .absent .absent
  | .node _ l r, [], y => .node (some y) l r
  | .absent, false :: p, y => .node none (ATree.insert .absent p y) .absent
  | .absent, true :: p, y => .node none .absent (ATree.insert .absent p y)
  | .node sym l r, false :: p, y => .node sym (ATree.insert l p y) r
  | .node sym l r, true :: p, y => .node sym l (ATree.insert r p y)

/-- The tree a list of records describes, applied "one at a time ... in stream order" (42_save_load.md R157). -/
def treeOfRecords (rs : List (Byte × List Bool)) : ATree :=
  rs.foldl (fun T e => T.insert e.2 e.1) .absent

/-- A list of records as saved-code text (30_encoding.md R86, R92). -/
def textOfRecords (rs : List (Byte × List Bool)) : List Byte := rs.flatMap fun e => recordBytes e.1 e.2

/-- The symbols with a positive frequency, in ascending order (41_build.md R127). -/
def State.positiveSymbols (s : State) : List Nat :=
  (List.range Config.nsym).filter fun i => freqPositive (s.freqAt i)

end Sys2Proof.Machine
end

