-- ==== Sys2Proof/Safety.lean ====
section
/-! DEFINITION. Safety.lean: runs, and the invariants of the machine that claims are stated with. -/

namespace Sys2Proof.Machine

/-- `n` steps, stopping where one does not end in a next state. -/
def run : Nat → State → Result
  | 0, s => .next s
  | n + 1, s =>
    match step s with
    | .next t => run n t
    | .fault f => .fault f
    | .refused r => .refused r

/-- The node store has its canonical form. -/
def State.StoreCanonical (s : State) : Prop := Memory.wf s.nodes = true

/-- "`CAUSE = 0` exactly when `FAULT = 0`" (10_state.md R28), and a faulted block runs nothing (60_exceptions.md R224). -/
def State.FaultCoherent (s : State) : Prop :=
  (s.cause = .none ↔ s.fault = false) ∧ (s.fault = true → s.busy = false)

/-- Every valid child index below `NEXT_FREE` is itself below `NEXT_FREE` (10_state.md R30 (b)). -/
def State.LinksInRange (s : State) : Prop :=
  ∀ k < s.nextFree, ∀ b c, (Memory.read s.nodes k).child b = some c → c < s.nextFree

/-- What holds of the sequencer's transient state (10_state.md R32), with R30 (d) where no tree is being built: `v` at
most 256, its indices in range, and the sequence counter the number of insertions, at most 511 (41_build.md R131 (e)). -/
def State.SequencerInRange (s : State) : Prop :=
  match s.sequencer with
  | .idle => s.rootValid = false → s.nextFree = 0
  | .walk => (s.rootValid = false → s.nextFree = 0) ∧ s.cursorValid = s.rootValid
  | .sym v _ => (s.rootValid = false → s.nextFree = 0) ∧ v ≤ 256
  | .code v pos => s.rootValid = true ∧ pos < s.nextFree ∧ v ≤ 255
  | .scan i q seq =>
    s.rootValid = false ∧ i < 256 ∧ seq.toNat = q.length ∧ seq.toNat ≤ i ∧ s.nextFree = seq.toNat
      ∧ ∀ e ∈ q, e.k < s.nextFree
  | .merge q seq =>
    s.rootValid = false ∧ seq.toNat + q.length ≤ 512 ∧ (q = [] → seq = 0) ∧ s.nextFree = seq.toNat
      ∧ ∀ e ∈ q, e.k < s.nextFree
  | .visit stack => (s.rootValid = false → s.nextFree = 0) ∧ ∀ e ∈ stack, e.1 < s.nextFree

/-- Every index the block holds is in range: 10_state.md R30 (a), (b), (d), (e), with `NEXT_FREE` at most `NODE_CAP`
(R23) and the transient state of a running command. -/
structure State.InRange (s : State) : Prop where
  nextFree_le : s.nextFree ≤ s.params.nodeCap
  root_lt : s.rootValid = true → s.root < s.nextFree
  links : s.LinksInRange
  cursor_lt : s.cursorValid = true → s.rootValid = true ∧ s.cursor < s.nextFree
  sequencer_ok : s.SequencerInRange

/-- "All `seq` values in `Q` are distinct" (41_build.md R128), each an earlier value of the counter: it has not wrapped. -/
def SeqsDistinct (q : List QEntry) (seq : Seq) : Prop := (∀ e ∈ q, e.seq < seq) ∧ (q.map (·.seq)).Nodup

/-- The builder's sequence numbers fit `SEQ_W` bits. -/
def State.SeqsFit (s : State) : Prop :=
  match s.sequencer with
  | .scan _ q seq | .merge q seq => SeqsDistinct q seq
  | .idle | .walk | .sym _ _ | .code _ _ | .visit _ => True

/-- The widths of 00_scope.md R6 that are no types: `IDX_W` is the width of every index the block holds, valid or not, the node
store has records at `0 .. NODE_CAP-1` alone (10_state.md R20), and `SEQ_W` bits number every insertion of a `BUILD`. The indices
of a running unit and `NEXT_FREE` (`IDX_W + 1` bits, R23) fit because `InRange` keeps them at most `NODE_CAP`. -/
structure State.WidthsFit (s : State) : Prop where
  root_fits : s.root < 2 ^ s.params.idxW
  cursor_fits : s.cursor < 2 ^ s.params.idxW
  store_in_capacity : ∀ e ∈ s.nodes, e.1 < s.params.nodeCap
  children_fit : ∀ e ∈ s.nodes, e.2.lIdx < 2 ^ s.params.idxW ∧ e.2.rIdx < 2 ^ s.params.idxW
  seqs_fit : s.SeqsFit

/-- The node that a path of edges leads to from index `k` (00_scope.md R12). -/
def Memory.follow (m : Memory) : Nat → List Bool → Option Nat
  | k, [] => some k
  | k, b :: p =>
    match (Memory.read m k).child b with
    | some c => Memory.follow m c p
    | none => none

/-- The roots of the trees in the store: `ROOT`, or while `BUILD` runs the nodes of `Q`. -/
def State.roots (s : State) : List Nat :=
  if s.rootValid then [s.root]
  else
    match s.sequencer with
    | .scan _ q _ | .merge q _ => q.map (·.k)
    | .idle | .walk | .sym _ _ | .code _ _ | .visit _ => []

/-- 10_state.md R30: indices in range and (c) "every such record is reachable from `ROOT` by exactly one path", so there is
"no sharing and no cycles"; while `BUILD` runs, from exactly one node of `Q`. -/
structure State.TreeShaped (s : State) : Prop extends s.InRange where
  roots_nodup : s.roots.Nodup
  reached_once : ∀ j < s.nextFree, ∃! rp : Nat × List Bool, rp.1 ∈ s.roots ∧ Memory.follow s.nodes rp.1 rp.2 = some j

/-- It is the block's turn to move, and the script will be `h` afterwards: the script is empty, says `tick`, or waits for a
command that is running (log 3). -/
def State.BlockTurn (s : State) (h : List HostAction) : Prop :=
  (s.host = [] ∧ h = []) ∨ s.host = .tick :: h ∨ (∃ rest, s.host = .waitIdle :: rest ∧ s.busy = true ∧ h = s.host)

/-- Nothing happens but the block's own steps, and the block may run a command: no host action is pending, no command is
running, no fault is pending (the state in which 40_control.md R110 runs a command word). -/
def State.Ready (s : State) : Prop := s.host = [] ∧ s.busy = false ∧ s.fault = false

end Sys2Proof.Machine
end

