-- ==== Sys2Proof/Certificates/Slice0/Obligations.lean ====
section
/-! DEFINITION. Certificates/Slice0/Obligations.lean: the statements for the provers. A statement about one step gives the whole
next state, so that it is the instruction's frame as well; statements about whole commands are in terms of the abstract tree
(Machine/Abstract.lean). Rules R<n> are those of spec/. -/

open Sys2Proof Sys2Proof.Machine

/-! ### Reset, encodings -/

/-- R37: what reset leaves, for the entries to which R37 gives a value. -/
def Obligations.ResetHoldsTheSpecValues : Prop :=
  State.reset.rootValid = false ∧ State.reset.nextFree = 0 ∧ State.reset.cursorValid = false
    ∧ (∀ i < 256, State.reset.freqAt i = 0#32) ∧ State.reset.statusWord = 0#32 ∧ State.reset.causeWord = 0#32
    ∧ State.reset.sequencer = .idle

/-- R82, R84, R87: units written out from the tables. -/
def Obligations.WrittenOutUnitsDecode : Prop :=
  decode Params.standard (.cmd 0x00000001#32) = .ok .clear
    ∧ decode Params.standard (.cmd 0x00000005#32) = .ok .decode
    ∧ decode Params.standard (.cmd 0x00000006#32) = .error .reservedCommand
    ∧ decode Params.standard (.bit true) = .ok .right
    ∧ decode Params.standard (.textSym 0b00110111#8) = .ok .symDigit7
    ∧ decode Params.standard (.textSym 0b00001010#8) = .ok .symEol
    ∧ decode Params.standard (.textCode 0b00110001#8) = .ok .code1
    ∧ decode Params.standard (.textCode 0b00110010#8) = .error .badCodeByte

/-- Decode and encode agree on every unit of every format: a unit decodes to an instruction exactly when the block has the
instruction and the unit is its encoding. -/
def Obligations.DecodeInvertsEncode : Prop :=
  ∀ (p : Params) (u : FetchUnit) (i : Instr), decode p u = .ok i ↔ (i.wellFormed p = true ∧ encode i = u)

/-- R93: the bit layout of a record loses nothing, for every index width. -/
def Obligations.RecordLayoutRoundTrips : Prop :=
  ∀ (w : Nat) (r : NodeRec), r.lIdx < 2 ^ w → r.rIdx < 2 ^ w → NodeRec.unpack w (NodeRec.pack w r) = r

/-! ### A step runs the decoded instruction -/

/-- A step is `exec` of the decoded unit: of the word of a host write to `CMD`, of the head of the bit source while `DECODE` runs,
of the head of the text source in the format of the loader's phase while `LOAD` runs. The fetch takes the unit and nothing
else. -/
def Obligations.StepRunsTheDecodedUnit : Prop :=
  (∀ (s : State) (addr : Offset) (w : Word) (rest : List HostAction) (i : Instr),
      s.host = .write addr w :: rest → addr.toNat < 4 → decode s.params (.cmd w) = .ok i →
      step s = exec i { s with host := rest })
  ∧ (∀ (s : State) (h : List HostAction) (b : Bool) (bits : List Bool) (i : Instr),
      s.BlockTurn h → s.sequencer = .walk → s.bitsIn = b :: bits → decode s.params (.bit b) = .ok i →
      step s = exec i { s with host := h, bitsIn := bits })
  ∧ (∀ (s : State) (h : List HostAction) (v : Nat) (n : Bool) (ch : Byte) (text : List Byte) (i : Instr),
      s.BlockTurn h → s.sequencer = .sym v n → s.textIn = ch :: text → decode s.params (.textSym ch) = .ok i →
      step s = exec i { s with host := h, textIn := text })
  ∧ (∀ (s : State) (h : List HostAction) (v pos : Nat) (ch : Byte) (text : List Byte) (i : Instr),
      s.BlockTurn h → s.sequencer = .code v pos → s.textIn = ch :: text → decode s.params (.textCode ch) = .ok i →
      step s = exec i { s with host := h, textIn := text })

/-- A unit placed where the next step takes it is run by the next step, in the state that held before, with the unit that takes
it running. -/
def Obligations.PlacedUnitRunsNext : Prop :=
  ∀ (s : State) (i : Instr), i.wellFormed s.params = true →
    (∀ w, encode i = .cmd w →
      step (s.placeUnit (encode i)) = exec i { s with sequencer := .idle, fault := false, cause := .none })
    ∧ (∀ b, encode i = .bit b → step (s.placeUnit (encode i)) = exec i { s with sequencer := .walk })
    ∧ (∀ ch, encode i = .textSym ch →
      ∃ v n, step (s.placeUnit (encode i)) = exec i { s with sequencer := .sym v n })
    ∧ (∀ ch, encode i = .textCode ch →
      ∃ v pos, step (s.placeUnit (encode i)) = exec i { s with sequencer := .code v pos })

/-! ### Commands: dispatch, CLEAR, the beginnings of the four others -/

/-- R114: a host write to `CMD` or `FREQ` while a command runs changes nothing; nor does one to `STATUS`, `CAUSE` or a reserved
offset (R27, R28, R52). That one at `0x800` or above does not is the model's reading (log 11). -/
def Obligations.BusyBlockIgnoresHostWrites : Prop :=
  ∀ (s : State) (addr : Offset) (w : Word) (rest : List HostAction),
    s.busy = true → s.host = .write addr w :: rest → step s = .next { s with host := rest }

/-- R110, R252: a faulted block ignores every command word but `CLEAR`. -/
def Obligations.FaultedBlockAcceptsOnlyClear : Prop :=
  ∀ (s : State) (addr : Offset) (w : Word) (rest : List HostAction),
    s.busy = false → s.fault = true → s.host = .write addr w :: rest → addr.toNat < 4 →
    step s = if w = 0x00000001#32 then
        .next { s with host := rest, rootValid := false, nextFree := 0, cursorValid := false, fault := false,
                       cause := .none, underflow := false }
      else .next { s with host := rest }

/-- R110, R114: in terms of `exec`, a command that is not accepted changes nothing; `CLEAR` is accepted while `FAULT = 1`. -/
def Obligations.UnacceptedCommandsChangeNothing : Prop :=
  ∀ s : State,
    ((s.busy = true ∨ s.fault = true) →
      exec .build s = .next s ∧ exec .save s = .next s ∧ exec .load s = .next s ∧ exec .decode s = .next s)
    ∧ (s.busy = true → exec .clear s = .next s)

/-- R113: a reserved command word, `BUILD` without a builder among them, raises `ILLEGAL_CMD` and changes nothing else. -/
def Obligations.ReservedWordRaisesIllegal : Prop :=
  ∀ (s : State) (addr : Offset) (w : Word) (rest : List HostAction),
    s.busy = false → s.fault = false → s.host = .write addr w :: rest → addr.toNat < 4 →
    (w.toNat = 0 ∨ 6 ≤ w.toNat ∨ (w.toNat = 2 ∧ s.params.hasBuilder = false)) →
    step s = .next { s with host := rest, fault := true, cause := .illegalCmd }

/-- R112: `CLEAR`, from a faulted block or not; afterwards the block's own state is that of reset but for `FREQ` and what R37
leaves unspecified. -/
def Obligations.ClearDiscardsTreeAndFault : Prop :=
  ∀ s : State, s.busy = false →
    ∃ t, exec .clear s = .next t
      ∧ t = { s with rootValid := false, nextFree := 0, cursorValid := false, fault := false, cause := .none,
                     underflow := false }
      ∧ t.statusWord = State.reset.statusWord ∧ t.causeWord = State.reset.causeWord
      ∧ t.sequencer = State.reset.sequencer ∧ encode .clear = .cmd 0x00000001#32

/-- R126, R113: `BUILD` begins by discarding the tree and the cursor, at the first symbol with an empty collection; nothing else
of the block changes. Without a builder it is a reserved word. `treeBefore` is the model's own field (log 17). -/
def Obligations.BuildBeginsByDiscarding : Prop :=
  ∀ s : State, s.busy = false → s.fault = false →
    (s.params.hasBuilder = true →
      exec .build s =
        .next { s with rootValid := false, nextFree := 0, cursorValid := false, treeBefore := s.rootValid,
                       sequencer := .scan 0 [] 0 })
    ∧ (s.params.hasBuilder = false → exec .build s = .next { s with fault := true, cause := .illegalCmd })

/-- R145, R148: `SAVE` begins with the root at the empty path, or with nothing where there is no tree. -/
def Obligations.SaveBeginsAtTheRoot : Prop :=
  ∀ s : State, s.busy = false → s.fault = false →
    exec .save s = .next { s with sequencer := .visit (if s.rootValid then [(s.root, [])] else []) }

/-- R156: `LOAD` begins by discarding the tree and the cursor, in phase `SYM` at the start of a line.
`treeBefore` is the model's own field (log 17). -/
def Obligations.LoadBeginsByDiscarding : Prop :=
  ∀ s : State, s.busy = false → s.fault = false →
    exec .load s =
      .next { s with rootValid := false, nextFree := 0, cursorValid := false, treeBefore := s.rootValid,
                     sequencer := .sym 0 false }

/-- R187: `DECODE` begins at the root. -/
def Obligations.DecodeBeginsAtTheRoot : Prop :=
  ∀ s : State, s.busy = false → s.fault = false →
    exec .decode s = .next { s with cursorValid := s.rootValid, cursor := s.root, sequencer := .walk }

/-! ### The walker -/

/-- R189, R190, R191: a bit at an internal node moves the cursor to the child on its side; at a leaf the symbol is written and
the cursor returns to the root. -/
def Obligations.BitsMoveTheWalker : Prop :=
  ∀ s : State, s.sequencer = .walk → s.cursorValid = true → s.cursor < s.nextFree →
    (Memory.read s.nodes s.cursor).cls = .internal →
    (∀ l, (Memory.read s.nodes s.cursor).lIdx = l → l < s.nextFree →
      exec .left s =
        if (Memory.read s.nodes l).cls = .leaf then
          .next { s with out := s.out ++ [(Memory.read s.nodes l).sym], cursor := s.root }
        else .next { s with cursor := l })
    ∧ (∀ r, (Memory.read s.nodes s.cursor).rIdx = r → r < s.nextFree →
      exec .right s =
        if (Memory.read s.nodes r).cls = .leaf then
          .next { s with out := s.out ++ [(Memory.read s.nodes r).sym], cursor := s.root }
        else .next { s with cursor := r })

/-- R192: the three faults of a step. Nothing but `FAULT`, `CAUSE` and `BUSY` changes: the cursor, `UNDERFLOW`, the sink, the rest
of the bits and the tree stay. -/
def Obligations.WalkerFaultsOnBadNodes : Prop :=
  ∀ (s : State) (i : Instr), s.sequencer = .walk → i = .left ∨ i = .right →
    (s.cursorValid = false →
      exec i s = .next { s with fault := true, cause := .decEmptyTree, sequencer := .idle })
    ∧ (s.cursorValid = true → s.cursor < s.nextFree → (Memory.read s.nodes s.cursor).cls = .leaf →
      exec i s = .next { s with fault := true, cause := .decLeafRoot, sequencer := .idle })
    ∧ (s.cursorValid = true → s.cursor < s.nextFree → (Memory.read s.nodes s.cursor).cls = .illformed →
      exec i s = .next { s with fault := true, cause := .treeIllformed, sequencer := .idle })

/-- R193: at the end of the bit stream a partial code is discarded and reported, the cursor returns to the root, the command
completes without fault. -/
def Obligations.BitStreamEndCompletesDecode : Prop :=
  ∀ (s : State) (h : List HostAction), s.BlockTurn h → s.sequencer = .walk → s.bitsIn = [] →
    step s = .next { s with host := h, underflow := decide (s.cursorValid = true ∧ s.cursor ≠ s.root),
                            cursorValid := s.rootValid, cursor := s.root, sequencer := .idle }

/-- R185, R196: `DECODE` as a whole is the function `run(T, bits)` of the abstract tree. -/
def Obligations.DecodeIsTheRunFunction : Prop :=
  ∀ (s : State) (T : ATree), s.Ready → s.hasTree T = true →
    ∃ t u, exec .decode s = .next t ∧ run (s.bitsIn.length + 1) t = .next u ∧
      match decodeRun T s.bitsIn with
      | (o, .done uf) =>
        u = { s with out := s.out ++ o, bitsIn := [], underflow := uf, cursorValid := s.rootValid, cursor := s.root }
      | (o, .faulted c rest) =>
        u = { s with out := s.out ++ o, bitsIn := rest, fault := true, cause := c, cursorValid := s.rootValid,
                     cursor := u.cursor }

/-- R194: on a decodable tree `DECODE` completes without fault for every bit sequence and consumes all of it. -/
def Obligations.DecodableTreeNeverFaults : Prop :=
  ∀ (s : State) (T : ATree), s.Ready → s.hasTree T = true → T.decodable = true →
    ∃ t u, exec .decode s = .next t ∧ run (s.bitsIn.length + 1) t = .next u ∧
      u.fault = false ∧ u.busy = false ∧ u.bitsIn = [] ∧ u.cursor = s.root

/-- R196: on a decodable tree the concatenation of the codes of any leaves decodes to exactly their symbols. -/
def Obligations.ConcatenatedCodesDecode : Prop :=
  ∀ (s : State) (T : ATree) (es : List (Byte × List Bool)), s.Ready → s.hasTree T = true → T.decodable = true →
    (∀ e ∈ es, e ∈ T.leaves) → s.bitsIn = es.flatMap (fun e => e.2) →
    ∃ t, exec .decode s = .next t ∧ run (s.bitsIn.length + 1) t =
      .next { s with out := s.out ++ es.map (fun e => e.1), bitsIn := [], underflow := false,
                     cursorValid := s.rootValid, cursor := s.root }

/-- R195: the degenerate trees. With no bits `DECODE` completes and writes nothing; with a bit it consumes that one, writes
nothing and faults. -/
def Obligations.DegenerateTreesRejectTheFirstBit : Prop :=
  ∀ s : State, s.Ready →
    (s.rootValid = false ∨ (s.rootValid = true ∧ s.root < s.nextFree ∧ (Memory.read s.nodes s.root).cls = .leaf)) →
    (s.bitsIn = [] → ∃ t, exec .decode s = .next t ∧
      step t = .next { s with underflow := false, cursorValid := s.rootValid, cursor := s.root })
    ∧ (∀ b rest, s.bitsIn = b :: rest → ∃ t, exec .decode s = .next t ∧
      step t = .next { s with bitsIn := rest, fault := true, cursorValid := s.rootValid, cursor := s.root,
                              cause := if s.rootValid then .decLeafRoot else .decEmptyTree })

/-! ### The serializer -/

/-- R92, R147: the symbol line of a record. Digits only, no leading zero unless the symbol is 0, and the loader's accumulation
reads the symbol back. -/
def Obligations.SymbolLineIsMinimalDecimal : Prop :=
  ∀ sym : Byte,
    (decimalDigits sym).foldl (fun v ch => accumulate v (ch.toNat - 0x30)) 0 = sym.toNat
    ∧ (∀ ch ∈ decimalDigits sym, 0x30 ≤ ch.toNat ∧ ch.toNat ≤ 0x39)
    ∧ ((decimalDigits sym).head? = some 0x30#8 → sym = 0#8)
    ∧ (decimalDigits sym).length = if 100 ≤ sym.toNat then 3 else if 10 ≤ sym.toNat then 2 else 1

/-- R145, R148, R149, R150: `SAVE` as a whole writes the pre-order text of the abstract tree, up to the first ill-formed node if
there is one, and changes nothing else but the fault it then raises. On a well-formed tree that text is one record per leaf, from
left to right, and nothing faults. -/
def Obligations.SaveWritesTheTree : Prop :=
  ∀ (s : State) (T : ATree), s.Ready → s.hasTree T = true →
    ∃ t, exec .save s = .next t ∧ run (T.size + 1) t =
      .next { s with out := s.out ++ (saveRun T []).1, fault := !(saveRun T []).2,
                     cause := if (saveRun T []).2 then s.cause else .treeIllformed }
      ∧ (T.wf = true → saveRun T [] = (textOfRecords T.leaves, true))

/-! ### The loader -/

/-- R158: each of the ten digits, `v <- min(v*10 + d, 256)`, and the line is no longer empty. -/
def Obligations.DigitsAccumulate : Prop :=
  ∀ (s : State) (v : Nat) (n : Bool), s.sequencer = .sym v n →
    exec .symDigit0 s = .next { s with sequencer := .sym (min (v * 10 + 0) 256) true }
    ∧ exec .symDigit1 s = .next { s with sequencer := .sym (min (v * 10 + 1) 256) true }
    ∧ exec .symDigit2 s = .next { s with sequencer := .sym (min (v * 10 + 2) 256) true }
    ∧ exec .symDigit3 s = .next { s with sequencer := .sym (min (v * 10 + 3) 256) true }
    ∧ exec .symDigit4 s = .next { s with sequencer := .sym (min (v * 10 + 4) 256) true }
    ∧ exec .symDigit5 s = .next { s with sequencer := .sym (min (v * 10 + 5) 256) true }
    ∧ exec .symDigit6 s = .next { s with sequencer := .sym (min (v * 10 + 6) 256) true }
    ∧ exec .symDigit7 s = .next { s with sequencer := .sym (min (v * 10 + 7) 256) true }
    ∧ exec .symDigit8 s = .next { s with sequencer := .sym (min (v * 10 + 8) 256) true }
    ∧ exec .symDigit9 s = .next { s with sequencer := .sym (min (v * 10 + 9) 256) true }

/-- R159, R161: a symbol line that ends well enters phase `CODE` at the root, which the first record creates. -/
def Obligations.SymbolLineEndEntersCode : Prop :=
  ∀ (s : State) (v : Nat), s.sequencer = .sym v true → v ≤ 255 → s.textIn ≠ [] →
    (s.rootValid = true → exec .symEol s = .next { s with sequencer := .code v s.root })
    ∧ (s.rootValid = false → s.nextFree < s.params.nodeCap →
      exec .symEol s =
        .next { s with nodes := Memory.write s.nodes s.nextFree NodeRec.empty, nextFree := s.nextFree + 1,
                       root := s.nextFree, rootValid := true, sequencer := .code v s.nextFree })

/-- R159, R161, R223 (b), R224: the faults at the end of a symbol line, in their order; each leaves no tree. -/
def Obligations.SymbolLineEndFaultsInOrder : Prop :=
  ∀ (s : State) (v : Nat) (n : Bool), s.sequencer = .sym v n →
    (n = false ∨ 255 < v ∨ s.textIn = [] ∨ (s.rootValid = false ∧ s.params.nodeCap ≤ s.nextFree)) →
    exec .symEol s =
      .next { s with rootValid := false, nextFree := 0, cursorValid := false, fault := true, sequencer := .idle,
                     cause := if n = false then .fmtBadSymbol else if 255 < v then .fmtSymbolRange
                       else if s.textIn = [] then .fmtTruncated else .capacity }

/-- R160, R165, R224: a byte the loader's phase does not know is consumed and faults at once; no tree is left. -/
def Obligations.BadBytesFaultTheLoader : Prop :=
  (∀ (s : State) (h : List HostAction) (v : Nat) (n : Bool) (ch : Byte) (rest : List Byte),
    s.BlockTurn h → s.sequencer = .sym v n → s.textIn = ch :: rest →
    ¬ (0x30 ≤ ch.toNat ∧ ch.toNat ≤ 0x39) → ch ≠ 0x0A#8 →
    step s = .next { s with host := h, textIn := rest, rootValid := false, nextFree := 0, cursorValid := false,
                            fault := true, cause := .fmtBadSymbol, sequencer := .idle })
  ∧ (∀ (s : State) (h : List HostAction) (v pos : Nat) (ch : Byte) (rest : List Byte),
    s.BlockTurn h → s.sequencer = .code v pos → s.textIn = ch :: rest →
    ch ≠ 0x30#8 → ch ≠ 0x31#8 → ch ≠ 0x0A#8 →
    step s = .next { s with host := h, textIn := rest, rootValid := false, nextFree := 0, cursorValid := false,
                            fault := true, cause := .fmtBadCodeChar, sequencer := .idle })

/-- R162, R163, R168: a code character descends, making the child where there is none, or raises `CAPACITY` in a full store. -/
def Obligations.CodeEdgesDescend : Prop :=
  ∀ (s : State) (v pos : Nat), s.sequencer = .code v pos → pos < s.nextFree →
    let rec' := Memory.read s.nodes pos
    let made := Memory.write s.nodes s.nextFree NodeRec.empty
    let full : Result := .next { s with rootValid := false, nextFree := 0, cursorValid := false, fault := true,
                                        cause := .capacity, sequencer := .idle }
    (exec .code0 s =
      if rec'.lValid then .next { s with sequencer := .code v rec'.lIdx }
      else if s.nextFree < s.params.nodeCap then
        .next { s with nodes := Memory.write made pos { rec' with lValid := true, lIdx := s.nextFree },
                       nextFree := s.nextFree + 1, sequencer := .code v s.nextFree }
      else full)
    ∧ (exec .code1 s =
      if rec'.rValid then .next { s with sequencer := .code v rec'.rIdx }
      else if s.nextFree < s.params.nodeCap then
        .next { s with nodes := Memory.write made pos { rec' with rValid := true, rIdx := s.nextFree },
                       nextFree := s.nextFree + 1, sequencer := .code v s.nextFree }
      else full)

/-- R164: the end of a code line gives the record at `pos` its symbol and returns to phase `SYM`. -/
def Obligations.CodeLineEndMarksTheLeaf : Prop :=
  ∀ (s : State) (v pos : Nat), s.sequencer = .code v pos → pos < s.nextFree →
    exec .codeEol s =
      .next { s with sequencer := .sym 0 false
                     nodes := Memory.write s.nodes pos
                       { Memory.read s.nodes pos with hasSym := true, sym := BitVec.ofNat 8 v } }

/-- R162 to R164, read by record: which records the loader's code bytes change, and to what. -/
def Obligations.LoaderChangesOnlyItsRecords : Prop :=
  ∀ (s t : State) (i : Instr) (v pos : Nat), s.StoreCanonical → s.sequencer = .code v pos → pos < s.nextFree →
    exec i s = .next t →
    (i = .codeEol →
      Memory.read t.nodes pos = (Memory.read s.nodes pos).setSym (BitVec.ofNat 8 v)
      ∧ ∀ k, k ≠ pos → Memory.read t.nodes k = Memory.read s.nodes k)
    ∧ (∀ b, (i = .code0 ∧ b = false) ∨ (i = .code1 ∧ b = true) →
      match (Memory.read s.nodes pos).child b with
      | some _ => ∀ k, Memory.read t.nodes k = Memory.read s.nodes k
      | none =>
        t.fault = false →
        Memory.read t.nodes pos = (Memory.read s.nodes pos).setChild b s.nextFree
        ∧ Memory.read t.nodes s.nextFree = NodeRec.empty
        ∧ ∀ k, k ≠ pos → k ≠ s.nextFree → Memory.read t.nodes k = Memory.read s.nodes k)

/-- R166: the end of the text, in each phase. -/
def Obligations.TextEndInEachPhase : Prop :=
  ∀ (s : State) (h : List HostAction), s.BlockTurn h → s.textIn = [] →
    (∀ v, s.sequencer = .sym v false → step s = .next { s with host := h, sequencer := .idle })
    ∧ (∀ v, s.sequencer = .sym v true →
      step s = .next { s with host := h, rootValid := false, nextFree := 0, cursorValid := false, fault := true,
                              cause := if 255 < v then .fmtSymbolRange else .fmtTruncated, sequencer := .idle })
    ∧ (∀ v pos, s.sequencer = .code v pos → pos < s.nextFree →
      step s = .next { s with host := h, sequencer := .idle
                              nodes := Memory.write s.nodes pos
                                { Memory.read s.nodes pos with hasSym := true, sym := BitVec.ofNat 8 v } })

/-- R167: whatever the fault, a `LOAD` that faults leaves no tree and has ended. -/
def Obligations.LoadFaultLeavesNoTree : Prop :=
  ∀ (s t : State) (h : List HostAction), s.BlockTurn h → s.fault = false →
    ((∃ v n, s.sequencer = .sym v n) ∨ (∃ v pos, s.sequencer = .code v pos)) →
    step s = .next t → t.fault = true →
    t.rootValid = false ∧ t.nextFree = 0 ∧ t.cursorValid = false ∧ t.busy = false
      ∧ (s.textIn.length = t.textIn.length + 1 ∨ (s.textIn = [] ∧ t.textIn = []))

/-- R157, R162 to R164, R169: `LOAD` as a whole applies every record literally, in stream order, whatever the set of
records. `treeBefore` is the model's own field (log 17). -/
def Obligations.LoadAppliesTheRecords : Prop :=
  ∀ (s : State) (rs : List (Byte × List Bool)), s.Ready → s.StoreCanonical → s.textIn = textOfRecords rs →
    (treeOfRecords rs).size ≤ s.params.nodeCap →
    ∃ t u, exec .load s = .next t ∧ run (s.textIn.length + 1) t = .next u
      ∧ u.hasTree (treeOfRecords rs) = true ∧ u.nextFree = (treeOfRecords rs).size
      ∧ u = { s with nodes := u.nodes, rootValid := u.rootValid, root := u.root, nextFree := u.nextFree,
                     cursorValid := false, treeBefore := s.rootValid, textIn := [] }

/-- R170: the round trip. For every well-formed tree, loading the bytes `SAVE` wrote completes without fault and gives the same
abstract tree, with every weight 0. -/
def Obligations.SaveThenLoadGivesTheSameTree : Prop :=
  ∀ (s : State) (T : ATree), s.Ready → s.StoreCanonical → s.hasTree T = true → T.wf = true →
    T.size ≤ s.params.nodeCap →
    ∃ t u v w text, exec .save s = .next t ∧ run (T.size + 1) t = .next u ∧ u.out = s.out ++ text
      ∧ exec .load { u with textIn := text } = .next v ∧ run (text.length + 1) v = .next w
      ∧ w.hasTree T = true ∧ w.fault = false ∧ w.busy = false ∧ w.textIn = []
      ∧ ∀ k < w.nextFree, (Memory.read w.nodes k).weight = 0#40

/-! ### The builder -/

/-- R128: `RemoveMin` takes the least entry, earliest inserted first among equal weights, and leaves the others. -/
def Obligations.RemoveMinTakesTheLeast : Prop :=
  ∀ (q rest : List QEntry) (e : QEntry), (q.map (fun x => x.seq)).Nodup → removeMin q = some (e, rest) →
    q.Perm (e :: rest) ∧ ∀ x ∈ rest, e.weight < x.weight ∨ (e.weight = x.weight ∧ e.seq < x.seq)

/-- R127: the scan of one symbol. A positive frequency makes a leaf with that weight and an entry with the next sequence
number; any other makes nothing. -/
def Obligations.ScanMakesALeafForPositive : Prop :=
  ∀ (s : State) (h : List HostAction) (i : Nat) (q : List QEntry) (seq : Seq),
    s.BlockTurn h → s.sequencer = .scan i q seq → i < 256 → s.nextFree < s.params.nodeCap →
    (0 < (s.freqAt i).toInt →
      ∃ w : Weight, w.toNat = (s.freqAt i).toNat ∧
        step s = .next { s with
          host := h, nextFree := s.nextFree + 1,
          nodes := Memory.write s.nodes s.nextFree
            { hasSym := true, sym := BitVec.ofNat 8 i, lValid := false, lIdx := 0, rValid := false, rIdx := 0, weight := w },
          sequencer := if i = 255 then .merge ({ weight := w, seq := seq, k := s.nextFree } :: q) (seq + 1)
            else .scan (i + 1) ({ weight := w, seq := seq, k := s.nextFree } :: q) (seq + 1) })
    ∧ ((s.freqAt i).toInt ≤ 0 →
      step s = .next { s with host := h, sequencer := if i = 255 then .merge q seq else .scan (i + 1) q seq })

/-- R129: one merge. The first entry removed is the left child, the second the right. -/
def Obligations.MergeJoinsTheTwoLeast : Prop :=
  ∀ (s : State) (h : List HostAction) (q q1 q2 : List QEntry) (a b : QEntry) (seq : Seq),
    s.BlockTurn h → s.sequencer = .merge q seq → s.nextFree < s.params.nodeCap →
    removeMin q = some (a, q1) → removeMin q1 = some (b, q2) →
    step s = .next { s with
      host := h, nextFree := s.nextFree + 1,
      nodes := Memory.write s.nodes s.nextFree
        { hasSym := false, sym := 0#8, lValid := true, lIdx := a.k, rValid := true, rIdx := b.k,
          weight := a.weight + b.weight },
      sequencer := .merge ({ weight := a.weight + b.weight, seq := seq, k := s.nextFree } :: q2) (seq + 1) }

/-- R130: the end of `BUILD`. One entry left is the root; none left is the empty tree. -/
def Obligations.LastEntryBecomesTheRoot : Prop :=
  ∀ (s : State) (h : List HostAction) (seq : Seq), s.BlockTurn h →
    (∀ e, s.sequencer = .merge [e] seq →
      step s = .next { s with host := h, root := e.k, rootValid := true, sequencer := .idle })
    ∧ (s.sequencer = .merge [] seq → step s = .next { s with host := h, rootValid := false, sequencer := .idle })

/-- R125, R133, R134 (a), (b), (c): `BUILD` as a whole. It never faults; its tree is well formed, has one leaf for each symbol of
positive frequency and no other, `2L - 1` nodes, and is decodable exactly for `L >= 2`. `treeBefore` is the model's own field
(log 17). -/
def Obligations.BuildMakesOneLeafPerPositive : Prop :=
  ∀ s : State, s.Ready → s.params.legal = true → s.params.hasBuilder = true →
    ∃ t u T, exec .build s = .next t ∧ run 512 t = .next u
      ∧ u = { s with nodes := u.nodes, rootValid := decide (s.positiveSymbols ≠ []), root := u.root,
                     nextFree := 2 * s.positiveSymbols.length - 1, cursorValid := false,
                     treeBefore := s.rootValid }
      ∧ u.hasTree T = true ∧ T.wf = true ∧ T.decodable = decide (2 ≤ s.positiveSymbols.length)
      ∧ (T.leaves.map (fun e => e.1)).Perm (s.positiveSymbols.map (BitVec.ofNat 8))

/-- R131 (c), R134 (d): no weight sum overflows; the root's weight is the exact sum of the positive frequencies. -/
def Obligations.RootWeightIsTheExactSum : Prop :=
  ∀ s : State, s.Ready → s.params.legal = true → s.params.hasBuilder = true → s.positiveSymbols ≠ [] →
    ∃ t u, exec .build s = .next t ∧ run 512 t = .next u
      ∧ (Memory.read u.nodes u.root).weight.toNat = (s.positiveSymbols.map fun i => (s.freqAt i).toNat).sum

/-- R134 (g): the tree `BUILD` makes is a function of `FREQ` alone: two blocks with the same table get the same records. -/
def Obligations.BuildDependsOnFreqAlone : Prop :=
  ∀ s s' : State, s.Ready → s'.Ready → s.params = s'.params → s.params.legal = true → s.params.hasBuilder = true →
    s.freq = s'.freq →
    ∃ t u t' u', exec .build s = .next t ∧ run 512 t = .next u ∧ exec .build s' = .next t' ∧ run 512 t' = .next u'
      ∧ u.rootValid = u'.rootValid ∧ (u.rootValid = true → u.root = u'.root) ∧ u.nextFree = u'.nextFree
      ∧ ∀ k < u.nextFree, Memory.read u.nodes k = Memory.read u'.nodes k

/-! ### Faults -/

/-- R224: fault entry, in a command that makes a tree, in one that does not, and with no command running. -/
def Obligations.FaultEntryAsDescribed : Prop :=
  ∀ (s : State) (c : Cause),
    (s.sequencer.constructs = true →
      s.raise c = { s with rootValid := false, nextFree := 0, cursorValid := false, fault := true, cause := c,
                           sequencer := .idle })
    ∧ (s.sequencer.constructs = false → s.raise c = { s with fault := true, cause := c, sequencer := .idle })
    ∧ (s.busy = false → s.raise c = { s with fault := true, cause := c })
    ∧ (s.raise c).busy = false

/-- R226: `CLEAR` and reset are the only events that leave the fault state. Both clear `CAUSE`, empty the tree and resume nothing. -/
def Obligations.OnlyClearOrResetLeavesFault : Prop :=
  ∀ s t : State, s.fault = true → step s = .next t → t.fault = false →
    (∃ a rest, s.host = a :: rest ∧ (a = .reset ∨ ∃ addr : Offset, addr.toNat < 4 ∧ a = .write addr 0x00000001#32))
    ∧ t.cause = .none ∧ t.rootValid = false ∧ t.nextFree = 0 ∧ t.cursorValid = false ∧ t.busy = false

/-- The model's own stops (logs 8 and 9), which no step from a state in range reaches: a stream unit where its unit is not
running, and a read at or above `NEXT_FREE`. -/
def Obligations.StreamUnitsStopByName : Prop :=
  ∀ s : State,
    (s.sequencer ≠ .walk → exec .left s = .fault .unitNotRunning ∧ exec .right s = .fault .unitNotRunning)
    ∧ ((∀ v n, s.sequencer ≠ .sym v n) →
      ∀ i ∈ [Instr.symDigit0, .symDigit1, .symDigit2, .symDigit3, .symDigit4, .symDigit5, .symDigit6, .symDigit7,
        .symDigit8, .symDigit9, .symEol], exec i s = .fault .unitNotRunning)
    ∧ ((∀ v pos, s.sequencer ≠ .code v pos) →
      ∀ i ∈ [Instr.code0, .code1, .codeEol], exec i s = .fault .unitNotRunning)
    ∧ (s.sequencer = .walk → s.cursorValid = true → s.nextFree ≤ s.cursor →
      exec .left s = .fault .undefinedNodeRead ∧ exec .right s = .fault .undefinedNodeRead)
    ∧ (∀ v pos, s.sequencer = .code v pos → s.nextFree ≤ pos →
      ∀ i ∈ [Instr.code0, .code1, .codeEol], exec i s = .fault .undefinedNodeRead)

/-- R51: from a state whose indices are in range no step ends in a fault of the model: every `NodeRead` is defined, and every
stream unit meets its phase. A step is refused only where the host hands a stream over while a command runs (R251; that it is
then refused is the model's, log 10). -/
def Obligations.InRangeStepsNeverFault : Prop :=
  (∀ (s : State) (f : Fault), s.InRange → step s ≠ .fault f)
  ∧ (∀ (s : State) (r : Refusal), step s = .refused r →
    r = .streamDuringCommand ∧ s.busy = true
      ∧ ∃ a rest, s.host = a :: rest ∧ ((∃ bits, a = .setBits bits ∨ a = .addBits bits)
        ∨ (∃ text, a = .setText text ∨ a = .addText text) ∨ a = .drain))

/-! ### Invariants of every step -/

/-- Every invariant of this file holds after reset. -/
def Obligations.ResetMeetsTheInvariants : Prop :=
  State.reset.StoreCanonical ∧ State.reset.FaultCoherent ∧ State.reset.InRange ∧ State.reset.WidthsFit
    ∧ State.reset.TreeShaped

/-- Every step keeps the canonical form of the node store. -/
def Obligations.StepKeepsStoreCanonical : Prop :=
  ∀ s t : State, s.StoreCanonical → step s = .next t → t.StoreCanonical

/-- R28, R224, R227: every step keeps "`CAUSE = 0` exactly when `FAULT = 0`", and a faulted block runs nothing. -/
def Obligations.StepKeepsFaultCoherent : Prop :=
  ∀ s t : State, s.FaultCoherent → step s = .next t → t.FaultCoherent

/-- R30 (a), (b), (d), (e), R23, R32: every step keeps every index in range; and with it R6, R7, R128: every step keeps every
index within `IDX_W` bits and every sequence number of `BUILD` distinct within `SEQ_W` bits. -/
def Obligations.StepKeepsInRange : Prop :=
  ∀ s t : State, s.StoreCanonical → s.InRange → step s = .next t → t.InRange ∧ (s.WidthsFit → t.WidthsFit)

/-- R30: every step keeps the records in use one tree, without sharing and without cycles (a forest while `BUILD` runs). -/
def Obligations.StepKeepsTreeShaped : Prop :=
  ∀ s t : State, s.StoreCanonical → s.TreeShaped → step s = .next t → t.TreeShaped

/-- R30 (c), R31: between commands the store holds an abstract tree, and `NEXT_FREE` is its number of nodes. -/
def Obligations.TreeShapedStoreHoldsATree : Prop :=
  ∀ s : State, s.TreeShaped → s.busy = false → ∃ T : ATree, s.hasTree T = true ∧ T.size = s.nextFree

/-! ### Rules of the whole machine -/

/-- R35, R68, R197: the node store is written only while `LOAD` or `BUILD` runs, and with nothing from the host the whole tree is
left alone by `SAVE`, by `DECODE` and by an idle block. -/
def Obligations.OnlyConstructorsWriteTheTree : Prop :=
  ∀ s t : State, s.sequencer.constructs = false → step s = .next t →
    t.nodes = s.nodes
    ∧ (s.host = [] → t.rootValid = s.rootValid ∧ t.root = s.root ∧ t.nextFree = s.nextFree)

/-- R25, R245: no command writes any frequency entry; only a host write to the file and reset do. -/
def Obligations.CommandsNeverWriteFreq : Prop :=
  ∀ s t : State, step s = .next t → t.freq ≠ s.freq →
    ∃ a rest, s.host = a :: rest ∧ (a = .reset ∨ ∃ (addr : Offset) (w : Word), 0x400 ≤ addr.toNat ∧ a = .write addr w)

/-- R56: what the sink holds is never withdrawn but by the host's drain; and no step changes a parameter (log 1). -/
def Obligations.OutputIsNeverWithdrawn : Prop :=
  ∀ s t : State, step s = .next t →
    t.params = s.params ∧ ((∃ bytes, t.out = s.out ++ bytes) ∨ ∃ rest, s.host = .drain :: rest)

/-- R111, R255: with finite streams a running `DECODE`, `LOAD` or `BUILD` ends, within one step a unit plus one, or 512 steps. -/
def Obligations.RunningCommandsEnd : Prop :=
  ∀ s : State, s.StoreCanonical → s.InRange → s.host = [] →
    (s.sequencer = .walk → ∃ t, run (s.bitsIn.length + 1) s = .next t ∧ t.busy = false)
    ∧ ((∃ v n, s.sequencer = .sym v n) ∨ (∃ v pos, s.sequencer = .code v pos) →
      ∃ t, run (s.textIn.length + 1) s = .next t ∧ t.busy = false)
    ∧ ((∃ i q seq, s.sequencer = .scan i q seq) ∨ (∃ q seq, s.sequencer = .merge q seq) →
      ∃ t, run 512 s = .next t ∧ t.busy = false)

/-! ### The host's side -/

/-- R52, R53, R25 to R28, R211: what a host read of each register returns; it has no other effect. Two clauses are the model's
reading: at an offset the block does not decode the read returns a word of the platform's and touches nothing of the block's
(log 11); while a command runs a read is answered and disturbs nothing (log 18), and while that command makes a tree, `TREE` is
the one of before it (log 17).
R8, R115: "the only host-readable register that differs during a command is `STATUS.BUSY`": a step after which a command runs,
its first among them, changes nothing that a host read returns but bit 0 of `STATUS`. -/
def Obligations.HostReadsTheRegisters : Prop :=
  (∀ (s : State) (addr : Offset) (rest : List HostAction), s.host = .read addr :: rest →
    ∃ w : Word,
      (addr.toNat < 0x800 → step s = .next { s with host := rest, reads := s.reads ++ [w] })
      ∧ (0x800 ≤ addr.toNat →
        step s = .next { s with host := rest, reads := s.reads ++ [w], freeCount := s.freeCount + 1 })
      ∧ (addr.toNat < 0x004 → w = 0#32)
      ∧ (0x004 ≤ addr.toNat → addr.toNat < 0x008 →
        w.toNat = s.busy.toNat + 2 * s.fault.toNat + 4 * (if s.sequencer.constructs then s.treeBefore else s.rootValid).toNat
          + 8 * s.underflow.toNat)
      ∧ (0x008 ≤ addr.toNat → addr.toNat < 0x00C →
        w.toNat = match s.cause with
          | .none => 0 | .illegalCmd => 1 | .fmtBadSymbol => 2 | .fmtSymbolRange => 3 | .fmtBadCodeChar => 4
          | .fmtTruncated => 5 | .capacity => 6 | .decEmptyTree => 7 | .decLeafRoot => 8 | .treeIllformed => 9)
      ∧ (0x00C ≤ addr.toNat → addr.toNat < 0x400 → w = 0#32)
      ∧ (0x400 ≤ addr.toNat → addr.toNat < 0x800 →
        w = if s.params.hasBuilder then s.freqAt ((addr.toNat - 0x400) / 4) else 0#32))
  ∧ (∀ s t : State, step s = .next t → t.busy = true →
    (∀ addr : Offset, hostReg addr ≠ .status → t.hostValue addr = s.hostValue addr)
    ∧ ∀ i < 32, i ≠ 0 → t.statusWord.getLsbD i = s.statusWord.getLsbD i)

/-- R25, R52, R53: a host write to `FREQ[i]` sets that entry and no other while no command runs; without a builder, and to every
register but `CMD` and `FREQ`, a write is ignored. Two clauses are the model's reading: a write to `FREQ` is accepted while
`FAULT = 1` too (log 18), and one at `0x800` or above does not reach the block (log 11). -/
def Obligations.HostWritesTheFrequencyFile : Prop :=
  ∀ (s : State) (addr : Offset) (w : Word) (rest : List HostAction),
    s.busy = false → s.host = .write addr w :: rest →
    (0x400 ≤ addr.toNat → addr.toNat < 0x800 → s.params.hasBuilder = true →
      ∃ t, step s = .next t ∧ t = { s with host := rest, freq := t.freq }
        ∧ t.freqAt ((addr.toNat - 0x400) / 4) = w
        ∧ ∀ i, i ≠ (addr.toNat - 0x400) / 4 → t.freqAt i = s.freqAt i)
    ∧ (0x400 ≤ addr.toNat → s.params.hasBuilder = false ∨ 0x800 ≤ addr.toNat → step s = .next { s with host := rest })
    ∧ (4 ≤ addr.toNat → addr.toNat < 0x400 → step s = .next { s with host := rest })

/-- R245, R246, R247: reset, between commands or during one. The block's state is that of R37; the streams and the records of the
node store are not touched. -/
def Obligations.HostResetGivesTheResetState : Prop :=
  ∀ (s : State) (rest : List HostAction), s.host = .reset :: rest →
    ∃ t, step s = .next t
      ∧ t.rootValid = false ∧ t.nextFree = 0 ∧ t.cursorValid = false ∧ (∀ i < 256, t.freqAt i = 0#32)
      ∧ t.statusWord = 0#32 ∧ t.causeWord = 0#32 ∧ t.sequencer = .idle
      ∧ t.nodes = s.nodes ∧ t.bitsIn = s.bitsIn ∧ t.textIn = s.textIn ∧ t.out = s.out ∧ t.host = rest

/-- R33, R251: the host hands a stream over while no command runs, which changes that stream alone. That a drain takes all of `out`
is the model's choice (log 21), and so is declining a handover while a command runs (log 10). -/
def Obligations.HostHandsStreamsOver : Prop :=
  ∀ (s : State) (rest : List HostAction) (bits : List Bool) (text : List Byte),
    (s.busy = false →
      (s.host = .setBits bits :: rest → step s = .next { s with host := rest, bitsIn := bits })
      ∧ (s.host = .addBits bits :: rest → step s = .next { s with host := rest, bitsIn := s.bitsIn ++ bits })
      ∧ (s.host = .setText text :: rest → step s = .next { s with host := rest, textIn := text })
      ∧ (s.host = .addText text :: rest → step s = .next { s with host := rest, textIn := s.textIn ++ text })
      ∧ (s.host = .drain :: rest → step s = .next { s with host := rest, out := [] }))
    ∧ (s.busy = true →
      (s.host = .setBits bits :: rest ∨ s.host = .addBits bits :: rest ∨ s.host = .setText text :: rest
        ∨ s.host = .addText text :: rest ∨ s.host = .drain :: rest) →
      step s = .refused .streamDuringCommand)
end

