-- ==== Sys2Proof/Laws/Memory.lean ====
section
/-! SUPPORT. Laws/Memory.lean: the node store. A read after a write to the same index gives the record written, a write leaves
every other index alone, and every operation keeps the canonical form `Memory.wf`. -/

namespace Sys2Proof.Machine

/-! ### Reading after writing -/

@[simp] theorem Memory.read_nil (k : Nat) : Memory.read [] k = NodeRec.empty := rfl

theorem Memory.read_insert_same (m : Memory) (k : Nat) (r : NodeRec) : Memory.read (Memory.insert m k r) k = r := by
  induction m with
  | nil => simp [Memory.insert, Memory.read]
  | cons e m ih =>
    obtain ⟨j, x⟩ := e
    simp only [Memory.insert]
    split
    · simp [Memory.read]
    · split
      · simp [Memory.read]
      · rename_i _ h
        simp [Memory.read, Ne.symm h, ih]

theorem Memory.read_insert_other (m : Memory) {k j : Nat} (r : NodeRec) (h : j ≠ k) :
    Memory.read (Memory.insert m k r) j = Memory.read m j := by
  induction m with
  | nil => simp [Memory.insert, Memory.read, Ne.symm h]
  | cons e m ih =>
    obtain ⟨i, x⟩ := e
    simp only [Memory.insert]
    split
    · simp [Memory.read, Ne.symm h]
    · split
      · rename_i _ hki
        subst hki
        simp [Memory.read, Ne.symm h]
      · simp [Memory.read, ih]

theorem Memory.read_remove_other (m : Memory) {k j : Nat} (h : j ≠ k) :
    Memory.read (Memory.remove m k) j = Memory.read m j := by
  induction m with
  | nil => rfl
  | cons e m ih =>
    obtain ⟨i, x⟩ := e
    simp only [Memory.remove]
    split
    · rename_i hik
      subst hik
      simp [Memory.read, Ne.symm h]
    · simp [Memory.read, ih]

/-- An index below every listed one is not listed. -/
theorem Memory.read_of_lt_all {m : Memory} {k : Nat} (h : ∀ e ∈ m, k < e.1) : Memory.read m k = NodeRec.empty := by
  induction m with
  | nil => rfl
  | cons e m ih =>
    obtain ⟨j, x⟩ := e
    have hj : k < j := h (j, x) (by simp)
    simp only [Memory.read, if_neg (show ¬ j = k by omega)]
    exact ih fun e he => h e (by simp [he])

/-- The parts of the canonical form of a non-empty list. -/
theorem Memory.wf_cons {j : Nat} {x : NodeRec} {m : Memory} :
    Memory.wf ((j, x) :: m) = true ↔ x ≠ NodeRec.empty ∧ (∀ e ∈ m, j < e.1) ∧ Memory.wf m = true := by
  simp [Memory.wf, and_assoc]

theorem Memory.read_remove_same {m : Memory} (h : Memory.wf m = true) (k : Nat) :
    Memory.read (Memory.remove m k) k = NodeRec.empty := by
  induction m with
  | nil => rfl
  | cons e m ih =>
    obtain ⟨j, x⟩ := e
    obtain ⟨-, hlt, hm⟩ := Memory.wf_cons.mp h
    simp only [Memory.remove]
    split
    · rename_i hjk
      subst hjk
      exact Memory.read_of_lt_all hlt
    · rename_i hjk
      simp only [Memory.read, if_neg hjk, ih hm]

/-- A read after a write to the same index gives the record written (20_memory.md R51). -/
theorem Memory.read_write_same {m : Memory} (h : Memory.wf m = true) (k : Nat) (r : NodeRec) :
    Memory.read (Memory.write m k r) k = r := by
  unfold Memory.write
  split
  · rename_i hr
    rw [Memory.read_remove_same h, hr]
  · exact Memory.read_insert_same m k r

/-- A write leaves every other record alone. -/
theorem Memory.read_write_other (m : Memory) {k j : Nat} (r : NodeRec) (h : j ≠ k) :
    Memory.read (Memory.write m k r) j = Memory.read m j := by
  unfold Memory.write
  split
  · exact Memory.read_remove_other m h
  · exact Memory.read_insert_other m r h

/-! ### The canonical form -/

theorem Memory.mem_insert {m : Memory} {k : Nat} {r : NodeRec} {e : Nat × NodeRec} (h : e ∈ Memory.insert m k r) :
    e = (k, r) ∨ e ∈ m := by
  induction m with
  | nil => simpa [Memory.insert] using h
  | cons x m ih =>
    obtain ⟨j, x⟩ := x
    simp only [Memory.insert] at h
    split at h
    · simpa using h
    · split at h
      · rcases List.mem_cons.mp h with h | h
        · exact .inl h
        · exact .inr (by simp [h])
      · rcases List.mem_cons.mp h with h | h
        · exact .inr (by simp [h])
        · rcases ih h with h | h
          · exact .inl h
          · exact .inr (by simp [h])

theorem Memory.mem_of_mem_remove {m : Memory} {k : Nat} {e : Nat × NodeRec} (h : e ∈ Memory.remove m k) : e ∈ m := by
  induction m with
  | nil => simp [Memory.remove] at h
  | cons x m ih =>
    obtain ⟨j, x⟩ := x
    simp only [Memory.remove] at h
    split at h
    · simp [h]
    · rcases List.mem_cons.mp h with h | h
      · simp [h]
      · simp [ih h]

theorem Memory.wf_insert {m : Memory} (h : Memory.wf m = true) (k : Nat) {r : NodeRec} (hr : r ≠ NodeRec.empty) :
    Memory.wf (Memory.insert m k r) = true := by
  induction m with
  | nil => simp [Memory.insert, Memory.wf, hr]
  | cons x m ih =>
    obtain ⟨j, x⟩ := x
    obtain ⟨hx, hlt, hm⟩ := Memory.wf_cons.mp h
    simp only [Memory.insert]
    split
    · rename_i hkj
      refine Memory.wf_cons.mpr ⟨hr, ?_, h⟩
      intro e he
      rcases List.mem_cons.mp he with he | he
      · rw [he]; exact hkj
      · exact Nat.lt_trans hkj (hlt e he)
    · split
      · rename_i _ hkj
        subst hkj
        exact Memory.wf_cons.mpr ⟨hr, hlt, hm⟩
      · refine Memory.wf_cons.mpr ⟨hx, ?_, ih hm⟩
        intro e he
        rcases Memory.mem_insert he with he | he
        · rw [he]; show j < k; omega
        · exact hlt e he

theorem Memory.wf_remove {m : Memory} (h : Memory.wf m = true) (k : Nat) : Memory.wf (Memory.remove m k) = true := by
  induction m with
  | nil => rfl
  | cons x m ih =>
    obtain ⟨j, x⟩ := x
    obtain ⟨hx, hlt, hm⟩ := Memory.wf_cons.mp h
    simp only [Memory.remove]
    split
    · exact hm
    · exact Memory.wf_cons.mpr ⟨hx, fun e he => hlt e (Memory.mem_of_mem_remove he), ih hm⟩

/-- Every write keeps the canonical form. -/
theorem Memory.wf_write {m : Memory} (h : Memory.wf m = true) (k : Nat) (r : NodeRec) :
    Memory.wf (Memory.write m k r) = true := by
  unfold Memory.write
  split
  · exact Memory.wf_remove h k
  · exact Memory.wf_insert h k ‹_›

/-! ### What is listed -/

/-- A record that is read is listed, or is the one an unlisted index reads as. -/
theorem Memory.read_eq_empty_or_mem (m : Memory) (k : Nat) : Memory.read m k = NodeRec.empty ∨ (k, Memory.read m k) ∈ m := by
  induction m with
  | nil => exact .inl rfl
  | cons e m ih =>
    obtain ⟨j, x⟩ := e
    by_cases h : j = k
    · subst h; exact .inr (by simp [Memory.read])
    · simp only [Memory.read, if_neg h]
      exact ih.imp_right (List.mem_cons_of_mem _)

/-- A write lists the record written and nothing else that was not listed before. -/
theorem Memory.mem_of_mem_write {m : Memory} {k : Nat} {r : NodeRec} {e : Nat × NodeRec} (h : e ∈ Memory.write m k r) :
    e = (k, r) ∨ e ∈ m := by
  unfold Memory.write at h
  split at h
  · exact .inr (Memory.mem_of_mem_remove h)
  · exact Memory.mem_insert h

/-- The store of `State.reset` has the canonical form. -/
theorem Memory.wf_reset : Memory.wf State.reset.nodes = true := rfl

end Sys2Proof.Machine
end

