-- ==== Sys2Proof/Laws/State.lean ====
section
/-! SUPPORT. Laws/State.lean: for each update of State that the operations make, one lemma per field, so that no proof unfolds
an update. -/

namespace Sys2Proof.Machine

variable (s : State)

/-! ### `discardTree` -/

@[simp] theorem State.discardTree_params : s.discardTree.params = s.params := rfl
@[simp] theorem State.discardTree_nodes : s.discardTree.nodes = s.nodes := rfl
@[simp] theorem State.discardTree_rootValid : s.discardTree.rootValid = false := rfl
@[simp] theorem State.discardTree_root : s.discardTree.root = s.root := rfl
@[simp] theorem State.discardTree_nextFree : s.discardTree.nextFree = 0 := rfl
@[simp] theorem State.discardTree_cursorValid : s.discardTree.cursorValid = false := rfl
@[simp] theorem State.discardTree_cursor : s.discardTree.cursor = s.cursor := rfl
@[simp] theorem State.discardTree_freq : s.discardTree.freq = s.freq := rfl
@[simp] theorem State.discardTree_fault : s.discardTree.fault = s.fault := rfl
@[simp] theorem State.discardTree_underflow : s.discardTree.underflow = s.underflow := rfl
@[simp] theorem State.discardTree_cause : s.discardTree.cause = s.cause := rfl
@[simp] theorem State.discardTree_treeBefore : s.discardTree.treeBefore = s.treeBefore := rfl
@[simp] theorem State.discardTree_sequencer : s.discardTree.sequencer = s.sequencer := rfl
@[simp] theorem State.discardTree_bitsIn : s.discardTree.bitsIn = s.bitsIn := rfl
@[simp] theorem State.discardTree_textIn : s.discardTree.textIn = s.textIn := rfl
@[simp] theorem State.discardTree_out : s.discardTree.out = s.out := rfl
@[simp] theorem State.discardTree_host : s.discardTree.host = s.host := rfl
@[simp] theorem State.discardTree_reads : s.discardTree.reads = s.reads := rfl
@[simp] theorem State.discardTree_freeCount : s.discardTree.freeCount = s.freeCount := rfl

/-! ### `beginTree` -/

@[simp] theorem State.beginTree_params (q : Sequencer) : (s.beginTree q).params = s.params := rfl
@[simp] theorem State.beginTree_nodes (q : Sequencer) : (s.beginTree q).nodes = s.nodes := rfl
@[simp] theorem State.beginTree_rootValid (q : Sequencer) : (s.beginTree q).rootValid = false := rfl
@[simp] theorem State.beginTree_root (q : Sequencer) : (s.beginTree q).root = s.root := rfl
@[simp] theorem State.beginTree_nextFree (q : Sequencer) : (s.beginTree q).nextFree = 0 := rfl
@[simp] theorem State.beginTree_cursorValid (q : Sequencer) : (s.beginTree q).cursorValid = false := rfl
@[simp] theorem State.beginTree_cursor (q : Sequencer) : (s.beginTree q).cursor = s.cursor := rfl
@[simp] theorem State.beginTree_freq (q : Sequencer) : (s.beginTree q).freq = s.freq := rfl
@[simp] theorem State.beginTree_fault (q : Sequencer) : (s.beginTree q).fault = s.fault := rfl
@[simp] theorem State.beginTree_underflow (q : Sequencer) : (s.beginTree q).underflow = s.underflow := rfl
@[simp] theorem State.beginTree_cause (q : Sequencer) : (s.beginTree q).cause = s.cause := rfl
@[simp] theorem State.beginTree_treeBefore (q : Sequencer) : (s.beginTree q).treeBefore = s.rootValid := rfl
@[simp] theorem State.beginTree_sequencer (q : Sequencer) : (s.beginTree q).sequencer = q := rfl
@[simp] theorem State.beginTree_bitsIn (q : Sequencer) : (s.beginTree q).bitsIn = s.bitsIn := rfl
@[simp] theorem State.beginTree_textIn (q : Sequencer) : (s.beginTree q).textIn = s.textIn := rfl
@[simp] theorem State.beginTree_out (q : Sequencer) : (s.beginTree q).out = s.out := rfl
@[simp] theorem State.beginTree_host (q : Sequencer) : (s.beginTree q).host = s.host := rfl
@[simp] theorem State.beginTree_reads (q : Sequencer) : (s.beginTree q).reads = s.reads := rfl
@[simp] theorem State.beginTree_freeCount (q : Sequencer) : (s.beginTree q).freeCount = s.freeCount := rfl

/-! ### `nodeWrite` -/

@[simp] theorem State.nodeWrite_params (k : Nat) (r : NodeRec) : (s.nodeWrite k r).params = s.params := rfl
@[simp] theorem State.nodeWrite_nodes (k : Nat) (r : NodeRec) : (s.nodeWrite k r).nodes = Memory.write s.nodes k r := rfl
@[simp] theorem State.nodeWrite_rootValid (k : Nat) (r : NodeRec) : (s.nodeWrite k r).rootValid = s.rootValid := rfl
@[simp] theorem State.nodeWrite_root (k : Nat) (r : NodeRec) : (s.nodeWrite k r).root = s.root := rfl
@[simp] theorem State.nodeWrite_nextFree (k : Nat) (r : NodeRec) : (s.nodeWrite k r).nextFree = s.nextFree := rfl
@[simp] theorem State.nodeWrite_cursorValid (k : Nat) (r : NodeRec) : (s.nodeWrite k r).cursorValid = s.cursorValid := rfl
@[simp] theorem State.nodeWrite_cursor (k : Nat) (r : NodeRec) : (s.nodeWrite k r).cursor = s.cursor := rfl
@[simp] theorem State.nodeWrite_freq (k : Nat) (r : NodeRec) : (s.nodeWrite k r).freq = s.freq := rfl
@[simp] theorem State.nodeWrite_fault (k : Nat) (r : NodeRec) : (s.nodeWrite k r).fault = s.fault := rfl
@[simp] theorem State.nodeWrite_underflow (k : Nat) (r : NodeRec) : (s.nodeWrite k r).underflow = s.underflow := rfl
@[simp] theorem State.nodeWrite_cause (k : Nat) (r : NodeRec) : (s.nodeWrite k r).cause = s.cause := rfl
@[simp] theorem State.nodeWrite_treeBefore (k : Nat) (r : NodeRec) : (s.nodeWrite k r).treeBefore = s.treeBefore := rfl
@[simp] theorem State.nodeWrite_sequencer (k : Nat) (r : NodeRec) : (s.nodeWrite k r).sequencer = s.sequencer := rfl
@[simp] theorem State.nodeWrite_bitsIn (k : Nat) (r : NodeRec) : (s.nodeWrite k r).bitsIn = s.bitsIn := rfl
@[simp] theorem State.nodeWrite_textIn (k : Nat) (r : NodeRec) : (s.nodeWrite k r).textIn = s.textIn := rfl
@[simp] theorem State.nodeWrite_out (k : Nat) (r : NodeRec) : (s.nodeWrite k r).out = s.out := rfl
@[simp] theorem State.nodeWrite_host (k : Nat) (r : NodeRec) : (s.nodeWrite k r).host = s.host := rfl
@[simp] theorem State.nodeWrite_reads (k : Nat) (r : NodeRec) : (s.nodeWrite k r).reads = s.reads := rfl
@[simp] theorem State.nodeWrite_freeCount (k : Nat) (r : NodeRec) : (s.nodeWrite k r).freeCount = s.freeCount := rfl

/-! ### `outWrite` -/

@[simp] theorem State.outWrite_params (b : List Byte) : (s.outWrite b).params = s.params := rfl
@[simp] theorem State.outWrite_nodes (b : List Byte) : (s.outWrite b).nodes = s.nodes := rfl
@[simp] theorem State.outWrite_rootValid (b : List Byte) : (s.outWrite b).rootValid = s.rootValid := rfl
@[simp] theorem State.outWrite_root (b : List Byte) : (s.outWrite b).root = s.root := rfl
@[simp] theorem State.outWrite_nextFree (b : List Byte) : (s.outWrite b).nextFree = s.nextFree := rfl
@[simp] theorem State.outWrite_cursorValid (b : List Byte) : (s.outWrite b).cursorValid = s.cursorValid := rfl
@[simp] theorem State.outWrite_cursor (b : List Byte) : (s.outWrite b).cursor = s.cursor := rfl
@[simp] theorem State.outWrite_freq (b : List Byte) : (s.outWrite b).freq = s.freq := rfl
@[simp] theorem State.outWrite_fault (b : List Byte) : (s.outWrite b).fault = s.fault := rfl
@[simp] theorem State.outWrite_underflow (b : List Byte) : (s.outWrite b).underflow = s.underflow := rfl
@[simp] theorem State.outWrite_cause (b : List Byte) : (s.outWrite b).cause = s.cause := rfl
@[simp] theorem State.outWrite_treeBefore (b : List Byte) : (s.outWrite b).treeBefore = s.treeBefore := rfl
@[simp] theorem State.outWrite_sequencer (b : List Byte) : (s.outWrite b).sequencer = s.sequencer := rfl
@[simp] theorem State.outWrite_bitsIn (b : List Byte) : (s.outWrite b).bitsIn = s.bitsIn := rfl
@[simp] theorem State.outWrite_textIn (b : List Byte) : (s.outWrite b).textIn = s.textIn := rfl
@[simp] theorem State.outWrite_out (b : List Byte) : (s.outWrite b).out = s.out ++ b := rfl
@[simp] theorem State.outWrite_host (b : List Byte) : (s.outWrite b).host = s.host := rfl
@[simp] theorem State.outWrite_reads (b : List Byte) : (s.outWrite b).reads = s.reads := rfl
@[simp] theorem State.outWrite_freeCount (b : List Byte) : (s.outWrite b).freeCount = s.freeCount := rfl

/-! ### `complete` -/

@[simp] theorem State.complete_params : s.complete.params = s.params := rfl
@[simp] theorem State.complete_nodes : s.complete.nodes = s.nodes := rfl
@[simp] theorem State.complete_rootValid : s.complete.rootValid = s.rootValid := rfl
@[simp] theorem State.complete_root : s.complete.root = s.root := rfl
@[simp] theorem State.complete_nextFree : s.complete.nextFree = s.nextFree := rfl
@[simp] theorem State.complete_cursorValid : s.complete.cursorValid = s.cursorValid := rfl
@[simp] theorem State.complete_cursor : s.complete.cursor = s.cursor := rfl
@[simp] theorem State.complete_freq : s.complete.freq = s.freq := rfl
@[simp] theorem State.complete_fault : s.complete.fault = s.fault := rfl
@[simp] theorem State.complete_underflow : s.complete.underflow = s.underflow := rfl
@[simp] theorem State.complete_cause : s.complete.cause = s.cause := rfl
@[simp] theorem State.complete_treeBefore : s.complete.treeBefore = s.treeBefore := rfl
@[simp] theorem State.complete_sequencer : s.complete.sequencer = .idle := rfl
@[simp] theorem State.complete_bitsIn : s.complete.bitsIn = s.bitsIn := rfl
@[simp] theorem State.complete_textIn : s.complete.textIn = s.textIn := rfl
@[simp] theorem State.complete_out : s.complete.out = s.out := rfl
@[simp] theorem State.complete_host : s.complete.host = s.host := rfl
@[simp] theorem State.complete_reads : s.complete.reads = s.reads := rfl
@[simp] theorem State.complete_freeCount : s.complete.freeCount = s.freeCount := rfl

/-! ### `acknowledge` -/

@[simp] theorem State.acknowledge_params : s.acknowledge.params = s.params := rfl
@[simp] theorem State.acknowledge_nodes : s.acknowledge.nodes = s.nodes := rfl
@[simp] theorem State.acknowledge_rootValid : s.acknowledge.rootValid = false := rfl
@[simp] theorem State.acknowledge_root : s.acknowledge.root = s.root := rfl
@[simp] theorem State.acknowledge_nextFree : s.acknowledge.nextFree = 0 := rfl
@[simp] theorem State.acknowledge_cursorValid : s.acknowledge.cursorValid = false := rfl
@[simp] theorem State.acknowledge_cursor : s.acknowledge.cursor = s.cursor := rfl
@[simp] theorem State.acknowledge_freq : s.acknowledge.freq = s.freq := rfl
@[simp] theorem State.acknowledge_fault : s.acknowledge.fault = false := rfl
@[simp] theorem State.acknowledge_underflow : s.acknowledge.underflow = false := rfl
@[simp] theorem State.acknowledge_cause : s.acknowledge.cause = .none := rfl
@[simp] theorem State.acknowledge_treeBefore : s.acknowledge.treeBefore = s.treeBefore := rfl
@[simp] theorem State.acknowledge_sequencer : s.acknowledge.sequencer = s.sequencer := rfl
@[simp] theorem State.acknowledge_bitsIn : s.acknowledge.bitsIn = s.bitsIn := rfl
@[simp] theorem State.acknowledge_textIn : s.acknowledge.textIn = s.textIn := rfl
@[simp] theorem State.acknowledge_out : s.acknowledge.out = s.out := rfl
@[simp] theorem State.acknowledge_host : s.acknowledge.host = s.host := rfl
@[simp] theorem State.acknowledge_reads : s.acknowledge.reads = s.reads := rfl
@[simp] theorem State.acknowledge_freeCount : s.acknowledge.freeCount = s.freeCount := rfl

/-! ### `cursorToRoot` -/

@[simp] theorem State.cursorToRoot_params : s.cursorToRoot.params = s.params := rfl
@[simp] theorem State.cursorToRoot_nodes : s.cursorToRoot.nodes = s.nodes := rfl
@[simp] theorem State.cursorToRoot_rootValid : s.cursorToRoot.rootValid = s.rootValid := rfl
@[simp] theorem State.cursorToRoot_root : s.cursorToRoot.root = s.root := rfl
@[simp] theorem State.cursorToRoot_nextFree : s.cursorToRoot.nextFree = s.nextFree := rfl
@[simp] theorem State.cursorToRoot_cursorValid : s.cursorToRoot.cursorValid = s.rootValid := rfl
@[simp] theorem State.cursorToRoot_cursor : s.cursorToRoot.cursor = s.root := rfl
@[simp] theorem State.cursorToRoot_freq : s.cursorToRoot.freq = s.freq := rfl
@[simp] theorem State.cursorToRoot_fault : s.cursorToRoot.fault = s.fault := rfl
@[simp] theorem State.cursorToRoot_underflow : s.cursorToRoot.underflow = s.underflow := rfl
@[simp] theorem State.cursorToRoot_cause : s.cursorToRoot.cause = s.cause := rfl
@[simp] theorem State.cursorToRoot_treeBefore : s.cursorToRoot.treeBefore = s.treeBefore := rfl
@[simp] theorem State.cursorToRoot_sequencer : s.cursorToRoot.sequencer = s.sequencer := rfl
@[simp] theorem State.cursorToRoot_bitsIn : s.cursorToRoot.bitsIn = s.bitsIn := rfl
@[simp] theorem State.cursorToRoot_textIn : s.cursorToRoot.textIn = s.textIn := rfl
@[simp] theorem State.cursorToRoot_out : s.cursorToRoot.out = s.out := rfl
@[simp] theorem State.cursorToRoot_host : s.cursorToRoot.host = s.host := rfl
@[simp] theorem State.cursorToRoot_reads : s.cursorToRoot.reads = s.reads := rfl
@[simp] theorem State.cursorToRoot_freeCount : s.cursorToRoot.freeCount = s.freeCount := rfl

/-! ### `blockReset` -/

@[simp] theorem State.blockReset_params : s.blockReset.params = s.params := rfl
@[simp] theorem State.blockReset_nodes : s.blockReset.nodes = s.nodes := rfl
@[simp] theorem State.blockReset_rootValid : s.blockReset.rootValid = false := rfl
@[simp] theorem State.blockReset_root : s.blockReset.root = 0 := rfl
@[simp] theorem State.blockReset_nextFree : s.blockReset.nextFree = 0 := rfl
@[simp] theorem State.blockReset_cursorValid : s.blockReset.cursorValid = false := rfl
@[simp] theorem State.blockReset_cursor : s.blockReset.cursor = 0 := rfl
@[simp] theorem State.blockReset_freq : s.blockReset.freq = Vector.replicate 256 0#32 := rfl
@[simp] theorem State.blockReset_fault : s.blockReset.fault = false := rfl
@[simp] theorem State.blockReset_underflow : s.blockReset.underflow = false := rfl
@[simp] theorem State.blockReset_cause : s.blockReset.cause = .none := rfl
@[simp] theorem State.blockReset_treeBefore : s.blockReset.treeBefore = false := rfl
@[simp] theorem State.blockReset_sequencer : s.blockReset.sequencer = .idle := rfl
@[simp] theorem State.blockReset_bitsIn : s.blockReset.bitsIn = s.bitsIn := rfl
@[simp] theorem State.blockReset_textIn : s.blockReset.textIn = s.textIn := rfl
@[simp] theorem State.blockReset_out : s.blockReset.out = s.out := rfl
@[simp] theorem State.blockReset_host : s.blockReset.host = s.host := rfl
@[simp] theorem State.blockReset_reads : s.blockReset.reads = s.reads := rfl
@[simp] theorem State.blockReset_freeCount : s.blockReset.freeCount = s.freeCount := rfl

/-! ### `raise` -/

@[simp] theorem State.raise_fault (c : Cause) : (s.raise c).fault = true := rfl
@[simp] theorem State.raise_cause (c : Cause) : (s.raise c).cause = c := rfl
@[simp] theorem State.raise_sequencer (c : Cause) : (s.raise c).sequencer = .idle := rfl
@[simp] theorem State.raise_params (c : Cause) : (s.raise c).params = s.params := by
  unfold State.raise; dsimp only; split <;> rfl
@[simp] theorem State.raise_nodes (c : Cause) : (s.raise c).nodes = s.nodes := by
  unfold State.raise; dsimp only; split <;> rfl
@[simp] theorem State.raise_rootValid (c : Cause) : (s.raise c).rootValid = if s.sequencer.constructs then false else s.rootValid := by
  unfold State.raise; dsimp only; split <;> rfl
@[simp] theorem State.raise_root (c : Cause) : (s.raise c).root = s.root := by
  unfold State.raise; dsimp only; split <;> rfl
@[simp] theorem State.raise_nextFree (c : Cause) : (s.raise c).nextFree = if s.sequencer.constructs then 0 else s.nextFree := by
  unfold State.raise; dsimp only; split <;> rfl
@[simp] theorem State.raise_cursorValid (c : Cause) : (s.raise c).cursorValid = if s.sequencer.constructs then false else s.cursorValid := by
  unfold State.raise; dsimp only; split <;> rfl
@[simp] theorem State.raise_cursor (c : Cause) : (s.raise c).cursor = s.cursor := by
  unfold State.raise; dsimp only; split <;> rfl
@[simp] theorem State.raise_freq (c : Cause) : (s.raise c).freq = s.freq := by
  unfold State.raise; dsimp only; split <;> rfl
@[simp] theorem State.raise_underflow (c : Cause) : (s.raise c).underflow = s.underflow := by
  unfold State.raise; dsimp only; split <;> rfl
@[simp] theorem State.raise_treeBefore (c : Cause) : (s.raise c).treeBefore = s.treeBefore := by
  unfold State.raise; dsimp only; split <;> rfl
@[simp] theorem State.raise_bitsIn (c : Cause) : (s.raise c).bitsIn = s.bitsIn := by
  unfold State.raise; dsimp only; split <;> rfl
@[simp] theorem State.raise_textIn (c : Cause) : (s.raise c).textIn = s.textIn := by
  unfold State.raise; dsimp only; split <;> rfl
@[simp] theorem State.raise_out (c : Cause) : (s.raise c).out = s.out := by
  unfold State.raise; dsimp only; split <;> rfl
@[simp] theorem State.raise_host (c : Cause) : (s.raise c).host = s.host := by
  unfold State.raise; dsimp only; split <;> rfl
@[simp] theorem State.raise_reads (c : Cause) : (s.raise c).reads = s.reads := by
  unfold State.raise; dsimp only; split <;> rfl
@[simp] theorem State.raise_freeCount (c : Cause) : (s.raise c).freeCount = s.freeCount := by
  unfold State.raise; dsimp only; split <;> rfl

/-! ### Computed flags -/

@[simp] theorem State.busy_eq : s.busy = s.sequencer.running := rfl

/-- While `LOAD` or `BUILD` runs the host reads the `TREE` of before the command (40_control.md R115). -/
@[simp] theorem State.tree_of_constructs {s : State} (h : s.sequencer.constructs = true) : s.tree = s.treeBefore := by
  simp only [State.tree, h, if_true]

/-- Otherwise `TREE` is a copy of `ROOT_VALID` (10_state.md R27). -/
@[simp] theorem State.tree_of_not_constructs {s : State} (h : s.sequencer.constructs = false) : s.tree = s.rootValid := by
  simp only [State.tree, h, Bool.false_eq_true, if_false]

/-- Between commands among others. -/
theorem State.tree_of_idle {s : State} (h : s.sequencer = .idle) : s.tree = s.rootValid :=
  State.tree_of_not_constructs (by rw [h]; rfl)

/-- Accepting `LOAD` or `BUILD` does not change the `TREE` the host reads. -/
theorem State.beginTree_tree {q : Sequencer} (h : q.constructs = true) : (s.beginTree q).tree = s.rootValid := by
  simp [State.tree, h]

@[simp] theorem State.busy_raise (c : Cause) : (s.raise c).busy = false := rfl
@[simp] theorem State.busy_complete : s.complete.busy = false := rfl

/-- Only the idle sequencer runs nothing. -/
theorem Sequencer.running_eq_false {q : Sequencer} : q.running = false ↔ q = .idle := by
  cases q <;> simp [Sequencer.running]

/-- A block that is not busy has an idle sequencer. -/
theorem State.sequencer_of_not_busy {s : State} (h : s.busy = false) : s.sequencer = .idle :=
  Sequencer.running_eq_false.mp h

end Sys2Proof.Machine
end

