-- ==== Sys2Proof/Laws/Ops.lean ====
section
/-! SUPPORT. Laws/Ops.lean: for each shared operation, once, everything it can do. -/

namespace Sys2Proof.Machine

/-- `NodeRead` answers exactly below `NEXT_FREE` (20_memory.md R51). -/
theorem State.nodeRead_eq_some {s : State} {k : Nat} {r : NodeRec} :
    s.nodeRead k = some r ↔ k < s.nextFree ∧ r = Memory.read s.nodes k := by
  unfold State.nodeRead
  split
  · rename_i h
    constructor
    · intro hr; exact ⟨h, (Option.some.inj hr).symm⟩
    · intro hr; rw [hr.2]
  · rename_i h
    simp [h]

/-- `Alloc` (20_memory.md R67): where it answers, the index is `NEXT_FREE`, which was below `NODE_CAP`, and the state differs in
that record and in `NEXT_FREE` alone. -/
theorem State.alloc_eq_some {s t : State} {r : NodeRec} {k : Nat} :
    s.alloc r = some (t, k) ↔
      s.nextFree < s.params.nodeCap ∧ k = s.nextFree ∧
        t = { s with nodes := Memory.write s.nodes s.nextFree r, nextFree := s.nextFree + 1 } := by
  unfold State.alloc
  split
  · rename_i h
    simp only [Option.some.injEq, Prod.mk.injEq, h, true_and]
    constructor
    · rintro ⟨rfl, rfl⟩; exact ⟨rfl, rfl⟩
    · rintro ⟨rfl, rfl⟩; exact ⟨rfl, rfl⟩
  · rename_i h
    simp [h]

theorem State.alloc_eq_none {s : State} {r : NodeRec} : s.alloc r = none ↔ s.params.nodeCap ≤ s.nextFree := by
  unfold State.alloc
  split
  · rename_i h; simp; omega
  · rename_i h; simp; omega

/-- Reading a record below `NEXT_FREE` and going on. -/
theorem State.withNode_of_lt {s : State} {k : Nat} (h : k < s.nextFree) (body : NodeRec → Result) :
    s.withNode k body = body (Memory.read s.nodes k) := by
  simp [State.withNode, State.nodeRead, h]

/-- A read the spec does not define stops. -/
theorem State.withNode_of_not_lt {s : State} {k : Nat} (h : ¬ k < s.nextFree) (body : NodeRec → Result) :
    s.withNode k body = .fault .undefinedNodeRead := by
  simp [State.withNode, State.nodeRead, h]

/-- If a read goes on to a next state, it was defined, and the rest answered that state. -/
theorem State.withNode_next {s t : State} {k : Nat} {body : NodeRec → Result} (h : s.withNode k body = .next t) :
    k < s.nextFree ∧ body (Memory.read s.nodes k) = .next t := by
  by_cases hk : k < s.nextFree
  · rw [State.withNode_of_lt hk] at h; exact ⟨hk, h⟩
  · rw [State.withNode_of_not_lt hk] at h; cases h

/-- Allocating with room left. -/
theorem State.withAlloc_of_lt {s : State} (h : s.nextFree < s.params.nodeCap) (r : NodeRec)
    (body : State → Nat → Result) :
    s.withAlloc r body =
      body { s with nodes := Memory.write s.nodes s.nextFree r, nextFree := s.nextFree + 1 } s.nextFree := by
  have ha : s.alloc r = some ({ s with nodes := Memory.write s.nodes s.nextFree r, nextFree := s.nextFree + 1 },
      s.nextFree) := State.alloc_eq_some.mpr ⟨h, rfl, rfl⟩
  simp only [State.withAlloc, ha]

/-- Allocating in a full store raises `CAPACITY` (20_memory.md R67). -/
theorem State.withAlloc_of_full {s : State} (h : s.params.nodeCap ≤ s.nextFree) (r : NodeRec)
    (body : State → Nat → Result) : s.withAlloc r body = .next (s.raise .capacity) := by
  simp only [State.withAlloc, State.alloc_eq_none.mpr h]

/-- If an allocation goes on to a next state, either there was room and the rest answered it, or it is the `CAPACITY` fault. -/
theorem State.withAlloc_next {s t : State} {r : NodeRec} {body : State → Nat → Result}
    (h : s.withAlloc r body = .next t) :
    (s.nextFree < s.params.nodeCap ∧
      body { s with nodes := Memory.write s.nodes s.nextFree r, nextFree := s.nextFree + 1 } s.nextFree = .next t) ∨
    (s.params.nodeCap ≤ s.nextFree ∧ t = s.raise .capacity) := by
  by_cases hc : s.nextFree < s.params.nodeCap
  · rw [State.withAlloc_of_lt hc] at h; exact .inl ⟨hc, h⟩
  · rw [State.withAlloc_of_full (by omega)] at h
    exact .inr ⟨by omega, (Host.Outcome.next.inj h).symm⟩

/-- A command word that is accepted runs (40_control.md R110). -/
theorem State.accept_of_ready {s : State} (hb : s.busy = false) (hf : s.fault = false) (body : State → Result) :
    s.accept body = body s := by
  simp only [State.accept, hb, hf, Bool.false_eq_true, if_false]

/-- A command word that is not accepted changes nothing (40_control.md R110, R114). -/
theorem State.accept_ignored {s : State} (h : s.busy = true ∨ s.fault = true) (body : State → Result) :
    s.accept body = .next s := by
  unfold State.accept
  rcases h with h | h
  · rw [h]; rfl
  · rw [h]; split <;> rfl

/-- If a command word leads to a next state, it was ignored, or the command's own beginning answered it. -/
theorem State.accept_next {s t : State} {body : State → Result} (h : s.accept body = .next t) :
    ((s.busy = true ∨ s.fault = true) ∧ t = s) ∨ (s.busy = false ∧ s.fault = false ∧ body s = .next t) := by
  cases hb : s.busy with
  | true =>
    rw [State.accept_ignored (.inl hb)] at h
    exact .inl ⟨.inl rfl, (Host.Outcome.next.inj h).symm⟩
  | false =>
    cases hf : s.fault with
    | true =>
      rw [State.accept_ignored (.inr hf)] at h
      exact .inl ⟨.inr rfl, (Host.Outcome.next.inj h).symm⟩
    | false =>
      rw [State.accept_of_ready hb hf] at h
      exact .inr ⟨rfl, rfl, h⟩

/-- `RemoveMin` answers unless `Q` is empty. -/
theorem removeMin_eq_none {q : List QEntry} : removeMin q = none ↔ q = [] := by
  cases q with
  | nil => simp [removeMin]
  | cons e q =>
    simp only [removeMin]
    split
    · simp
    · split <;> simp

/-- Handing a stream over leads to a next state only while no command runs. -/
theorem handOver_next {s s' t : State} (h : handOver s s' = .next t) : s.busy = false ∧ t = s' := by
  unfold handOver at h
  cases hb : s.busy with
  | true => rw [hb] at h; cases h
  | false => rw [hb] at h; exact ⟨rfl, (Host.Outcome.next.inj h).symm⟩

/-- It is refused exactly while one runs (70_reset_and_hazards.md R251; log 10). -/
theorem handOver_eq_refused {s s' : State} {r : Refusal} :
    handOver s s' = .refused r ↔ s.busy = true ∧ r = .streamDuringCommand := by
  unfold handOver
  cases s.busy with
  | true => simp [eq_comm]
  | false => simp

end Sys2Proof.Machine
end

