-- ==== Sys2Proof/Laws/PerInstr.lean ====
section
/-! SUPPORT. Laws/PerInstr.lean: what holds of every instruction, one lemma per constructor. -/

namespace Sys2Proof.Laws.RoundTrip

/-- An instruction that a block with parameters `p` has is what the decoder reads from its unit. -/
def Statement (i : Instr) : Prop := ∀ p : Params, i.wellFormed p = true → Sys2Proof.decode p (encode i) = .ok i

theorem clear : Statement .clear := fun _ _ => rfl
theorem build : Statement .build := fun p h => by
  have hp : p.hasBuilder = true := h
  simp [Sys2Proof.decode, encode, decodeCmd, hp]
theorem save : Statement .save := fun _ _ => rfl
theorem load : Statement .load := fun _ _ => rfl
theorem decode : Statement .decode := fun _ _ => rfl
theorem left : Statement .left := fun _ _ => rfl
theorem right : Statement .right := fun _ _ => rfl
theorem symDigit0 : Statement .symDigit0 := fun _ _ => rfl
theorem symDigit1 : Statement .symDigit1 := fun _ _ => rfl
theorem symDigit2 : Statement .symDigit2 := fun _ _ => rfl
theorem symDigit3 : Statement .symDigit3 := fun _ _ => rfl
theorem symDigit4 : Statement .symDigit4 := fun _ _ => rfl
theorem symDigit5 : Statement .symDigit5 := fun _ _ => rfl
theorem symDigit6 : Statement .symDigit6 := fun _ _ => rfl
theorem symDigit7 : Statement .symDigit7 := fun _ _ => rfl
theorem symDigit8 : Statement .symDigit8 := fun _ _ => rfl
theorem symDigit9 : Statement .symDigit9 := fun _ _ => rfl
theorem symEol : Statement .symEol := fun _ _ => rfl
theorem code0 : Statement .code0 := fun _ _ => rfl
theorem code1 : Statement .code1 := fun _ _ => rfl
theorem codeEol : Statement .codeEol := fun _ _ => rfl

end Sys2Proof.Laws.RoundTrip
end

