-- ==== Sys2Proof/Laws/Step.lean ====
section
/-! SUPPORT. Laws/Step.lean: what the fetch and the step are, in the forms proofs cite. -/

namespace Sys2Proof.Machine

/-- At the block's turn the next step is the block's own, with the script as `BlockTurn` says. -/
theorem State.fetchNext_of_blockTurn {s : State} {h : List HostAction} (hb : s.BlockTurn h) :
    s.fetchNext = blockNext { s with host := h } := by
  rcases hb with ⟨h1, rfl⟩ | h1 | ⟨r, h1, h2, rfl⟩
  · cases s; simp_all [State.fetchNext]
  · cases s; simp_all [State.fetchNext, hostNext]
  · cases s; simp_all [State.fetchNext]

/-- With an empty script it is always the block's turn. -/
theorem State.blockTurn_of_host_nil {s : State} (h : s.host = []) : s.BlockTurn [] := .inl ⟨h, rfl⟩

/-- A step whose fetch gave an instruction is `exec` of it. -/
theorem step_of_run {s s' : State} {i : Instr} (h : s.fetchNext = .run i s') : step s = exec i s' := by
  simp only [step, h]

/-- A step whose fetch gave no instruction is as the fetch says. -/
theorem step_of_done {s : State} {r : Result} (h : s.fetchNext = .done r) : step s = r := by
  simp only [step, h]

/-- An idle block with an empty script stays as it is (60_exceptions.md R233). -/
theorem step_of_idle {s : State} (hh : s.host = []) (hq : s.sequencer = .idle) : step s = .next s := by
  simp only [step, State.fetchNext, hh, blockNext, hq]

/-- So does any number of steps. -/
theorem run_of_idle {s : State} (hh : s.host = []) (hq : s.sequencer = .idle) (n : Nat) : run n s = .next s := by
  induction n with
  | zero => rfl
  | succ n ih => simp only [run, step_of_idle hh hq, ih]

/-- A run of `m + n` steps is a run of `m` and then one of `n`. -/
theorem run_add {s t : State} {m : Nat} (n : Nat) (h : run m s = .next t) : run (m + n) s = run n t := by
  induction m generalizing s with
  | zero =>
    have hst : s = t := Host.Outcome.next.inj h
    rw [Nat.zero_add, hst]
  | succ m ih =>
    rw [Nat.succ_add]
    simp only [run] at h ⊢
    cases hs : step s with
    | next u => rw [hs] at h; exact ih h
    | fault f => rw [hs] at h; cases h
    | refused r => rw [hs] at h; cases h

/-- `IDX_W` bits hold every index of the node store (00_scope.md R7). -/
theorem nodeCap_le_two_pow_idxW (p : Params) : p.nodeCap ≤ 2 ^ p.idxW := by
  have h : p.nodeCap - 1 < 2 ^ ((p.nodeCap - 1).log2 + 1) := Nat.lt_log2_self
  unfold Params.idxW
  omega

/-- An index below `NEXT_FREE` fits `IDX_W` bits. -/
theorem State.InRange.lt_two_pow {s : State} (h : s.InRange) {k : Nat} (hk : k < s.nextFree) : k < 2 ^ s.params.idxW :=
  Nat.lt_of_lt_of_le (Nat.lt_of_lt_of_le hk h.nextFree_le) (nodeCap_le_two_pow_idxW s.params)

/-- `NEXT_FREE` fits `IDX_W + 1` bits (10_state.md R23). -/
theorem State.InRange.nextFree_fits {s : State} (h : s.InRange) : s.nextFree < 2 ^ (s.params.idxW + 1) := by
  have h1 := h.nextFree_le
  have h2 := (nodeCap_le_two_pow_idxW s.params)
  have h3 : 2 ^ (s.params.idxW + 1) = 2 ^ s.params.idxW * 2 := Nat.pow_succ ..
  have h4 : 0 < 2 ^ s.params.idxW := Nat.two_pow_pos _
  omega

/-- The child indices of every record, listed or not, fit `IDX_W` bits. -/
theorem State.WidthsFit.read_children {s : State} (h : s.WidthsFit) (k : Nat) :
    (Memory.read s.nodes k).lIdx < 2 ^ s.params.idxW ∧ (Memory.read s.nodes k).rIdx < 2 ^ s.params.idxW := by
  rcases Memory.read_eq_empty_or_mem s.nodes k with he | he
  · rw [he]; exact ⟨Nat.two_pow_pos _, Nat.two_pow_pos _⟩
  · exact h.children_fit _ he

/-- A write below `NODE_CAP` of a record whose child indices fit keeps the index width. -/
theorem State.WidthsFit.nodeWrite {s : State} (h : s.WidthsFit) {k : Nat} {r : NodeRec} (hk : k < s.params.nodeCap)
    (hl : r.lIdx < 2 ^ s.params.idxW) (hr : r.rIdx < 2 ^ s.params.idxW) : (s.nodeWrite k r).WidthsFit where
  root_fits := h.root_fits
  cursor_fits := h.cursor_fits
  store_in_capacity := fun _ he => (Memory.mem_of_mem_write he).elim (fun e => e ▸ hk) (h.store_in_capacity _)
  children_fit := fun _ he => (Memory.mem_of_mem_write he).elim (fun e => e ▸ ⟨hl, hr⟩) (h.children_fit _)
  seqs_fit := h.seqs_fit

/-- An insertion with the counter's value keeps the numbers distinct, as long as the counter does not wrap. -/
theorem SeqsDistinct.insert {q : List QEntry} {seq : Seq} (h : SeqsDistinct q seq) (hw : seq.toNat < 511) (w : Weight)
    (k : Nat) : SeqsDistinct ({ weight := w, seq := seq, k := k } :: q) (seq + 1) := by
  have hs : seq < seq + 1 := by bv_omega
  refine ⟨fun e he => ?_, List.nodup_cons.mpr ⟨fun hm => ?_, h.2⟩⟩
  · rcases List.mem_cons.mp he with rfl | he
    · exact hs
    · have := h.1 e he; bv_omega
  · obtain ⟨e, he, hes⟩ := List.mem_map.mp hm
    have hlt := h.1 e he
    rw [hes] at hlt
    exact absurd hlt (by bv_omega)

/-- The register map on `CMD`: the first word. -/
theorem hostReg_eq_cmd {addr : Offset} : hostReg addr = .cmd ↔ addr.toNat < 4 := by
  unfold hostReg
  dsimp only
  split
  · simp; omega
  · split
    · simp; omega
    · split
      · simp; omega
      · split
        · simp; omega
        · split
          · simp; omega
          · simp; omega

end Sys2Proof.Machine
end

