-- ==== Sys2Proof/Tests/Slice0.lean ====
section
/-! SUPPORT. Tests/Slice0.lean: decoding from written-out units, the WellFormed smoke test, one step of each instruction, and a
witness for the hypotheses of each statement. Expected values come from the tables and worked examples of spec/ (30_encoding.md,
95_test_vectors.md), named at each test. -/

namespace Sys2Proof.Tests

open Sys2Proof Sys2Proof.Machine

/-! ### Decoding (30_encoding.md R82 to R84, R89 to R91; opcode_table.json) -/

theorem test_decode_commands :
    decode Params.standard (.cmd 0x00000001#32) = .ok .clear ∧ decode Params.standard (.cmd 0x00000002#32) = .ok .build
    ∧ decode Params.standard (.cmd 0x00000003#32) = .ok .save ∧ decode Params.standard (.cmd 0x00000004#32) = .ok .load
    ∧ decode Params.standard (.cmd 0x00000005#32) = .ok .decode := by decide

theorem test_decode_reserved_commands :
    decode Params.standard (.cmd 0x00000000#32) = .error .reservedCommand
    ∧ decode Params.standard (.cmd 0x00000006#32) = .error .reservedCommand
    ∧ decode Params.standard (.cmd 0xFFFFFFFF#32) = .error .reservedCommand
    ∧ decode { nodeCap := 512, hasBuilder := false } (.cmd 0x00000002#32) = .error .reservedCommand := by decide

theorem test_decode_bits :
    decode Params.standard (.bit false) = .ok .left ∧ decode Params.standard (.bit true) = .ok .right := by decide

theorem test_decode_symbol_line :
    [0x30#8, 0x31#8, 0x32#8, 0x33#8, 0x34#8, 0x35#8, 0x36#8, 0x37#8, 0x38#8, 0x39#8, 0x0A#8].map
        (fun ch => (decode Params.standard (.textSym ch)).toOption)
      = [some .symDigit0, some .symDigit1, some .symDigit2, some .symDigit3, some .symDigit4, some .symDigit5,
          some .symDigit6, some .symDigit7, some .symDigit8, some .symDigit9, some .symEol] := by decide

theorem test_decode_code_line :
    [0x30#8, 0x31#8, 0x0A#8].map (fun ch => (decode Params.standard (.textCode ch)).toOption)
      = [some .code0, some .code1, some .codeEol] := by decide

/-- R91: CR, `'+'`, space, `0xFF` on a symbol line; CR, `'2'`, space on a code line. -/
theorem test_decode_bad_bytes :
    (∀ ch ∈ [0x0D#8, 0x2B#8, 0x20#8, 0xFF#8, 0x2F#8, 0x3A#8],
      decode Params.standard (.textSym ch) = .error .badSymbolByte)
    ∧ (∀ ch ∈ [0x0D#8, 0x32#8, 0x20#8, 0x2F#8], decode Params.standard (.textCode ch) = .error .badCodeByte) := by decide

theorem test_table_words :
    decodeTableWord 32 4 = some .load ∧ decodeTableWord 8 0 = some .left ∧ decodeTableWord 8 1 = some .right
    ∧ decodeTableWord 1 1 = some .right ∧ decodeTableWord 8 0x37 = some .symDigit7
    ∧ decodeTableWord 8 0x0A = some .symEol ∧ decodeTableWord 32 6 = none := by decide

/-! ### WellFormed: each check refuses an ill-formed term -/

theorem test_build_without_builder_is_ill_formed :
    Instr.build.wellFormed { nodeCap := 512, hasBuilder := false } = false
    ∧ Instr.build.wellFormed Params.standard = true := by decide

theorem test_illegal_parameters :
    Params.legal { nodeCap := 0, hasBuilder := false } = false ∧ Params.legal { nodeCap := 510, hasBuilder := true } = false
    ∧ Params.legal { nodeCap := 511, hasBuilder := true } = true ∧ Params.legal { nodeCap := 1, hasBuilder := false } = true
    ∧ Params.standard.legal = true := by decide

/-- R6, R7: `IDX_W` of the default and of small stores. -/
theorem test_index_width :
    Params.standard.idxW = 9 ∧ ({ nodeCap := 1, hasBuilder := false } : Params).idxW = 1
    ∧ ({ nodeCap := 5, hasBuilder := false } : Params).idxW = 3 := by decide

/-! ### Small states -/

/-- The next state of a result. -/
def nextOf (r : Result) : Option State :=
  match r with
  | .next t => some t
  | _ => none

/-- The tree of 43_decode.md R185's example: 65 at `0`, 66 at `1`. -/
def twoLeaf : State :=
  { State.reset with
      nodes := [(0, NodeRec.internalOf 1 2 0#40), (1, NodeRec.leafOf 65#8 0#40), (2, NodeRec.leafOf 66#8 0#40)]
      rootValid := true, nextFree := 3 }

/-- The single-leaf tree 120 (95_test_vectors.md V20 d). -/
def oneLeaf : State :=
  { State.reset with nodes := [(0, NodeRec.leafOf 120#8 0#40)], rootValid := true, nextFree := 1 }

/-- 65 at `0` and nothing at `1` (V21 e): the root is ill formed. -/
def halfTree : State :=
  { State.reset with
      nodes := [(0, { NodeRec.empty with lValid := true, lIdx := 1 }), (1, NodeRec.leafOf 65#8 0#40)]
      rootValid := true, nextFree := 2 }

def twoLeafTree : ATree := .node none (.node (some 65#8) .absent .absent) (.node (some 66#8) .absent .absent)

def walking (s : State) : State := { s with sequencer := .walk, cursorValid := s.rootValid, cursor := s.root }
def inSym (v : Nat) (n : Bool) (text : List Byte) (s : State) : State := { s with sequencer := .sym v n, textIn := text }
def inCode (v pos : Nat) (text : List Byte) (s : State) : State := { s with sequencer := .code v pos, textIn := text }
def faulted (c : Cause) (s : State) : State := { s with fault := true, cause := c }
def script (h : List HostAction) (s : State) : State := { s with host := h }
def small (n : Nat) : State := { State.reset with params := { nodeCap := n, hasBuilder := false } }

/-! ### One step of each instruction -/

/-- R112's example: `TREE = 1`, `FAULT = 1`, `CAUSE = 9`; `CLEAR`; `STATUS = 0`, `CAUSE = 0`. -/
theorem test_clear :
    (nextOf (exec .clear (faulted .treeIllformed twoLeaf))).map (fun t => (t.statusWord, t.causeWord, t.nextFree))
      = some (0#32, 0#32, 0) := by decide

/-- R126: the old tree goes; R27: `BUSY` is 1; R115: `TREE` (bit 2) does not differ yet. -/
theorem test_build :
    (nextOf (exec .build twoLeaf)).map (fun t => (t.statusWord, t.rootValid, t.nextFree)) = some (5#32, false, 0) := by decide

/-- R148: with no tree there is nothing to visit. -/
theorem test_save_no_tree :
    (nextOf (exec .save State.reset)).map (fun t => t.sequencer) = some (.visit []) := by decide

/-- R156. -/
theorem test_load :
    (nextOf (exec .load twoLeaf)).map (fun t => (t.sequencer, t.rootValid)) = some (.sym 0 false, false) := by decide

/-- R187. -/
theorem test_decode :
    (nextOf (exec .decode twoLeaf)).map (fun t => (t.cursorValid, t.cursor, t.busy)) = some (true, 0, true) := by decide

/-- R185's example, bit 0: `0x41`, cursor at the root. -/
theorem test_left :
    (nextOf (exec .left (walking twoLeaf))).map (fun t => (t.out, t.cursor)) = some ([0x41#8], 0) := by decide

/-- V29 (b): the leaf root rejects the bit, nothing is written. -/
theorem test_left_leaf_root :
    (nextOf (exec .left (walking oneLeaf))).map (fun t => (t.statusWord, t.causeWord, t.out)) = some (6#32, 8#32, []) := by
  decide

/-- R190's example, bit 1: `0x42`. -/
theorem test_right :
    (nextOf (exec .right (walking twoLeaf))).map (fun t => (t.out, t.cursor)) = some ([0x42#8], 0) := by decide

/-- V29 (a): no tree. -/
theorem test_right_empty_tree :
    (nextOf (exec .right (walking State.reset))).map (fun t => (t.statusWord, t.causeWord)) = some (2#32, 7#32) := by decide

/-- R89: the accumulated value after each digit, from 25. -/
theorem test_digits :
    [Instr.symDigit0, .symDigit1, .symDigit2, .symDigit3, .symDigit4, .symDigit5, .symDigit6].map
        (fun i => (nextOf (exec i (inSym 25 true [] State.reset))).map (fun t => t.sequencer))
      = [some (.sym 250 true), some (.sym 251 true), some (.sym 252 true), some (.sym 253 true), some (.sym 254 true),
          some (.sym 255 true), some (.sym 256 true)] := by decide

/-- R89: saturation at 256. -/
theorem test_digits_saturate :
    [Instr.symDigit7, .symDigit8, .symDigit9].map
        (fun i => (nextOf (exec i (inSym 256 true [] State.reset))).map (fun t => t.sequencer))
      = [some (.sym 256 true), some (.sym 256 true), some (.sym 256 true)] := by decide

/-- V20 m: an empty symbol line. -/
theorem test_symEol_empty_line :
    (nextOf (exec .symEol (inSym 0 false [0x30#8] State.reset))).map (fun t => (t.statusWord, t.causeWord))
      = some (2#32, 2#32) := by decide

/-- R161: the first record creates the root. -/
theorem test_symEol_creates_root :
    (nextOf (exec .symEol (inSym 65 true [0x0A#8] State.reset))).map (fun t => (t.sequencer, t.rootValid, t.nextFree))
      = some (.code 65 0, true, 1) := by decide

/-- R162: insert-if-absent on the left. -/
theorem test_code0 :
    (nextOf (exec .code0 (inCode 65 0 [] { State.reset with rootValid := true, nextFree := 1 }))).map
        (fun t => (t.sequencer, Memory.read t.nodes 0, t.nextFree))
      = some (.code 65 1, { NodeRec.empty with lValid := true, lIdx := 1 }, 2) := by decide

/-- V22 (d): `NODE_CAP = 1`, `CAPACITY` at the edge. -/
theorem test_code1_capacity :
    (nextOf (exec .code1 (inCode 65 0 [] { small 1 with rootValid := true, nextFree := 1 }))).map
        (fun t => (t.causeWord, t.nextFree, t.statusWord)) = some (6#32, 0, 2#32) := by decide

/-- R163: descend to a right child that exists. -/
theorem test_code1 :
    (nextOf (exec .code1 (inCode 65 0 [] twoLeaf))).map (fun t => (t.sequencer, t.nextFree)) = some (.code 65 2, 3) := by
  decide

/-- V21 a: the second record's symbol overwrites the first's. -/
theorem test_codeEol :
    (nextOf (exec .codeEol (inCode 66 1 [] twoLeaf))).map (fun t => (t.sequencer, Memory.read t.nodes 1))
      = some (.sym 0 false, NodeRec.leafOf 66#8 0#40) := by decide

/-- R92: 0, 9, 10, 99, 100, 255 in minimal decimal (V11). -/
theorem test_decimal_digits :
    [0#8, 9#8, 10#8, 99#8, 100#8, 255#8].map decimalDigits
      = [[0x30#8], [0x39#8], [0x31#8, 0x30#8], [0x39#8, 0x39#8], [0x31#8, 0x30#8, 0x30#8], [0x32#8, 0x35#8, 0x35#8]] := by
  decide

/-- R93: the root of `twoLeaf` packed: `l_valid` bit 9, `l_idx` from bit 10, `r_valid` bit 19, `r_idx` from bit 20. -/
theorem test_record_layout :
    NodeRec.pack 9 (NodeRec.internalOf 1 2 3#40) = 2 ^ 9 + 1 * 2 ^ 10 + 2 ^ 19 + 2 * 2 ^ 20 + 3 * 2 ^ 29 := by decide

/-! ### Witnesses -/

theorem witness_RecordLayoutRoundTrips :
    ({ NodeRec.empty with lIdx := 511, rIdx := 511 } : NodeRec).lIdx < 2 ^ 9
    ∧ ({ NodeRec.empty with lIdx := 511, rIdx := 511 } : NodeRec).rIdx < 2 ^ 9 := by decide

/-- `BlockTurn` in its three forms. -/
theorem witness_BlockTurn :
    (script [] (walking twoLeaf)).BlockTurn [] ∧ (script [.tick, .drain] (walking twoLeaf)).BlockTurn [.drain]
    ∧ (script [.waitIdle] (walking twoLeaf)).BlockTurn [.waitIdle] :=
  ⟨.inl ⟨rfl, rfl⟩, .inr (.inl rfl), .inr (.inr ⟨[], rfl, rfl, rfl⟩)⟩

theorem witness_StepRunsTheDecodedUnit_cmd :
    (script [.write 3#12 5#32] twoLeaf).host = .write 3#12 5#32 :: [] ∧ (3#12 : Offset).toNat < 4
    ∧ decode (script [.write 3#12 5#32] twoLeaf).params (.cmd 5#32) = .ok .decode := by decide

theorem witness_StepRunsTheDecodedUnit_bit :
    ({ walking twoLeaf with bitsIn := [true] } : State).BlockTurn []
    ∧ ({ walking twoLeaf with bitsIn := [true] } : State).sequencer = .walk
    ∧ decode ({ walking twoLeaf with bitsIn := [true] } : State).params (.bit true) = .ok .right :=
  ⟨.inl ⟨rfl, rfl⟩, rfl, rfl⟩

theorem witness_StepRunsTheDecodedUnit_sym :
    (inSym 6 true [0x35#8] State.reset).BlockTurn [] ∧ (inSym 6 true [0x35#8] State.reset).sequencer = .sym 6 true
    ∧ (inSym 6 true [0x35#8] State.reset).textIn = 0x35#8 :: []
    ∧ decode (inSym 6 true [0x35#8] State.reset).params (.textSym 0x35#8) = .ok .symDigit5 :=
  ⟨.inl ⟨rfl, rfl⟩, rfl, rfl, rfl⟩

theorem witness_StepRunsTheDecodedUnit_code :
    (inCode 65 0 [0x31#8] twoLeaf).BlockTurn [] ∧ (inCode 65 0 [0x31#8] twoLeaf).sequencer = .code 65 0
    ∧ (inCode 65 0 [0x31#8] twoLeaf).textIn = 0x31#8 :: []
    ∧ decode (inCode 65 0 [0x31#8] twoLeaf).params (.textCode 0x31#8) = .ok .code1 :=
  ⟨.inl ⟨rfl, rfl⟩, rfl, rfl, rfl⟩

theorem witness_PlacedUnitRunsNext :
    Instr.build.wellFormed State.reset.params = true ∧ encode .build = .cmd 2#32
    ∧ encode .left = .bit false ∧ encode .symEol = .textSym 0x0A#8 ∧ encode .codeEol = .textCode 0x0A#8 := by decide

/-- A write to `CMD` and one to `FREQ[0]`, while `DECODE` runs. -/
theorem witness_BusyBlockIgnoresHostWrites :
    (script [.write 0#12 0#32] (walking twoLeaf)).busy = true
    ∧ (script [.write 0x400#12 7#32] (walking twoLeaf)).host = .write 0x400#12 7#32 :: [] := by decide

/-- V41: a faulted block, `CLEAR` and another word. -/
theorem witness_FaultedBlockAcceptsOnlyClear :
    (script [.write 3#12 1#32] (faulted .fmtBadCodeChar State.reset)).busy = false
    ∧ (script [.write 3#12 1#32] (faulted .fmtBadCodeChar State.reset)).fault = true
    ∧ (script [.write 0#12 5#32] (faulted .fmtBadCodeChar State.reset)).host = .write 0#12 5#32 :: [] := by decide

theorem witness_UnacceptedCommandsChangeNothing :
    (walking twoLeaf).busy = true ∧ (faulted .treeIllformed twoLeaf).fault = true := by decide

/-- The three kinds of reserved word, at the ends of their ranges (V40). -/
theorem witness_ReservedWordRaisesIllegal :
    State.reset.busy = false ∧ State.reset.fault = false ∧ (0#32 : Word).toNat = 0 ∧ 6 ≤ (6#32 : Word).toNat
    ∧ 6 ≤ (0xFFFFFFFF#32 : Word).toNat ∧ (2#32 : Word).toNat = 2 ∧ (small 512).params.hasBuilder = false
    ∧ (small 512).busy = false ∧ (small 512).fault = false
    ∧ (script [.write 0#12 2#32] (small 512)).host = .write 0#12 2#32 :: [] := by decide

theorem witness_ClearDiscardsTreeAndFault : (faulted .treeIllformed twoLeaf).busy = false := by decide

/-- Also of `SaveBeginsAtTheRoot`, `LoadBeginsByDiscarding`, `DecodeBeginsAtTheRoot`. -/
theorem witness_BuildBeginsByDiscarding :
    twoLeaf.busy = false ∧ twoLeaf.fault = false ∧ twoLeaf.params.hasBuilder = true
    ∧ (small 512).busy = false ∧ (small 512).fault = false ∧ (small 512).params.hasBuilder = false := by decide

theorem witness_BitsMoveTheWalker :
    (walking twoLeaf).sequencer = .walk ∧ (walking twoLeaf).cursorValid = true
    ∧ (walking twoLeaf).cursor < (walking twoLeaf).nextFree
    ∧ (Memory.read (walking twoLeaf).nodes (walking twoLeaf).cursor).cls = .internal
    ∧ (Memory.read (walking twoLeaf).nodes (walking twoLeaf).cursor).lIdx = 1 ∧ 1 < (walking twoLeaf).nextFree
    ∧ (Memory.read (walking twoLeaf).nodes (walking twoLeaf).cursor).rIdx = 2 ∧ 2 < (walking twoLeaf).nextFree := by decide

theorem witness_WalkerFaultsOnBadNodes :
    (walking State.reset).cursorValid = false
    ∧ (walking oneLeaf).cursorValid = true ∧ (walking oneLeaf).cursor < (walking oneLeaf).nextFree
    ∧ (Memory.read (walking oneLeaf).nodes (walking oneLeaf).cursor).cls = .leaf
    ∧ (walking halfTree).cursorValid = true ∧ (walking halfTree).cursor < (walking halfTree).nextFree
    ∧ (Memory.read (walking halfTree).nodes (walking halfTree).cursor).cls = .illformed
    ∧ (walking halfTree).sequencer = .walk := by decide

theorem witness_BitStreamEndCompletesDecode :
    (walking twoLeaf).BlockTurn [] ∧ (walking twoLeaf).sequencer = .walk ∧ (walking twoLeaf).bitsIn = [] :=
  ⟨.inl ⟨rfl, rfl⟩, rfl, rfl⟩

/-- Also of `SaveWritesTheTree` and, with the canonical store, of `SaveThenLoadGivesTheSameTree`. -/
theorem witness_DecodeIsTheRunFunction :
    twoLeaf.Ready ∧ twoLeaf.hasTree twoLeafTree = true ∧ twoLeaf.StoreCanonical ∧ twoLeafTree.wf = true
    ∧ twoLeafTree.size ≤ twoLeaf.params.nodeCap :=
  ⟨⟨rfl, rfl, rfl⟩, by decide, by unfold State.StoreCanonical; decide, by decide, by decide⟩

/-- The worked example of 43_decode.md R185 under R196's function: `0,1,1,0` gives `0x41 0x42 0x42 0x41`. -/
theorem test_decodeRun :
    decodeRun twoLeafTree [false, true, true, false] = ([0x41#8, 0x42#8, 0x42#8, 0x41#8], .done false) := by decide

/-- The worked example of 42_save_load.md R145: ten bytes. -/
theorem test_saveRun :
    saveRun twoLeafTree []
      = ([0x36#8, 0x35#8, 0x0A#8, 0x30#8, 0x0A#8, 0x36#8, 0x36#8, 0x0A#8, 0x31#8, 0x0A#8], true) := by decide

/-- Also of `DecodableTreeNeverFaults`. -/
theorem witness_ConcatenatedCodesDecode :
    ({ twoLeaf with bitsIn := [true, false] } : State).Ready
    ∧ ({ twoLeaf with bitsIn := [true, false] } : State).hasTree twoLeafTree = true ∧ twoLeafTree.decodable = true
    ∧ (∀ e ∈ [((66#8 : Byte), [true]), (65#8, [false])], e ∈ twoLeafTree.leaves)
    ∧ ({ twoLeaf with bitsIn := [true, false] } : State).bitsIn
        = [((66#8 : Byte), [true]), (65#8, [false])].flatMap (fun e => e.2) :=
  ⟨⟨rfl, rfl, rfl⟩, by decide, by decide, by decide, by decide⟩

theorem witness_DegenerateTreesRejectTheFirstBit :
    State.reset.Ready ∧ State.reset.rootValid = false ∧ State.reset.bitsIn = []
    ∧ ({ oneLeaf with bitsIn := [true] } : State).Ready ∧ oneLeaf.rootValid = true ∧ oneLeaf.root < oneLeaf.nextFree
    ∧ (Memory.read oneLeaf.nodes oneLeaf.root).cls = .leaf :=
  ⟨⟨rfl, rfl, rfl⟩, rfl, rfl, ⟨rfl, rfl, rfl⟩, rfl, by decide, by decide⟩

theorem witness_DigitsAccumulate : (inSym 256 true [] State.reset).sequencer = .sym 256 true := by decide

theorem witness_SymbolLineEndEntersCode :
    (inSym 255 true [0x0A#8] twoLeaf).sequencer = .sym 255 true ∧ 255 ≤ 255
    ∧ (inSym 255 true [0x0A#8] twoLeaf).textIn ≠ [] ∧ (inSym 255 true [0x0A#8] twoLeaf).rootValid = true
    ∧ (inSym 255 true [0x0A#8] (small 1)).rootValid = false
    ∧ (inSym 255 true [0x0A#8] (small 1)).nextFree < (inSym 255 true [0x0A#8] (small 1)).params.nodeCap := by decide

/-- Each of the four faults, and two conditions at once (V20 x: range before truncation). -/
theorem witness_SymbolLineEndFaultsInOrder :
    (inSym 0 false [0x30#8] State.reset).sequencer = .sym 0 false
    ∧ (inSym 256 true [] State.reset).sequencer = .sym 256 true ∧ 255 < 256
    ∧ (inSym 255 true [] State.reset).textIn = []
    ∧ (inSym 255 true [0x0A#8] (small 0)).rootValid = false
    ∧ (inSym 255 true [0x0A#8] (small 0)).params.nodeCap ≤ (inSym 255 true [0x0A#8] (small 0)).nextFree := by decide

theorem witness_BadBytesFaultTheLoader :
    (inSym 6 true [0x3A#8] State.reset).BlockTurn [] ∧ ¬ (0x30 ≤ (0x3A#8 : Byte).toNat ∧ (0x3A#8 : Byte).toNat ≤ 0x39)
    ∧ (0x3A#8 : Byte) ≠ 0x0A#8 ∧ ¬ (0x30 ≤ (0x2F#8 : Byte).toNat ∧ (0x2F#8 : Byte).toNat ≤ 0x39)
    ∧ (inCode 65 0 [0x32#8] twoLeaf).BlockTurn [] ∧ (0x32#8 : Byte) ≠ 0x30#8 ∧ (0x32#8 : Byte) ≠ 0x31#8
    ∧ (0x32#8 : Byte) ≠ 0x0A#8 :=
  ⟨.inl ⟨rfl, rfl⟩, by decide, by decide, by decide, .inl ⟨rfl, rfl⟩, by decide, by decide, by decide⟩

/-- Also of `CodeLineEndMarksTheLeaf`: a child that exists, one that does not with room, and a full store. -/
theorem witness_CodeEdgesDescend :
    (inCode 65 0 [] twoLeaf).sequencer = .code 65 0 ∧ 0 < (inCode 65 0 [] twoLeaf).nextFree
    ∧ (Memory.read twoLeaf.nodes 0).lValid = true ∧ (Memory.read twoLeaf.nodes 1).lValid = false
    ∧ twoLeaf.nextFree < twoLeaf.params.nodeCap
    ∧ ¬ ({ small 1 with rootValid := true, nextFree := 1 } : State).nextFree < (small 1).params.nodeCap := by decide

theorem witness_LoaderChangesOnlyItsRecords :
    (inCode 65 1 [] twoLeaf).StoreCanonical ∧ (inCode 65 1 [] twoLeaf).sequencer = .code 65 1
    ∧ 1 < (inCode 65 1 [] twoLeaf).nextFree
    ∧ (∃ t, exec .codeEol (inCode 65 1 [] twoLeaf) = .next t) ∧ (∃ t, exec .code0 (inCode 65 1 [] twoLeaf) = .next t)
    ∧ (∃ t, exec .code1 (inCode 65 0 [] twoLeaf) = .next t) :=
  ⟨by unfold State.StoreCanonical; decide, rfl, by decide, ⟨_, rfl⟩, ⟨_, rfl⟩, ⟨_, rfl⟩⟩

theorem witness_TextEndInEachPhase :
    (inSym 0 false [] State.reset).BlockTurn [] ∧ (inSym 0 false [] State.reset).sequencer = .sym 0 false
    ∧ (inSym 255 true [] State.reset).sequencer = .sym 255 true ∧ (inSym 256 true [] State.reset).sequencer = .sym 256 true
    ∧ (inCode 65 2 [] twoLeaf).sequencer = .code 65 2 ∧ 2 < (inCode 65 2 [] twoLeaf).nextFree
    ∧ (inCode 65 2 [] twoLeaf).textIn = [] :=
  ⟨.inl ⟨rfl, rfl⟩, rfl, rfl, rfl, rfl, by decide, rfl⟩

/-- V20 k at its `'2'`, and the truncated text of V20 f at its end. -/
theorem witness_LoadFaultLeavesNoTree :
    (inCode 66 2 [0x32#8, 0x0A#8] twoLeaf).BlockTurn [] ∧ (inCode 66 2 [0x32#8, 0x0A#8] twoLeaf).fault = false
    ∧ (∃ t, step (inCode 66 2 [0x32#8, 0x0A#8] twoLeaf) = .next t ∧ t.fault = true)
    ∧ (∃ t, step (inSym 65 true [] State.reset) = .next t ∧ t.fault = true) :=
  ⟨.inl ⟨rfl, rfl⟩, rfl, ⟨_, rfl, rfl⟩, ⟨_, rfl, rfl⟩⟩

/-- The records of 42_save_load.md R155's example, and R169 (c)'s ill-formed set. -/
theorem witness_LoadAppliesTheRecords :
    ({ State.reset with textIn := textOfRecords [(65#8, [false]), (66#8, [true])] } : State).Ready
    ∧ State.reset.StoreCanonical
    ∧ (treeOfRecords [(65#8, [false]), (66#8, [true])]).size ≤ State.reset.params.nodeCap
    ∧ treeOfRecords [(65#8, [false]), (66#8, [true])] = twoLeafTree
    ∧ (treeOfRecords [(65#8, [false]), (66#8, [false, true]), (67#8, [true])]).wf = false :=
  ⟨⟨rfl, rfl, rfl⟩, rfl, by decide, by decide, by decide⟩

/-- V6 (a): after 65 and 66 merge (`seq` 3, weight 2), leaf 67 (`seq` 2, weight 2) comes out first. -/
theorem witness_RemoveMinTakesTheLeast :
    (([⟨2#40, 3, 3⟩, ⟨2#40, 2, 2⟩] : List QEntry).map (fun x => x.seq)).Nodup
    ∧ removeMin [⟨2#40, 3, 3⟩, ⟨2#40, 2, 2⟩] = some (⟨2#40, 2, 2⟩, [⟨2#40, 3, 3⟩]) := by decide

/-- A block about to scan symbol 255, with `FREQ[255] = 1`; and one whose `FREQ[0]` is negative (V9). -/
theorem witness_ScanMakesALeafForPositive :
    ({ State.reset with freq := State.reset.freq.set 255 1#32, sequencer := .scan 255 [] 0 } : State).BlockTurn []
    ∧ 0 < (({ State.reset with freq := State.reset.freq.set 255 1#32 } : State).freqAt 255).toInt
    ∧ (({ State.reset with freq := State.reset.freq.set 0 0x80000000#32 } : State).freqAt 0).toInt ≤ 0
    ∧ (({ State.reset with freq := State.reset.freq.set 0 0x7FFFFFFF#32 } : State).freqAt 0).toInt > 0
    ∧ State.reset.nextFree < State.reset.params.nodeCap :=
  ⟨.inl ⟨rfl, rfl⟩, by decide +kernel, by decide +kernel, by decide +kernel, by decide⟩

/-- Also of `LastEntryBecomesTheRoot`, for one entry and for none. -/
theorem witness_MergeJoinsTheTwoLeast :
    ({ State.reset with nextFree := 2, sequencer := .merge [⟨1#40, 1, 1⟩, ⟨1#40, 0, 0⟩] 2 } : State).BlockTurn []
    ∧ removeMin [⟨1#40, 1, 1⟩, ⟨1#40, 0, 0⟩] = some (⟨1#40, 0, 0⟩, [⟨1#40, 1, 1⟩])
    ∧ removeMin [⟨1#40, 1, 1⟩] = some (⟨1#40, 1, 1⟩, [])
    ∧ ({ State.reset with nextFree := 2 } : State).nextFree < State.reset.params.nodeCap
    ∧ ({ State.reset with sequencer := .merge [⟨1#40, 0, 0⟩] 1 } : State).BlockTurn []
    ∧ ({ State.reset with sequencer := .merge [] 0 } : State).BlockTurn [] :=
  ⟨.inl ⟨rfl, rfl⟩, by decide, by decide, by decide, .inl ⟨rfl, rfl⟩, .inl ⟨rfl, rfl⟩⟩

/-- Scenario B's table: `FREQ[120] = 7`. -/
def scenarioB : State := { State.reset with freq := State.reset.freq.set 120 7#32 }

/-- Also of `RootWeightIsTheExactSum` and `BuildDependsOnFreqAlone`. -/
theorem witness_BuildMakesOneLeafPerPositive :
    scenarioB.Ready ∧ scenarioB.params.legal = true ∧ scenarioB.params.hasBuilder = true
    ∧ scenarioB.positiveSymbols = [120]
    ∧ ({ twoLeaf with freq := scenarioB.freq } : State).Ready
    ∧ ({ twoLeaf with freq := scenarioB.freq } : State).params = scenarioB.params :=
  ⟨⟨rfl, rfl, rfl⟩, by decide, rfl, by decide +kernel, ⟨rfl, rfl, rfl⟩, rfl⟩

theorem witness_FaultEntryAsDescribed :
    (inSym 0 false [] twoLeaf).sequencer.constructs = true ∧ (walking twoLeaf).sequencer.constructs = false
    ∧ twoLeaf.busy = false := by decide

/-- By `CLEAR` (V41), and by reset. -/
theorem witness_OnlyClearOrResetLeavesFault :
    (∃ t, step (script [.write 0#12 1#32] (faulted .fmtBadCodeChar State.reset)) = .next t ∧ t.fault = false)
    ∧ (∃ t, step (script [.reset] (faulted .fmtBadCodeChar State.reset)) = .next t ∧ t.fault = false) :=
  ⟨⟨_, rfl, rfl⟩, ⟨_, rfl, rfl⟩⟩

theorem witness_StreamUnitsStopByName :
    twoLeaf.sequencer ≠ .walk ∧ (∀ v n, twoLeaf.sequencer ≠ .sym v n) ∧ (∀ v pos, twoLeaf.sequencer ≠ .code v pos)
    ∧ ({ walking twoLeaf with cursor := 3 } : State).nextFree ≤ ({ walking twoLeaf with cursor := 3 } : State).cursor
    ∧ (inCode 65 3 [] twoLeaf).nextFree ≤ 3 :=
  ⟨by decide, fun _ _ => by simp [twoLeaf, State.reset], fun _ _ => by simp [twoLeaf, State.reset], by decide, by decide⟩

/-- The links of the two-leaf tree. -/
theorem twoLeaf_links : twoLeaf.LinksInRange := by
  intro k hk b c h
  have hk' : k < 3 := hk
  interval_cases k <;> cases b <;> revert h <;> simp [twoLeaf, Memory.read, NodeRec.child, NodeRec.internalOf,
    NodeRec.leafOf, NodeRec.empty] <;> omega

/-- Of `InRangeStepsNeverFault`, `StepKeepsInRange` and `RunningCommandsEnd`: a walker at the root of the two-leaf tree. -/
theorem witness_InRange_walking :
    (walking twoLeaf).StoreCanonical ∧ (walking twoLeaf).InRange ∧ (walking twoLeaf).host = []
    ∧ (walking twoLeaf).sequencer = .walk :=
  ⟨by unfold State.StoreCanonical; decide,
    { nextFree_le := by decide
      root_lt := fun _ => by decide
      links := twoLeaf_links
      cursor_lt := fun _ => by decide
      sequencer_ok := ⟨fun h => absurd h (by decide), rfl⟩ }, rfl, rfl⟩

/-- Of `RunningCommandsEnd` in phase `SYM` and of a builder that scans. -/
theorem witness_InRange_loading_and_building :
    (inSym 6 true [0x35#8] State.reset).InRange
    ∧ ({ State.reset with sequencer := .scan 0 [] 0 } : State).InRange :=
  ⟨{ nextFree_le := by decide
     root_lt := fun h => absurd h (by decide)
     links := fun k hk => absurd hk (Nat.not_lt_zero k)
     cursor_lt := fun h => absurd h (by decide)
     sequencer_ok := ⟨fun _ => rfl, by decide⟩ },
   { nextFree_le := by decide
     root_lt := fun h => absurd h (by decide)
     links := fun k hk => absurd hk (Nat.not_lt_zero k)
     cursor_lt := fun h => absurd h (by decide)
     sequencer_ok := ⟨rfl, by decide, rfl, by decide, rfl, by simp⟩ }⟩

/-- Of the widths in `StepKeepsInRange`: a walker, and a builder with one entry of `Q`. -/
theorem witness_WidthsFit :
    (walking twoLeaf).WidthsFit
    ∧ ({ State.reset with nextFree := 1, sequencer := .scan 66 [⟨1#40, 0, 0⟩] 1 } : State).WidthsFit :=
  ⟨⟨by decide, by decide, by decide, by decide, trivial⟩,
    ⟨by decide, by decide, by decide, by decide, by simp [State.SeqsFit, SeqsDistinct]⟩⟩

/-- From a leaf no edge leads anywhere. -/
theorem oneLeaf_follow {p : List Bool} {j : Nat} (h : Memory.follow oneLeaf.nodes 0 p = some j) : p = [] ∧ j = 0 := by
  cases p with
  | nil => exact ⟨rfl, (Option.some.inj h).symm⟩
  | cons b p => cases b <;> exact absurd h (by
      simp [Memory.follow, oneLeaf, Memory.read, NodeRec.child, NodeRec.leafOf, NodeRec.empty])

/-- Of `StepKeepsTreeShaped` and `TreeShapedStoreHoldsATree`: the single-leaf tree. -/
theorem witness_TreeShaped : oneLeaf.StoreCanonical ∧ oneLeaf.TreeShaped ∧ oneLeaf.busy = false := by
  refine ⟨by unfold State.StoreCanonical; decide, ?_, rfl⟩
  refine
    { nextFree_le := by decide
      root_lt := fun _ => by decide
      links := ?_
      cursor_lt := fun h => absurd h (by decide)
      sequencer_ok := fun h => absurd h (by decide)
      roots_nodup := by decide
      reached_once := ?_ }
  · intro k hk b c h
    have hk' : k < 1 := hk
    interval_cases k
    cases b <;> exact absurd h (by simp [oneLeaf, Memory.read, NodeRec.child, NodeRec.leafOf, NodeRec.empty])
  · intro j hj
    have hj' : j < 1 := hj
    interval_cases j
    refine ⟨(0, []), ⟨by decide, rfl⟩, ?_⟩
    rintro ⟨r, p⟩ ⟨hr, hp⟩
    have hr0 : r = 0 := by simpa [State.roots, oneLeaf, State.reset] using hr
    subst hr0
    exact congrArg (Prod.mk 0) (oneLeaf_follow hp).1

theorem witness_StepKeepsFaultCoherent :
    (faulted .treeIllformed twoLeaf).FaultCoherent ∧ twoLeaf.FaultCoherent
    ∧ (∃ t, step (script [.write 0#12 1#32] (faulted .treeIllformed twoLeaf)) = .next t) :=
  ⟨⟨by decide, by decide⟩, ⟨by decide, by decide⟩, ⟨_, rfl⟩⟩

theorem witness_StepKeepsStoreCanonical :
    (inCode 65 1 [0x30#8] twoLeaf).StoreCanonical ∧ (∃ t, step (inCode 65 1 [0x30#8] twoLeaf) = .next t) :=
  ⟨by unfold State.StoreCanonical; decide, ⟨_, rfl⟩⟩

theorem witness_OnlyConstructorsWriteTheTree :
    (walking twoLeaf).sequencer.constructs = false ∧ (∃ t, step (walking twoLeaf) = .next t)
    ∧ (walking twoLeaf).host = [] :=
  ⟨rfl, ⟨_, rfl⟩, rfl⟩

/-- A host write to `FREQ[255]`, the highest offset of the file. -/
theorem witness_CommandsNeverWriteFreq :
    (nextOf (step (script [.write 0x7FC#12 9#32] State.reset))).map
      (fun t => decide (t.freq ≠ (script [.write 0x7FC#12 9#32] State.reset).freq)) = some true := by decide +kernel

theorem witness_OutputIsNeverWithdrawn :
    ∃ t, step (script [.drain] { twoLeaf with out := [65#8] }) = .next t ∧ t.out = [] := ⟨_, rfl, rfl⟩

/-- A read at each end of each range of the map; offset bits 1:0 are ignored (R53: `0x005` is `STATUS`). -/
theorem witness_HostReadsTheRegisters :
    [0x000#12, 0x003#12, 0x004#12, 0x005#12, 0x007#12, 0x008#12, 0x00B#12, 0x00C#12, 0x3FF#12, 0x400#12, 0x7FF#12, 0x800#12,
        0xFFF#12].map hostReg
      = [.cmd, .cmd, .status, .status, .status, .cause, .cause, .reserved, .reserved, .freq 0, .freq 255, .undecoded,
          .undecoded]
    ∧ (script [.read 0x005#12] twoLeaf).host = .read 0x005#12 :: [] := by decide

/-- R115: the first `LOAD` after reset has made its root, and the host still reads `BUSY` alone. -/
theorem test_host_reads_tree_of_before :
    (nextOf (step (script [.read 0x004#12] (inCode 65 0 [] { oneLeaf with treeBefore := false })))).map (fun t => t.reads)
      = some [1#32] := by decide

/-- Steps after which a command runs: its first, and one in its middle. -/
theorem witness_HostReadsTheRegisters_busy :
    (∃ t, step (script [.write 0#12 4#32] twoLeaf) = .next t ∧ t.busy = true)
    ∧ (∃ t, step (inSym 6 true [0x35#8] twoLeaf) = .next t ∧ t.busy = true) ∧ hostReg 0x008#12 ≠ .status :=
  ⟨⟨_, rfl, rfl⟩, ⟨_, rfl, rfl⟩, by decide⟩

/-- V13: `STATUS = 0x6`, `CAUSE = 9` as the host reads them. -/
theorem test_host_reads_status_and_cause :
    (nextOf (step (script [.read 0x004#12] (faulted .treeIllformed twoLeaf)))).map (fun t => t.reads) = some [6#32]
    ∧ (nextOf (step (script [.read 0x008#12] (faulted .treeIllformed twoLeaf)))).map (fun t => t.reads) = some [9#32] := by
  decide

/-- P2: `FREQ[97]` is at `0x584`. -/
theorem test_host_writes_freq :
    (nextOf (step (script [.write 0x584#12 5#32] State.reset))).map (fun t => (t.freqAt 97, t.freqAt 98))
      = some (5#32, 0#32) := by decide +kernel

theorem witness_HostWritesTheFrequencyFile :
    (script [.write 0x7FF#12 9#32] State.reset).busy = false ∧ 0x400 ≤ (0x7FF#12 : Offset).toNat
    ∧ (0x7FF#12 : Offset).toNat < 0x800 ∧ State.reset.params.hasBuilder = true ∧ (small 512).params.hasBuilder = false
    ∧ 0x800 ≤ (0x800#12 : Offset).toNat ∧ 4 ≤ (0x004#12 : Offset).toNat ∧ (0x3FF#12 : Offset).toNat < 0x400 := by decide

/-- During a command, and between commands. -/
theorem witness_HostResetGivesTheResetState :
    (script [.reset] (walking twoLeaf)).host = .reset :: [] ∧ (script [.reset] twoLeaf).host = .reset :: [] := by decide

/-- Of the refusal in `InRangeStepsNeverFault`. -/
theorem witness_InRangeStepsNeverFault_refused :
    step (script [.drain] (walking twoLeaf)) = .refused .streamDuringCommand := rfl

/-- Each of the five actions, between commands and during one. -/
theorem witness_HostHandsStreamsOver :
    ∀ a ∈ [HostAction.setBits [true], .addBits [true], .setText [65#8], .addText [65#8], .drain],
      (script [a] twoLeaf).busy = false ∧ (script [a] twoLeaf).host = a :: []
      ∧ (script [a] (walking twoLeaf)).busy = true ∧ (script [a] (walking twoLeaf)).host = a :: [] := by decide

end Sys2Proof.Tests
end

namespace Sys2Proof.Machine

/-! ## What a step can do

One inversion lemma for the whole machine: a step that answers a next state is a move of the running unit, from the state
after it took its unit of a stream, or one action of the host. Invariants are proved of the moves. -/

/-- The moves of the block: what one step of the unit that runs can do (41_build.md to 43_decode.md), with the guards it
passed. -/
inductive BlockMove (s : State) : State → Prop
  /-- An idle block holds its state (60_exceptions.md R233). -/
  | rest (hq : s.sequencer = .idle) : BlockMove s s
  /-- 60_exceptions.md R224, whatever the cause. -/
  | raised (c : Cause) (hb : s.busy = true) (hc : c ≠ .none) : BlockMove s (s.raise c)
  /-- 43_decode.md R193. -/
  | bitsEnded (hq : s.sequencer = .walk) :
      BlockMove s { s.cursorToRoot with underflow := s.underflowAtEnd, sequencer := .idle }
  /-- 43_decode.md R191: arrival at a leaf. -/
  | reachedLeaf (b : Bool) (c : Nat) (hq : s.sequencer = .walk) (hv : s.cursorValid = true) (hk : s.cursor < s.nextFree)
      (hc : (Memory.read s.nodes s.cursor).child b = some c) (hlt : c < s.nextFree)
      (hcls : (Memory.read s.nodes c).cls = .leaf) :
      BlockMove s { s.outWrite [(Memory.read s.nodes c).sym] with cursor := s.root }
  /-- 43_decode.md R191: arrival at any other node. -/
  | reachedInner (b : Bool) (c : Nat) (hq : s.sequencer = .walk) (hv : s.cursorValid = true) (hk : s.cursor < s.nextFree)
      (hc : (Memory.read s.nodes s.cursor).child b = some c) (hlt : c < s.nextFree)
      (hcls : (Memory.read s.nodes c).cls ≠ .leaf) :
      BlockMove s { s with cursor := c }
  /-- 42_save_load.md R158. -/
  | digit (v : Nat) (n : Bool) (d : Nat) (hq : s.sequencer = .sym v n) (hd : d ≤ 9) :
      BlockMove s { s with sequencer := .sym (accumulate v d) true }
  /-- 42_save_load.md R166 (a). -/
  | textEnded (v : Nat) (hq : s.sequencer = .sym v false) : BlockMove s s.complete
  /-- 42_save_load.md R161, where there is a root. -/
  | codeLine (v : Nat) (hq : s.sequencer = .sym v true) (hv : v ≤ 255) (hr : s.rootValid = true) :
      BlockMove s { s with sequencer := .code v s.root }
  /-- 42_save_load.md R161, where there is none. -/
  | firstRoot (v : Nat) (hq : s.sequencer = .sym v true) (hv : v ≤ 255) (hr : s.rootValid = false)
      (hcap : s.nextFree < s.params.nodeCap) :
      BlockMove s { s with nodes := Memory.write s.nodes s.nextFree NodeRec.empty, nextFree := s.nextFree + 1
                           root := s.nextFree, rootValid := true, sequencer := .code v s.nextFree }
  /-- 42_save_load.md R162, R163, along a link. -/
  | oldEdge (v pos : Nat) (b : Bool) (c : Nat) (hq : s.sequencer = .code v pos) (hpos : pos < s.nextFree)
      (hc : (Memory.read s.nodes pos).child b = some c) :
      BlockMove s { s with sequencer := .code v c }
  /-- 42_save_load.md R162, R163, making the child first. -/
  | newEdge (v pos : Nat) (b : Bool) (hq : s.sequencer = .code v pos) (hpos : pos < s.nextFree)
      (hc : (Memory.read s.nodes pos).child b = none) (hcap : s.nextFree < s.params.nodeCap) :
      BlockMove s { s with nodes := Memory.write (Memory.write s.nodes s.nextFree NodeRec.empty) pos
                             ((Memory.read s.nodes pos).setChild b s.nextFree)
                           nextFree := s.nextFree + 1, sequencer := .code v s.nextFree }
  /-- 42_save_load.md R164, R166 (d). -/
  | leafMarked (v pos : Nat) (next : Sequencer) (hq : s.sequencer = .code v pos) (hpos : pos < s.nextFree)
      (hnext : next = .sym 0 false ∨ next = .idle) :
      BlockMove s { s.nodeWrite pos ((Memory.read s.nodes pos).setSym (BitVec.ofNat 8 v)) with sequencer := next }
  /-- 41_build.md R127, a positive frequency. -/
  | scannedLeaf (i : Nat) (q : List QEntry) (seq : Seq) (hq : s.sequencer = .scan i q seq)
      (hf : freqPositive (s.freqAt i) = true) (hcap : s.nextFree < s.params.nodeCap) :
      BlockMove s { s with nodes := Memory.write s.nodes s.nextFree
                             (NodeRec.leafOf (BitVec.ofNat 8 i) (freqWeight (s.freqAt i)))
                           nextFree := s.nextFree + 1
                           sequencer := scanNext i
                             ({ weight := freqWeight (s.freqAt i), seq := seq, k := s.nextFree } :: q) (seq + 1) }
  /-- 41_build.md R127, any other. -/
  | scannedNone (i : Nat) (q : List QEntry) (seq : Seq) (hq : s.sequencer = .scan i q seq)
      (hf : freqPositive (s.freqAt i) = false) :
      BlockMove s { s with sequencer := scanNext i q seq }
  /-- 41_build.md R130, nothing in `Q`. -/
  | builtNone (seq : Seq) (hq : s.sequencer = .merge [] seq) :
      BlockMove s { s with rootValid := false, sequencer := .idle }
  /-- 41_build.md R130, one entry. -/
  | builtRoot (a : QEntry) (seq : Seq) (hq : s.sequencer = .merge [a] seq) :
      BlockMove s { s with root := a.k, rootValid := true, sequencer := .idle }
  /-- 41_build.md R129. -/
  | merged (q q₁ q₂ : List QEntry) (seq : Seq) (a b : QEntry) (hq : s.sequencer = .merge q seq)
      (ha : removeMin q = some (a, q₁)) (hb : removeMin q₁ = some (b, q₂)) (hcap : s.nextFree < s.params.nodeCap) :
      BlockMove s { s with nodes := Memory.write s.nodes s.nextFree (NodeRec.internalOf a.k b.k (a.weight + b.weight))
                           nextFree := s.nextFree + 1
                           sequencer := .merge ({ weight := a.weight + b.weight, seq := seq, k := s.nextFree } :: q₂)
                             (seq + 1) }
  /-- 42_save_load.md R145, nothing left to visit. -/
  | visitsEnded (hq : s.sequencer = .visit []) : BlockMove s s.complete
  /-- 42_save_load.md R145, a leaf. -/
  | visitedLeaf (k : Nat) (path : List Bool) (rest : List (Nat × List Bool))
      (hq : s.sequencer = .visit ((k, path) :: rest)) (hk : k < s.nextFree) (hcls : (Memory.read s.nodes k).cls = .leaf) :
      BlockMove s { s.outWrite (recordBytes (Memory.read s.nodes k).sym path) with sequencer := .visit rest }
  /-- 42_save_load.md R145, an internal node. -/
  | visitedInner (k l r : Nat) (path : List Bool) (rest : List (Nat × List Bool))
      (hq : s.sequencer = .visit ((k, path) :: rest)) (hk : k < s.nextFree)
      (hl : (Memory.read s.nodes k).child false = some l) (hr : (Memory.read s.nodes k).child true = some r) :
      BlockMove s { s with sequencer := .visit ((l, path ++ [false]) :: (r, path ++ [true]) :: rest) }

/-- The moves of a command word (40_control.md R110 to R114). -/
inductive CommandMove (s : State) : State → Prop
  | ignored (h : s.busy = true ∨ s.fault = true) : CommandMove s s
  | cleared (hb : s.busy = false) : CommandMove s s.acknowledge
  | illegal (hb : s.busy = false) (hf : s.fault = false) : CommandMove s (s.raise .illegalCmd)
  | build (hb : s.busy = false) (hf : s.fault = false) (hp : s.params.hasBuilder = true) :
      CommandMove s (s.beginTree (.scan 0 [] 0))
  | save (hb : s.busy = false) (hf : s.fault = false) :
      CommandMove s { s with sequencer := .visit (if s.rootValid then [(s.root, [])] else []) }
  | load (hb : s.busy = false) (hf : s.fault = false) : CommandMove s (s.beginTree (.sym 0 false))
  | decode (hb : s.busy = false) (hf : s.fault = false) : CommandMove s { s.cursorToRoot with sequencer := .walk }

/-- The moves of the host, by the action that makes them. -/
inductive HostMove (s : State) : HostAction → State → Prop
  | command {t : State} (addr : Offset) (w : Word) (haddr : hostReg addr = .cmd) (hm : CommandMove s t) :
      HostMove s (.write addr w) t
  | wrote (addr : Offset) (w : Word) (haddr : hostReg addr ≠ .cmd) : HostMove s (.write addr w) (hostWrite addr w s)
  | didRead (addr : Offset) : HostMove s (.read addr) (hostRead addr s)
  | didReset : HostMove s .reset s.blockReset
  | gotBits (bits : List Bool) (hb : s.busy = false) : HostMove s (.setBits bits) { s with bitsIn := bits }
  | moreBits (bits : List Bool) (hb : s.busy = false) :
      HostMove s (.addBits bits) { s with bitsIn := s.bitsIn ++ bits }
  | gotText (text : List Byte) (hb : s.busy = false) : HostMove s (.setText text) { s with textIn := text }
  | moreText (text : List Byte) (hb : s.busy = false) :
      HostMove s (.addText text) { s with textIn := s.textIn ++ text }
  | drained (hb : s.busy = false) : HostMove s .drain { s with out := [] }
  | waited (hb : s.busy = false) : HostMove s .waitIdle s

/-! ### The stream units -/

theorem State.busy_of_sequencer {s : State} {q : Sequencer} (hq : s.sequencer = q) (hr : q.running = true) :
    s.busy = true := by
  rw [State.busy, hq, hr]

/-- The two links of an internal record (00_scope.md R11). -/
theorem NodeRec.child_of_internal {r : NodeRec} (h : r.cls = .internal) (b : Bool) :
    r.child b = some (if b then r.rIdx else r.lIdx) := by
  unfold NodeRec.cls at h
  split at h
  · cases h
  · split at h
    · rename_i hi
      obtain ⟨-, hl, hr⟩ := hi
      cases b <;> simp [NodeRec.child, hl, hr]
    · cases h

theorem walkStep_move {b : Bool} {s t : State} (hq : s.sequencer = .walk) (h : walkStep b s = .next t) :
    BlockMove s t := by
  have hbusy : s.busy = true := State.busy_of_sequencer hq rfl
  simp only [walkStep, hq] at h
  split at h
  · cases h; exact .raised _ hbusy (by decide)
  · rename_i hv
    obtain ⟨hk, h⟩ := State.withNode_next h
    split at h
    · cases h; exact .raised _ hbusy (by decide)
    · cases h; exact .raised _ hbusy (by decide)
    · rename_i hcls
      obtain ⟨hlt, h⟩ := State.withNode_next h
      have hv : s.cursorValid = true := by simpa using hv
      have hc := NodeRec.child_of_internal hcls b
      split at h
      · cases h; exact .reachedLeaf b _ hq hv hk hc hlt ‹_›
      · rename_i hcl; cases h; exact .reachedInner b _ hq hv hk hc hlt (by simp [hcl])
      · rename_i hcl; cases h; exact .reachedInner b _ hq hv hk hc hlt (by simp [hcl])

theorem bitStreamEnd_move {s t : State} (hq : s.sequencer = .walk) (h : bitStreamEnd s = .next t) : BlockMove s t := by
  cases h; exact .bitsEnded hq

theorem endSymLine_move {v : Nat} {n : Bool} {s t : State} (hq : s.sequencer = .sym v n)
    (h : endSymLine v n s = .next t) : BlockMove s t := by
  have hbusy : s.busy = true := State.busy_of_sequencer hq rfl
  cases n with
  | false => cases h; exact .raised _ hbusy (by decide)
  | true =>
    simp only [endSymLine, Bool.not_true, Bool.false_eq_true, if_false] at h
    split at h
    · cases h; exact .raised _ hbusy (by decide)
    · rename_i hv
      have hv : v ≤ 255 := by omega
      unfold enterCode at h
      split at h
      · split at h
        · rename_i hr; cases h; exact .codeLine v hq hv hr
        · rename_i hr
          rcases State.withAlloc_next h with ⟨hcap, h⟩ | ⟨-, rfl⟩
          · cases h; exact .firstRoot v hq hv (by simpa using hr) hcap
          · exact .raised _ hbusy (by decide)
      · cases h; exact .raised _ hbusy (by decide)

theorem symStreamEnd_move {v : Nat} {n : Bool} {s t : State} (hq : s.sequencer = .sym v n)
    (h : symStreamEnd v n s = .next t) : BlockMove s t := by
  cases n with
  | false => cases h; exact .textEnded v hq
  | true => exact endSymLine_move hq h

theorem edgeStep_move {b : Bool} {v pos : Nat} {s t : State} (hq : s.sequencer = .code v pos)
    (h : edgeStep b s = .next t) : BlockMove s t := by
  simp only [edgeStep, hq] at h
  obtain ⟨hpos, h⟩ := State.withNode_next h
  split at h
  · cases h; exact .oldEdge v pos b _ hq hpos ‹_›
  · rcases State.withAlloc_next h with ⟨hcap, h⟩ | ⟨-, rfl⟩
    · cases h; exact .newEdge v pos b hq hpos ‹_› hcap
    · exact .raised _ (State.busy_of_sequencer hq rfl) (by decide)

theorem markLeaf_move {v pos : Nat} {next : Sequencer} {s t : State} (hq : s.sequencer = .code v pos)
    (hnext : next = .sym 0 false ∨ next = .idle) (h : markLeaf v pos next s = .next t) : BlockMove s t := by
  obtain ⟨hpos, h⟩ := State.withNode_next h
  cases h
  exact .leafMarked v pos next hq hpos hnext

/-! ### The decoder's answers, format by format -/

/-- What a byte of a symbol line decodes to (30_encoding.md R89; 42_save_load.md R160). -/
inductive SymLineUnit : Except Reject Instr → Prop
  | digit {i : Instr} {d : Nat} (hd : d ≤ 9) (he : exec i = digitStep d) : SymLineUnit (.ok i)
  | lineEnd : SymLineUnit (.ok .symEol)
  | bad : SymLineUnit (.error .badSymbolByte)

theorem decode_textSym (p : Params) (ch : Byte) : SymLineUnit (decode p (.textSym ch)) := by
  change SymLineUnit (decodeTextSym ch)
  unfold decodeTextSym
  iterate 10 refine iteInduction (motive := SymLineUnit) (fun _ => .digit (by decide) rfl) fun _ => ?_
  exact iteInduction (motive := SymLineUnit) (fun _ => .lineEnd) fun _ => .bad

/-- What a byte of a code line decodes to (30_encoding.md R90; 42_save_load.md R165). -/
inductive CodeLineUnit : Except Reject Instr → Prop
  | edge {i : Instr} {b : Bool} (he : exec i = edgeStep b) : CodeLineUnit (.ok i)
  | lineEnd : CodeLineUnit (.ok .codeEol)
  | bad : CodeLineUnit (.error .badCodeByte)

theorem decode_textCode (p : Params) (ch : Byte) : CodeLineUnit (decode p (.textCode ch)) := by
  change CodeLineUnit (decodeTextCode ch)
  unfold decodeTextCode
  iterate 2 refine iteInduction (motive := CodeLineUnit) (fun _ => .edge rfl) fun _ => ?_
  exact iteInduction (motive := CodeLineUnit) (fun _ => .lineEnd) fun _ => .bad

/-- What a command word decodes to (30_encoding.md R82, R83). -/
inductive CommandUnit : Except Reject Instr → Prop
  | clear : CommandUnit (.ok .clear)
  | build : CommandUnit (.ok .build)
  | save : CommandUnit (.ok .save)
  | load : CommandUnit (.ok .load)
  | decode : CommandUnit (.ok .decode)
  | reserved : CommandUnit (.error .reservedCommand)

theorem decode_cmd (p : Params) (w : Word) : CommandUnit (decode p (.cmd w)) := by
  change CommandUnit (decodeCmd p w)
  unfold decodeCmd
  refine iteInduction (motive := CommandUnit) (fun _ => .clear) fun _ => ?_
  refine iteInduction (motive := CommandUnit)
    (fun _ => iteInduction (motive := CommandUnit) (fun _ => .build) fun _ => .reserved) fun _ => ?_
  refine iteInduction (motive := CommandUnit) (fun _ => .save) fun _ => ?_
  refine iteInduction (motive := CommandUnit) (fun _ => .load) fun _ => ?_
  exact iteInduction (motive := CommandUnit) (fun _ => .decode) fun _ => .reserved

/-! ### The fetch -/

/-- How a fetch ends: an instruction is run, anything else is as it is. -/
def Fetched.outcome : Fetched → Result
  | .run i s => exec i s
  | .done r => r

theorem step_eq_outcome (s : State) : step s = s.fetchNext.outcome := by
  unfold step
  cases s.fetchNext <;> rfl

theorem fetchUnit_bit_move {b : Bool} {s t : State} (hq : s.sequencer = .walk)
    (h : (fetchUnit (.bit b) s).outcome = .next t) : BlockMove s t := by
  cases b <;> exact walkStep_move hq h

theorem fetchUnit_textSym_move {ch : Byte} {v : Nat} {n : Bool} {s t : State} (hq : s.sequencer = .sym v n)
    (h : (fetchUnit (.textSym ch) s).outcome = .next t) : BlockMove s t := by
  have hu := decode_textSym s.params ch
  unfold fetchUnit at h
  generalize decode s.params (.textSym ch) = e at hu h
  cases hu with
  | digit hd he =>
    simp only [Fetched.outcome, he, digitStep, hq] at h
    cases h
    exact .digit v n _ hq hd
  | lineEnd =>
    simp only [Fetched.outcome, exec, execSymEol, hq] at h
    exact endSymLine_move hq h
  | bad => cases h; exact .raised _ (State.busy_of_sequencer hq rfl) (by decide)

theorem fetchUnit_textCode_move {ch : Byte} {v pos : Nat} {s t : State} (hq : s.sequencer = .code v pos)
    (h : (fetchUnit (.textCode ch) s).outcome = .next t) : BlockMove s t := by
  have hu := decode_textCode s.params ch
  unfold fetchUnit at h
  generalize decode s.params (.textCode ch) = e at hu h
  cases hu with
  | edge he =>
    simp only [Fetched.outcome, he] at h
    exact edgeStep_move hq h
  | lineEnd =>
    simp only [Fetched.outcome, exec, execCodeEol, hq] at h
    exact markLeaf_move hq (.inl rfl) h
  | bad => cases h; exact .raised _ (State.busy_of_sequencer hq rfl) (by decide)

/-- A command word that goes through the test of 40_control.md R110. -/
theorem accept_move {s t : State} {body : State → Result}
    (hbody : s.busy = false → s.fault = false → body s = .next t → CommandMove s t) (h : s.accept body = .next t) :
    CommandMove s t := by
  rcases State.accept_next h with ⟨hi, rfl⟩ | ⟨hb, hf, h⟩
  · exact .ignored hi
  · exact hbody hb hf h

theorem execClear_move {s t : State} (h : execClear s = .next t) : CommandMove s t := by
  unfold execClear at h
  split at h
  · cases h; exact .ignored (.inl ‹_›)
  · rename_i hb; cases h; exact .cleared (by simpa using hb)

theorem execBuild_move {s t : State} (h : execBuild s = .next t) : CommandMove s t := by
  refine accept_move (fun hb hf h => ?_) h
  split at h
  · cases h; exact .build hb hf ‹_›
  · cases h; exact .illegal hb hf

theorem execSave_move {s t : State} (h : execSave s = .next t) : CommandMove s t :=
  accept_move (fun hb hf h => by cases h; exact .save hb hf) h

theorem execLoad_move {s t : State} (h : execLoad s = .next t) : CommandMove s t :=
  accept_move (fun hb hf h => by cases h; exact .load hb hf) h

theorem execDecode_move {s t : State} (h : execDecode s = .next t) : CommandMove s t :=
  accept_move (fun hb hf h => by cases h; exact .decode hb hf) h

theorem illegalCommand_move {s t : State} (h : illegalCommand s = .next t) : CommandMove s t :=
  accept_move (fun hb hf h => by cases h; exact .illegal hb hf) h

theorem fetchUnit_cmd_move {w : Word} {s t : State} (h : (fetchUnit (.cmd w) s).outcome = .next t) :
    CommandMove s t := by
  have hu := decode_cmd s.params w
  unfold fetchUnit at h
  generalize decode s.params (.cmd w) = e at hu h
  cases hu with
  | clear => exact execClear_move h
  | build => exact execBuild_move h
  | save => exact execSave_move h
  | load => exact execLoad_move h
  | decode => exact execDecode_move h
  | reserved => exact illegalCommand_move h

/-! ### The builder and the serializer -/

/-- `RemoveMin` takes one entry out and leaves the others (41_build.md R128). -/
theorem removeMin_perm {q q' : List QEntry} {a : QEntry} (h : removeMin q = some (a, q')) : q.Perm (a :: q') := by
  induction q generalizing a q' with
  | nil => cases h
  | cons e q ih =>
    simp only [removeMin] at h
    split at h
    · rename_i hn
      rw [removeMin_eq_none.mp hn]
      cases h
      exact .refl _
    · rename_i hm
      split at h
      · cases h
        exact ((ih hm).cons e).trans (.swap ..)
      · cases h
        exact .refl _

theorem removeMin_twice_perm {q q₁ q₂ : List QEntry} {a b : QEntry} (ha : removeMin q = some (a, q₁))
    (hb : removeMin q₁ = some (b, q₂)) : q.Perm ([a, b] ++ q₂) :=
  (removeMin_perm ha).trans ((removeMin_perm hb).cons a)

theorem scanStep_move {i : Nat} {q : List QEntry} {seq : Seq} {s t : State} (hq : s.sequencer = .scan i q seq)
    (h : scanStep i q seq s = .next t) : BlockMove s t := by
  unfold scanStep at h
  split at h
  · rcases State.withAlloc_next h with ⟨hcap, h⟩ | ⟨-, rfl⟩
    · cases h; exact .scannedLeaf i q seq hq ‹_› hcap
    · exact .raised _ (State.busy_of_sequencer hq rfl) (by decide)
  · cases h; exact .scannedNone i q seq hq (by simpa using ‹¬ freqPositive _ = true›)

theorem mergeStep_move {q : List QEntry} {seq : Seq} {s t : State} (hq : s.sequencer = .merge q seq)
    (h : mergeStep q seq s = .next t) : BlockMove s t := by
  unfold mergeStep at h
  split at h
  · rename_i hn
    rw [removeMin_eq_none.mp hn] at hq
    cases h; exact .builtNone seq hq
  · rename_i a q₁ ha
    split at h
    · rename_i hn
      have hp := removeMin_perm ha
      rw [removeMin_eq_none.mp hn, List.perm_singleton] at hp
      rw [hp] at hq
      cases h; exact .builtRoot a seq hq
    · rename_i b q₂ hb
      rcases State.withAlloc_next h with ⟨hcap, h⟩ | ⟨-, rfl⟩
      · cases h; exact .merged q q₁ q₂ seq a b hq ha hb hcap
      · exact .raised _ (State.busy_of_sequencer hq rfl) (by decide)

theorem visitStep_move {stack : List (Nat × List Bool)} {s t : State} (hq : s.sequencer = .visit stack)
    (h : visitStep stack s = .next t) : BlockMove s t := by
  match stack with
  | [] => cases h; exact .visitsEnded hq
  | (k, path) :: rest =>
    obtain ⟨hk, h⟩ := State.withNode_next h
    split at h
    · cases h; exact .visitedLeaf k path rest hq hk ‹_›
    · rename_i hcls
      cases h
      exact .visitedInner k _ _ path rest hq hk (NodeRec.child_of_internal hcls false)
        (NodeRec.child_of_internal hcls true)
    · cases h; exact .raised _ (State.busy_of_sequencer hq rfl) (by decide)

/-! ### The step -/

/-- One step of the block is a move from the state after it took its unit, if any. -/
theorem blockNext_move {s t : State} (h : (blockNext s).outcome = .next t) :
    ∃ bits text, BlockMove { s with bitsIn := bits, textIn := text } t := by
  unfold blockNext at h
  split at h
  · rename_i hq; cases h; exact ⟨s.bitsIn, s.textIn, .rest hq⟩
  · rename_i hq
    split at h
    · exact ⟨s.bitsIn, s.textIn, bitStreamEnd_move hq h⟩
    · rename_i b rest _; exact ⟨rest, s.textIn, fetchUnit_bit_move hq h⟩
  · rename_i v n hq
    split at h
    · exact ⟨s.bitsIn, s.textIn, symStreamEnd_move hq h⟩
    · rename_i ch rest _; exact ⟨s.bitsIn, rest, fetchUnit_textSym_move hq h⟩
  · rename_i v pos hq
    split at h
    · exact ⟨s.bitsIn, s.textIn, markLeaf_move hq (.inr rfl) h⟩
    · rename_i ch rest _; exact ⟨s.bitsIn, rest, fetchUnit_textCode_move hq h⟩
  · rename_i hq; exact ⟨s.bitsIn, s.textIn, scanStep_move hq h⟩
  · rename_i hq; exact ⟨s.bitsIn, s.textIn, mergeStep_move hq h⟩
  · rename_i hq; exact ⟨s.bitsIn, s.textIn, visitStep_move hq h⟩

/-- A stream is handed over only between commands. -/
theorem handOver_move {a : HostAction} {s s' t : State} (hm : s.busy = false → HostMove s a s')
    (h : handOver s s' = .next t) : HostMove s a t := by
  obtain ⟨hb, rfl⟩ := handOver_next h
  exact hm hb

/-- One action of the host but `tick`, which is the block's turn, is a move of the host. -/
theorem hostNext_move {a : HostAction} {s t : State} (htick : a ≠ .tick) (hwait : a = .waitIdle → s.busy = false)
    (h : (hostNext a s).outcome = .next t) : HostMove s a t := by
  cases a with
  | write addr w =>
    simp only [hostNext] at h
    split at h
    · exact .command addr w ‹_› (fetchUnit_cmd_move h)
    · cases h; exact .wrote addr w ‹_›
  | read addr => cases h; exact .didRead addr
  | reset => cases h; exact .didReset
  | setBits bits => exact handOver_move (.gotBits bits) h
  | addBits bits => exact handOver_move (.moreBits bits) h
  | setText text => exact handOver_move (.gotText text) h
  | addText text => exact handOver_move (.moreText text) h
  | drain => exact handOver_move .drained h
  | tick => exact absurd rfl htick
  | waitIdle => cases h; exact .waited (hwait rfl)

/-- Whose turn a step is (log 3): the block's, with the script as `BlockTurn` says, or the host's next action's. -/
theorem State.fetchNext_cases (s : State) :
    (∃ script, s.BlockTurn script ∧ s.fetchNext = blockNext { s with host := script })
    ∨ ∃ a rest, s.host = a :: rest ∧ a ≠ .tick ∧ (a = .waitIdle → s.busy = false)
        ∧ s.fetchNext = hostNext a { s with host := rest } := by
  cases hh : s.host with
  | nil =>
    have hb : s.BlockTurn [] := State.blockTurn_of_host_nil hh
    exact .inl ⟨[], hb, State.fetchNext_of_blockTurn hb⟩
  | cons a rest =>
    by_cases htick : a = .tick
    · have hb : s.BlockTurn rest := .inr (.inl (htick ▸ hh))
      exact .inl ⟨rest, hb, State.fetchNext_of_blockTurn hb⟩
    · by_cases hw : a = .waitIdle ∧ s.busy = true
      · have hb : s.BlockTurn s.host := .inr (.inr ⟨rest, hw.1 ▸ hh, hw.2, rfl⟩)
        exact .inl ⟨s.host, hb, State.fetchNext_of_blockTurn hb⟩
      · refine .inr ⟨a, rest, rfl, htick, fun ha => by simpa [ha] using hw, ?_⟩
        simp only [State.fetchNext, hh, if_neg hw]

/-- Everything a step that answers a next state can be. -/
theorem step_cases {s t : State} (h : step s = .next t) :
    (∃ script bits text, s.BlockTurn script ∧ BlockMove { s with host := script, bitsIn := bits, textIn := text } t)
    ∨ ∃ a rest, s.host = a :: rest ∧ HostMove { s with host := rest } a t := by
  rw [step_eq_outcome] at h
  rcases s.fetchNext_cases with ⟨script, hb, hf⟩ | ⟨a, rest, hh, htick, hwait, hf⟩
  · rw [hf] at h
    obtain ⟨bits, text, hm⟩ := blockNext_move h
    exact .inl ⟨script, bits, text, hb, hm⟩
  · rw [hf] at h
    exact .inr ⟨a, rest, hh, hostNext_move htick hwait h⟩

/-! ## Frames of the moves -/

/-- `t` differs from `s` at most in the frequency file, the streams and the host's own fields: in nothing that the invariants
of the tree and of the fault state speak of. -/
def State.SameCore (s t : State) : Prop :=
  ∃ freq bits text out host reads n, t = { s with freq := freq, bitsIn := bits, textIn := text, out := out, host := host
                                                  reads := reads, freeCount := n }

theorem hostWrite_sameCore (addr : Offset) (w : Word) (s : State) : s.SameCore (hostWrite addr w s) := by
  unfold hostWrite
  split
  · split
    · exact ⟨_, _, _, _, _, _, _, rfl⟩
    · exact ⟨_, _, _, _, _, _, _, rfl⟩
  all_goals exact ⟨_, _, _, _, _, _, _, rfl⟩

theorem hostRead_sameCore (addr : Offset) (s : State) : s.SameCore (hostRead addr s) := by
  unfold hostRead
  split
  · exact ⟨_, _, _, _, _, _, _, rfl⟩
  · exact ⟨_, _, _, _, _, _, _, rfl⟩

@[simp] theorem hostRead_freq (addr : Offset) (s : State) : (hostRead addr s).freq = s.freq := by
  unfold hostRead
  split <;> rfl

/-- What a host action does to the block's core: a command, a reset, or nothing. -/
theorem HostMove.core_cases {s t : State} {a : HostAction} (h : HostMove s a t) :
    CommandMove s t ∨ t = s.blockReset ∨ s.SameCore t := by
  cases h with
  | command _ _ _ hm => exact .inl hm
  | didReset => exact .inr (.inl rfl)
  | wrote addr w => exact .inr (.inr (hostWrite_sameCore addr w s))
  | didRead addr => exact .inr (.inr (hostRead_sameCore addr s))
  | gotBits | moreBits | gotText | moreText | drained | waited => exact .inr (.inr ⟨_, _, _, _, _, _, _, rfl⟩)

/-- Everything a step can do to the block's core: a move of the running unit, a command, a reset, or nothing. -/
theorem step_core_cases {s t : State} (h : step s = .next t) :
    ∃ u, s.SameCore u ∧ (BlockMove u t ∨ CommandMove u t ∨ t = u.blockReset ∨ u.SameCore t) := by
  rcases step_cases h with ⟨script, bits, text, -, hm⟩ | ⟨a, rest, -, hm⟩
  · exact ⟨_, ⟨_, _, _, _, _, _, _, rfl⟩, .inl hm⟩
  · exact ⟨_, ⟨_, _, _, _, _, _, _, rfl⟩, .inr hm.core_cases⟩

section
variable {s t : State}

theorem BlockMove.freq_eq (h : BlockMove s t) : t.freq = s.freq := by
  cases h
  case raised => exact State.raise_freq s _
  all_goals rfl

theorem CommandMove.freq_eq (h : CommandMove s t) : t.freq = s.freq := by
  cases h
  case illegal => exact State.raise_freq s _
  all_goals rfl

theorem CommandMove.nodes_eq (h : CommandMove s t) : t.nodes = s.nodes := by
  cases h
  case illegal => exact State.raise_nodes s _
  all_goals rfl

/-- A unit that runs leaves `FAULT` and `CAUSE` alone, or raises a fault and ends. -/
theorem BlockMove.fault_cases (h : BlockMove s t) :
    (t.fault = s.fault ∧ t.cause = s.cause) ∨ (t.fault = true ∧ t.cause ≠ .none ∧ t.busy = false) := by
  cases h
  case raised hc => exact .inr ⟨rfl, hc, rfl⟩
  all_goals exact .inl ⟨rfl, rfl⟩

/-- Only a running unit moves. -/
theorem BlockMove.busy_or_eq (h : BlockMove s t) : s.busy = true ∨ t = s := by
  cases h
  case rest => exact .inr rfl
  case raised hb _ => exact .inl hb
  all_goals exact .inl (State.busy_of_sequencer ‹_› rfl)

/-- The tree is left alone by every unit that does not construct one (10_state.md R35). -/
theorem BlockMove.tree_eq (h : BlockMove s t) (hq : s.sequencer.constructs = false) :
    t.nodes = s.nodes ∧ t.rootValid = s.rootValid ∧ t.root = s.root ∧ t.nextFree = s.nextFree := by
  cases h
  case raised => simp [hq]
  case firstRoot | newEdge | leafMarked | scannedLeaf | builtNone | builtRoot | merged =>
    rw [‹s.sequencer = _›] at hq
    cases hq
  all_goals exact ⟨rfl, rfl, rfl, rfl⟩

/-- No action of the host writes a record. -/
theorem HostMove.nodes_eq {a : HostAction} (h : HostMove s a t) : t.nodes = s.nodes := by
  rcases h.core_cases with hm | rfl | ⟨_, _, _, _, _, _, _, rfl⟩
  · exact hm.nodes_eq
  · rfl
  · rfl

end

/-! ## The fault state -/

section
variable {s t : State}

theorem State.FaultCoherent.sameCore (h : s.FaultCoherent) (hst : s.SameCore t) : t.FaultCoherent := by
  obtain ⟨_, _, _, _, _, _, _, rfl⟩ := hst
  exact h

/-- With no fault pending, whatever leaves `FAULT` and `CAUSE` alone keeps them coherent. -/
theorem State.FaultCoherent.of_noFault (h : s.FaultCoherent) (hs : s.fault = false) (hf : t.fault = s.fault)
    (hc : t.cause = s.cause) : t.FaultCoherent := by
  have htf : t.fault = false := hf.trans hs
  have htc : t.cause = .none := hc.trans (h.1.mpr hs)
  exact ⟨by simp [htf, htc], by simp [htf]⟩

/-- A running unit has no fault pending (60_exceptions.md R224). -/
theorem State.FaultCoherent.fault_of_busy (h : s.FaultCoherent) (hb : s.busy = true) : s.fault = false := by
  cases hf : s.fault with
  | false => rfl
  | true => rw [h.2 hf] at hb; cases hb

theorem State.FaultCoherent.block (h : s.FaultCoherent) (hm : BlockMove s t) : t.FaultCoherent := by
  rcases hm.busy_or_eq with hb | rfl
  · rcases hm.fault_cases with ⟨hf, hc⟩ | ⟨hf, hc, hidle⟩
    · exact h.of_noFault (h.fault_of_busy hb) hf hc
    · exact ⟨by simp [hf, hc], fun _ => hidle⟩
  · exact h

theorem State.FaultCoherent.command (h : s.FaultCoherent) (hm : CommandMove s t) : t.FaultCoherent := by
  cases hm with
  | ignored => exact h
  | cleared => exact ⟨by simp, by simp⟩
  | illegal => exact ⟨by simp, fun _ => rfl⟩
  | build _ hf | save _ hf | load _ hf | decode _ hf => exact h.of_noFault hf rfl rfl

end

/-- Settles O49: the moves of the running unit, the commands and reset each keep it. -/
theorem stepKeepsFaultCoherent : Obligations.StepKeepsFaultCoherent := by
  unfold Obligations.StepKeepsFaultCoherent
  intro s t hs h
  obtain ⟨u, hu, hm⟩ := step_core_cases h
  have hcu : u.FaultCoherent := hs.sameCore hu
  rcases hm with hm | hm | rfl | hut
  · exact hcu.block hm
  · exact hcu.command hm
  · exact ⟨by simp, by simp⟩
  · exact hcu.sameCore hut

/-! ## What commands leave alone -/

/-- Settles O53: of the moves of the block only the constructors' write a record, and no action of the host does. -/
theorem onlyConstructorsWriteTheTree : Obligations.OnlyConstructorsWriteTheTree := by
  unfold Obligations.OnlyConstructorsWriteTheTree
  intro s t hq h
  rcases step_cases h with ⟨script, bits, text, -, hm⟩ | ⟨a, rest, hh, hm⟩
  · obtain ⟨hn, htree⟩ := hm.tree_eq hq
    exact ⟨hn, fun _ => htree⟩
  · exact ⟨hm.nodes_eq, fun hnil => by rw [hnil] at hh; cases hh⟩

/-- The frequency file is at the offsets from `0x400` on (20_memory.md R52). -/
theorem le_of_hostReg_eq_freq {addr : Offset} {i : Nat} (h : hostReg addr = .freq i) : 0x400 ≤ addr.toNat := by
  unfold hostReg at h
  dsimp only at h
  split_ifs at h
  omega

/-- A host write that changes a frequency entry is one to the frequency file. -/
theorem le_of_hostWrite_freq_ne {addr : Offset} {w : Word} {s : State} (h : (hostWrite addr w s).freq ≠ s.freq) :
    0x400 ≤ addr.toNat := by
  unfold hostWrite at h
  split at h
  · exact le_of_hostReg_eq_freq ‹_›
  all_goals exact absurd rfl h

/-- Settles O54: no move of the block and no command writes `FREQ`; of the host's other actions only reset and a write to the
file do. -/
theorem commandsNeverWriteFreq : Obligations.CommandsNeverWriteFreq := by
  unfold Obligations.CommandsNeverWriteFreq
  intro s t h hne
  rcases step_cases h with ⟨script, bits, text, -, hm⟩ | ⟨a, rest, hh, hm⟩
  · exact absurd hm.freq_eq hne
  · refine ⟨a, rest, hh, ?_⟩
    cases hm with
    | command _ _ _ hc => exact absurd hc.freq_eq hne
    | wrote addr w => exact .inr ⟨addr, w, le_of_hostWrite_freq_ne hne, rfl⟩
    | didReset => exact .inl rfl
    | didRead addr => exact absurd (hostRead_freq addr _) hne
    | gotBits | moreBits | gotText | moreText | drained | waited => exact absurd rfl hne

/-! ## Reset and the streams -/

/-- Settles O1, field by field; `FREQ` is a constant vector. -/
theorem resetHoldsTheSpecValues : Obligations.ResetHoldsTheSpecValues := by
  unfold Obligations.ResetHoldsTheSpecValues
  refine ⟨rfl, rfl, rfl, fun i hi => ?_, by decide, by decide, rfl⟩
  simp [State.freqAt, State.reset, Vector.getD, hi]

/-- An action of the host that is neither a tick nor a wait is what the next step does. -/
theorem step_of_host {s : State} {a : HostAction} {rest : List HostAction} (hh : s.host = a :: rest)
    (ha : a ≠ .waitIdle) : step s = (hostNext a { s with host := rest }).outcome := by
  rw [step_eq_outcome]
  simp only [State.fetchNext, hh, ha, false_and, if_false]

theorem handOver_of_idle {s : State} (hb : s.busy = false) (s' : State) : handOver s s' = .next s' := by
  simp only [handOver, hb, Bool.false_eq_true, if_false]

/-- Settles O60: each of the five actions goes through `handOver`, which looks at `BUSY` alone. -/
theorem hostHandsStreamsOver : Obligations.HostHandsStreamsOver := by
  unfold Obligations.HostHandsStreamsOver
  intro s rest bits text
  refine ⟨fun hb => ⟨fun hh => ?_, fun hh => ?_, fun hh => ?_, fun hh => ?_, fun hh => ?_⟩, fun hb hh => ?_⟩
  iterate 5
    rw [step_of_host hh nofun]
    exact handOver_of_idle hb _
  · rcases hh with hh | hh | hh | hh | hh
    all_goals
      rw [step_of_host hh nofun]
      exact handOver_eq_refused.mpr ⟨hb, rfl⟩

/-! ## The links of a store after a write -/

section
variable {m : Memory} {nf : Nat}

/-- Every link from a record below `nf` leads below `nf` (10_state.md R30 (b)). -/
def Memory.Closed (m : Memory) (nf : Nat) : Prop :=
  ∀ k < nf, ∀ b c, (Memory.read m k).child b = some c → c < nf

theorem State.linksInRange_iff {s : State} : s.LinksInRange ↔ Memory.Closed s.nodes s.nextFree := Iff.rfl

@[simp] theorem NodeRec.child_empty (b : Bool) : NodeRec.empty.child b = none := by cases b <;> rfl

@[simp] theorem NodeRec.child_leafOf (y : Byte) (w : Weight) (b : Bool) : (NodeRec.leafOf y w).child b = none := by
  cases b <;> rfl

@[simp] theorem NodeRec.child_internalOf (l r : Nat) (w : Weight) (b : Bool) :
    (NodeRec.internalOf l r w).child b = some (if b then r else l) := by
  cases b <;> rfl

@[simp] theorem NodeRec.child_setSym (r : NodeRec) (y : Byte) (b : Bool) : (r.setSym y).child b = r.child b := rfl

@[simp] theorem NodeRec.child_setChild_same (r : NodeRec) (b : Bool) (k : Nat) : (r.setChild b k).child b = some k := by
  cases b <;> rfl

theorem NodeRec.child_setChild_other (r : NodeRec) {b b' : Bool} (h : b' ≠ b) (k : Nat) :
    (r.setChild b k).child b' = r.child b' := by
  obtain rfl := Bool.eq_not_of_ne h
  cases b <;> rfl

/-- The links after `Alloc`: those of the new record, and the old ones. -/
theorem Memory.child_alloc (hm : Memory.wf m = true) {r : NodeRec} {k : Nat} {b : Bool} {c : Nat} :
    (k < nf + 1 ∧ (Memory.read (Memory.write m nf r) k).child b = some c) ↔
      (k = nf ∧ r.child b = some c) ∨ (k < nf ∧ (Memory.read m k).child b = some c) := by
  by_cases hk : k = nf
  · subst hk
    simp [Memory.read_write_same hm]
  · simp only [Memory.read_write_other m r hk, hk, false_and, false_or]
    refine and_congr_left fun _ => ?_
    omega

/-- The links after the loader's new edge: that edge, and the old ones. -/
theorem Memory.child_newEdge (hm : Memory.wf m = true) {pos : Nat} {e : Bool} (hpos : pos < nf)
    (he : (Memory.read m pos).child e = none) {k : Nat} {b : Bool} {c : Nat} :
    (k < nf + 1 ∧ (Memory.read (Memory.write (Memory.write m nf NodeRec.empty) pos
        ((Memory.read m pos).setChild e nf)) k).child b = some c) ↔
      (k = pos ∧ b = e ∧ c = nf) ∨ (k < nf ∧ (Memory.read m k).child b = some c) := by
  by_cases hk : k = pos
  · subst hk
    rw [Memory.read_write_same (Memory.wf_write hm _ _)]
    by_cases hb : b = e
    · subst hb
      simp [he, eq_comm]
      omega
    · simp [NodeRec.child_setChild_other _ hb, hb, hpos]
      omega
  · rw [Memory.read_write_other _ _ hk, Memory.child_alloc hm]
    simp [hk]

theorem Memory.child_markLeaf (hm : Memory.wf m = true) (pos : Nat) (y : Byte) (k : Nat) (b : Bool) :
    (Memory.read (Memory.write m pos ((Memory.read m pos).setSym y)) k).child b = (Memory.read m k).child b := by
  by_cases hk : k = pos
  · subst hk
    rw [Memory.read_write_same hm, NodeRec.child_setSym]
  · rw [Memory.read_write_other m _ hk]

theorem Memory.Closed.alloc (h : Memory.Closed m nf) (hm : Memory.wf m = true) {r : NodeRec}
    (hr : ∀ b c, r.child b = some c → c < nf + 1) : Memory.Closed (Memory.write m nf r) (nf + 1) := by
  intro k hk b c hc
  rcases (Memory.child_alloc hm).mp ⟨hk, hc⟩ with ⟨-, hc⟩ | ⟨hk, hc⟩
  · exact hr b c hc
  · exact Nat.lt_succ_of_lt (h k hk b c hc)

theorem Memory.Closed.alloc_childless (h : Memory.Closed m nf) (hm : Memory.wf m = true) {r : NodeRec}
    (hr : ∀ b, r.child b = none) : Memory.Closed (Memory.write m nf r) (nf + 1) :=
  h.alloc hm fun b c hc => by rw [hr b] at hc; cases hc

theorem Memory.Closed.newEdge (h : Memory.Closed m nf) (hm : Memory.wf m = true) {pos : Nat} {e : Bool} (hpos : pos < nf)
    (he : (Memory.read m pos).child e = none) :
    Memory.Closed (Memory.write (Memory.write m nf NodeRec.empty) pos ((Memory.read m pos).setChild e nf)) (nf + 1) := by
  intro k hk b c hc
  rcases (Memory.child_newEdge hm hpos he).mp ⟨hk, hc⟩ with ⟨-, -, rfl⟩ | ⟨hk, hc⟩
  · exact Nat.lt_succ_self _
  · exact Nat.lt_succ_of_lt (h k hk b c hc)

theorem Memory.Closed.markLeaf (h : Memory.Closed m nf) (hm : Memory.wf m = true) (pos : Nat) (y : Byte) :
    Memory.Closed (Memory.write m pos ((Memory.read m pos).setSym y)) nf := by
  intro k hk b c hc
  rw [Memory.child_markLeaf hm] at hc
  exact h k hk b c hc

end

/-! ## Indices in range -/

section
variable {s t : State}

/-! ### What `InRange` says of each unit that runs -/

theorem State.InRange.idle (h : s.InRange) (hq : s.sequencer = .idle) : s.rootValid = false → s.nextFree = 0 := by
  have := h.sequencer_ok
  rwa [State.SequencerInRange, hq] at this

theorem State.InRange.walk (h : s.InRange) (hq : s.sequencer = .walk) :
    (s.rootValid = false → s.nextFree = 0) ∧ s.cursorValid = s.rootValid := by
  have := h.sequencer_ok
  rwa [State.SequencerInRange, hq] at this

theorem State.InRange.sym (h : s.InRange) {v : Nat} {n : Bool} (hq : s.sequencer = .sym v n) :
    (s.rootValid = false → s.nextFree = 0) ∧ v ≤ 256 := by
  have := h.sequencer_ok
  rwa [State.SequencerInRange, hq] at this

theorem State.InRange.code (h : s.InRange) {v pos : Nat} (hq : s.sequencer = .code v pos) :
    s.rootValid = true ∧ pos < s.nextFree ∧ v ≤ 255 := by
  have := h.sequencer_ok
  rwa [State.SequencerInRange, hq] at this

theorem State.InRange.scan (h : s.InRange) {i : Nat} {q : List QEntry} {seq : Seq} (hq : s.sequencer = .scan i q seq) :
    s.rootValid = false ∧ i < 256 ∧ seq.toNat = q.length ∧ seq.toNat ≤ i ∧ s.nextFree = seq.toNat
      ∧ ∀ e ∈ q, e.k < s.nextFree := by
  have := h.sequencer_ok
  rwa [State.SequencerInRange, hq] at this

theorem State.InRange.merge (h : s.InRange) {q : List QEntry} {seq : Seq} (hq : s.sequencer = .merge q seq) :
    s.rootValid = false ∧ seq.toNat + q.length ≤ 512 ∧ (q = [] → seq = 0) ∧ s.nextFree = seq.toNat
      ∧ ∀ e ∈ q, e.k < s.nextFree := by
  have := h.sequencer_ok
  rwa [State.SequencerInRange, hq] at this

theorem State.InRange.visit (h : s.InRange) {stack : List (Nat × List Bool)} (hq : s.sequencer = .visit stack) :
    (s.rootValid = false → s.nextFree = 0) ∧ ∀ e ∈ stack, e.1 < s.nextFree := by
  have := h.sequencer_ok
  rwa [State.SequencerInRange, hq] at this

/-- No tree but one that is being built leaves records without a root (10_state.md R30 (d)). -/
theorem State.InRange.empty_of_not_constructs (h : s.InRange) (hq : s.sequencer.constructs = false) :
    s.rootValid = false → s.nextFree = 0 := by
  cases hs : s.sequencer with
  | idle => exact h.idle hs
  | walk => exact (h.walk hs).1
  | visit stack => exact (h.visit hs).1
  | sym | code | scan | merge => rw [hs] at hq; cases hq

/-- Without a root there is no cursor (10_state.md R30 (e)). -/
theorem State.InRange.cursorValid_eq_false (h : s.InRange) (hr : s.rootValid = false) : s.cursorValid = false := by
  cases hc : s.cursorValid with
  | false => rfl
  | true => rw [(h.cursor_lt hc).1] at hr; cases hr

/-! ### The moves -/

theorem State.StoreCanonical.sameCore (h : s.StoreCanonical) (hst : s.SameCore t) : t.StoreCanonical := by
  obtain ⟨_, _, _, _, _, _, _, rfl⟩ := hst
  exact h

theorem State.InRange.sameCore (h : s.InRange) (hst : s.SameCore t) : t.InRange := by
  obtain ⟨_, _, _, _, _, _, _, rfl⟩ := hst
  exact { h with }

/-- A state without a tree and without a cursor is in range as soon as its sequencer is. -/
theorem State.InRange.of_noTree (hr : s.rootValid = false) (hn : s.nextFree = 0) (hc : s.cursorValid = false)
    (hq : s.SequencerInRange) : s.InRange where
  nextFree_le := by omega
  root_lt := fun h => by rw [hr] at h; cases h
  links := fun k hk => by omega
  cursor_lt := fun h => by rw [hc] at h; cases h
  sequencer_ok := hq

theorem State.InRange.raise (h : s.InRange) (c : Cause) : (s.raise c).InRange := by
  cases hq : s.sequencer.constructs with
  | true => exact .of_noTree (by simp [hq]) (by simp [hq]) (by simp [hq]) fun _ => by simp [hq]
  | false =>
    simp only [State.raise, hq, Bool.false_eq_true, if_false]
    exact { h with sequencer_ok := h.empty_of_not_constructs hq }

theorem State.InRange.blockReset (s : State) : s.blockReset.InRange := .of_noTree rfl rfl rfl fun _ => rfl

theorem State.InRange.command (h : s.InRange) (hm : CommandMove s t) : t.InRange := by
  cases hm with
  | ignored => exact h
  | cleared hb => exact .of_noTree rfl rfl rfl (by
      simp [State.SequencerInRange, State.sequencer_of_not_busy hb])
  | illegal => exact h.raise _
  | build => exact .of_noTree rfl rfl rfl ⟨rfl, by decide, rfl, by decide, rfl, nofun⟩
  | load => exact .of_noTree rfl rfl rfl ⟨fun _ => rfl, by decide⟩
  | save hb =>
    refine { h with sequencer_ok := ⟨h.idle (State.sequencer_of_not_busy hb), fun e he => ?_⟩ }
    split at he
    · rw [List.mem_singleton.mp he]; exact h.root_lt ‹_›
    · cases he
  | decode hb =>
    exact { h with
      cursor_lt := fun hr => ⟨hr, h.root_lt hr⟩
      sequencer_ok := ⟨h.idle (State.sequencer_of_not_busy hb), rfl⟩ }

theorem scanNext_inRange {i : Nat} {q : List QEntry} {seq : Seq} (hs : s.sequencer = scanNext i q seq)
    (hr : s.rootValid = false) (hi : i < 256) (hlen : seq.toNat = q.length) (hle : seq.toNat ≤ i + 1)
    (hn : s.nextFree = seq.toNat) (hk : ∀ e ∈ q, e.k < s.nextFree) : s.SequencerInRange := by
  by_cases hnext : i + 1 < Config.nsym
  · rw [scanNext, if_pos hnext] at hs
    rw [State.SequencerInRange, hs]
    exact ⟨hr, hnext, hlen, hle, hn, hk⟩
  · rw [scanNext, if_neg hnext] at hs
    rw [State.SequencerInRange, hs]
    exact ⟨hr, by omega, fun hq => BitVec.eq_of_toNat_eq (by rw [hlen, hq]; rfl), hn, hk⟩

theorem State.InRange.block (h : s.InRange) (hwf : s.StoreCanonical) (hm : BlockMove s t) : t.InRange := by
  cases hm with
  | rest => exact h
  | raised c => exact h.raise c
  | bitsEnded hq =>
    exact { h with cursor_lt := fun hr => ⟨hr, h.root_lt hr⟩, sequencer_ok := (h.walk hq).1 }
  | reachedLeaf b c hq hv =>
    exact { h with
      cursor_lt := fun hv => ⟨(h.cursor_lt hv).1, h.root_lt (h.cursor_lt hv).1⟩ }
  | reachedInner b c hq hv hk hc hlt =>
    exact { h with cursor_lt := fun hv => ⟨(h.cursor_lt hv).1, hlt⟩ }
  | digit v n d hq => exact { h with sequencer_ok := ⟨(h.sym hq).1, Nat.min_le_right _ _⟩ }
  | textEnded v hq => exact { h with sequencer_ok := (h.sym hq).1 }
  | codeLine v hq hv hr => exact { h with sequencer_ok := ⟨hr, h.root_lt hr, hv⟩ }
  | firstRoot v hq hv hr hcap =>
    exact {
      nextFree_le := hcap
      root_lt := fun _ => Nat.lt_succ_self _
      links := Memory.Closed.alloc_childless h.links hwf NodeRec.child_empty
      cursor_lt := fun hv => by rw [h.cursorValid_eq_false hr] at hv; cases hv
      sequencer_ok := ⟨rfl, Nat.lt_succ_self _, hv⟩ }
  | oldEdge v pos b c hq hpos hc =>
    obtain ⟨hr, -, hv⟩ := h.code hq
    exact { h with sequencer_ok := ⟨hr, h.links pos hpos b c hc, hv⟩ }
  | newEdge v pos b hq hpos hc hcap =>
    obtain ⟨hr, -, hv⟩ := h.code hq
    exact {
      nextFree_le := hcap
      root_lt := fun hr => Nat.lt_succ_of_lt (h.root_lt hr)
      links := Memory.Closed.newEdge h.links hwf hpos hc
      cursor_lt := fun hv => ⟨hr, Nat.lt_succ_of_lt (h.cursor_lt hv).2⟩
      sequencer_ok := ⟨hr, Nat.lt_succ_self _, hv⟩ }
  | leafMarked v pos next hq hpos hnext =>
    obtain ⟨hr, -, -⟩ := h.code hq
    refine { h with links := Memory.Closed.markLeaf h.links hwf pos _, sequencer_ok := ?_ }
    have hroot (hr' : s.rootValid = false) : s.nextFree = 0 := by rw [hr] at hr'; cases hr'
    rcases hnext with rfl | rfl
    · exact ⟨hroot, by decide⟩
    · exact hroot
  | scannedLeaf i q seq hq hf hcap =>
    obtain ⟨hr, hi, hlen, hle, hn, hk⟩ := h.scan hq
    have hseq : (seq + 1).toNat = seq.toNat + 1 := by bv_omega
    exact {
      nextFree_le := hcap
      root_lt := fun hr' => Nat.lt_succ_of_lt (h.root_lt hr')
      links := Memory.Closed.alloc_childless h.links hwf (NodeRec.child_leafOf _ _)
      cursor_lt := fun hv => by rw [h.cursorValid_eq_false hr] at hv; cases hv
      sequencer_ok := scanNext_inRange rfl hr hi (hseq.trans (congrArg (· + 1) hlen)) (by omega)
        ((congrArg (· + 1) hn).trans hseq.symm)
        (List.forall_mem_cons.mpr ⟨Nat.lt_succ_self _, fun e he => Nat.lt_succ_of_lt (hk e he)⟩) }
  | scannedNone i q seq hq =>
    obtain ⟨hr, hi, hlen, hle, hn, hk⟩ := h.scan hq
    exact { h with sequencer_ok := scanNext_inRange rfl hr hi hlen (by omega) hn hk }
  | builtNone seq hq =>
    obtain ⟨hr, -, hseq, hn, -⟩ := h.merge hq
    exact .of_noTree rfl (by simp [hn, hseq rfl]) (h.cursorValid_eq_false hr) fun _ => by simp [hn, hseq rfl]
  | builtRoot a seq hq =>
    obtain ⟨hr, -, -, -, hk⟩ := h.merge hq
    exact { h with
      root_lt := fun _ => hk a (by simp)
      cursor_lt := fun hv => by rw [h.cursorValid_eq_false hr] at hv; cases hv
      sequencer_ok := nofun }
  | merged q q₁ q₂ seq a b hq ha hb hcap =>
    obtain ⟨hr, hlen, -, hn, hk⟩ := h.merge hq
    have hperm := removeMin_twice_perm ha hb
    have hlen₂ : q.length = q₂.length + 2 := hperm.length_eq
    have hseq : (seq + 1).toNat = seq.toNat + 1 := by bv_omega
    have hkey {e : QEntry} (he : e ∈ [a, b] ++ q₂) : e.k < s.nextFree := hk e (hperm.mem_iff.mpr he)
    have hlinks := Memory.Closed.alloc h.links hwf (r := NodeRec.internalOf a.k b.k (a.weight + b.weight)) fun d c hc => by
      rw [NodeRec.child_internalOf] at hc
      cases hc
      cases d
      · exact Nat.lt_succ_of_lt (hkey (e := a) (by simp))
      · exact Nat.lt_succ_of_lt (hkey (e := b) (by simp))
    exact {
      nextFree_le := hcap
      root_lt := fun hr' => Nat.lt_succ_of_lt (h.root_lt hr')
      links := hlinks
      cursor_lt := fun hv => by rw [h.cursorValid_eq_false hr] at hv; cases hv
      sequencer_ok := ⟨hr, by rw [hseq, List.length_cons]; omega, nofun, (congrArg (· + 1) hn).trans hseq.symm,
        List.forall_mem_cons.mpr ⟨Nat.lt_succ_self _, fun e he => Nat.lt_succ_of_lt (hkey (by simp [he]))⟩⟩ }
  | visitsEnded hq => exact { h with sequencer_ok := (h.visit hq).1 }
  | visitedLeaf k path rest hq =>
    obtain ⟨hr, hstack⟩ := h.visit hq
    exact { h with sequencer_ok := ⟨hr, fun e he => hstack e (by simp [he])⟩ }
  | visitedInner k l r path rest hq hk hl hr' =>
    obtain ⟨hr, hstack⟩ := h.visit hq
    refine { h with sequencer_ok := ⟨hr, ?_⟩ }
    simp only [List.mem_cons, forall_eq_or_imp]
    exact ⟨h.links k hk _ _ hl, h.links k hk _ _ hr', fun e he => hstack e (by simp [he])⟩

end
/-! ## Widths -/

section
variable {s t : State}

theorem State.WidthsFit.scan (h : s.WidthsFit) {i : Nat} {q : List QEntry} {seq : Seq}
    (hq : s.sequencer = .scan i q seq) : SeqsDistinct q seq := by
  have := h.seqs_fit
  rwa [State.SeqsFit, hq] at this

theorem State.WidthsFit.merge (h : s.WidthsFit) {q : List QEntry} {seq : Seq} (hq : s.sequencer = .merge q seq) :
    SeqsDistinct q seq := by
  have := h.seqs_fit
  rwa [State.SeqsFit, hq] at this

theorem scanNext_seqsFit {i : Nat} {q : List QEntry} {seq : Seq} (hs : s.sequencer = scanNext i q seq)
    (h : SeqsDistinct q seq) : s.SeqsFit := by
  by_cases hnext : i + 1 < Config.nsym
  · rw [scanNext, if_pos hnext] at hs
    rwa [State.SeqsFit, hs]
  · rw [scanNext, if_neg hnext] at hs
    rwa [State.SeqsFit, hs]

/-- Taking entries out keeps the numbers distinct. -/
theorem SeqsDistinct.of_perm_append {q q₁ q₂ : List QEntry} {seq : Seq} (h : SeqsDistinct q seq)
    (hp : q.Perm (q₁ ++ q₂)) : SeqsDistinct q₂ seq := by
  obtain ⟨hlt, hnd⟩ := h
  refine ⟨fun e he => hlt e (hp.mem_iff.mpr (List.mem_append_right q₁ he)), ?_⟩
  have hnd' := (hp.map (·.seq)).nodup_iff.mp hnd
  rw [List.map_append] at hnd'
  exact (List.nodup_append.mp hnd').2.1

theorem State.WidthsFit.sameCore (h : s.WidthsFit) (hst : s.SameCore t) : t.WidthsFit := by
  obtain ⟨_, _, _, _, _, _, _, rfl⟩ := hst
  exact { h with }

theorem State.WidthsFit.raise (h : s.WidthsFit) (c : Cause) : (s.raise c).WidthsFit := by
  cases hq : s.sequencer.constructs with
  | true => simp only [State.raise, hq, if_true]; exact { h with seqs_fit := trivial }
  | false => simp only [State.raise, hq, Bool.false_eq_true, if_false]; exact { h with seqs_fit := trivial }

theorem State.WidthsFit.blockReset (h : s.WidthsFit) : s.blockReset.WidthsFit :=
  { h with root_fits := Nat.two_pow_pos _, cursor_fits := Nat.two_pow_pos _, seqs_fit := trivial }

theorem State.WidthsFit.command (h : s.WidthsFit) (hm : CommandMove s t) : t.WidthsFit := by
  cases hm with
  | ignored => exact h
  | cleared => exact { h with }
  | illegal => exact h.raise _
  | build => exact { h with seqs_fit := ⟨nofun, List.nodup_nil⟩ }
  | save | load => exact { h with seqs_fit := trivial }
  | decode => exact { h with cursor_fits := h.root_fits, seqs_fit := trivial }

theorem State.WidthsFit.block (h : s.WidthsFit) (hin : s.InRange) (hm : BlockMove s t) : t.WidthsFit := by
  cases hm with
  | rest => exact h
  | raised c => exact h.raise c
  | bitsEnded => exact { h with cursor_fits := h.root_fits, seqs_fit := trivial }
  | reachedLeaf => exact { h with cursor_fits := h.root_fits }
  | reachedInner b c hq hv hk hc hlt => exact { h with cursor_fits := hin.lt_two_pow hlt }
  | digit | textEnded | codeLine | oldEdge | builtNone | visitsEnded | visitedLeaf | visitedInner =>
    exact { h with seqs_fit := trivial }
  | firstRoot v hq hv hr hcap =>
    exact { h.nodeWrite (r := NodeRec.empty) hcap (Nat.two_pow_pos _) (Nat.two_pow_pos _) with
      root_fits := Nat.lt_of_lt_of_le hcap (nodeCap_le_two_pow_idxW _)
      seqs_fit := trivial }
  | newEdge v pos b hq hpos hc hcap =>
    have hnf : s.nextFree < 2 ^ s.params.idxW := Nat.lt_of_lt_of_le hcap (nodeCap_le_two_pow_idxW _)
    have hchild : ((Memory.read s.nodes pos).setChild b s.nextFree).lIdx < 2 ^ s.params.idxW
        ∧ ((Memory.read s.nodes pos).setChild b s.nextFree).rIdx < 2 ^ s.params.idxW := by
      obtain ⟨hl, hr⟩ := h.read_children pos
      cases b
      · exact ⟨hnf, hr⟩
      · exact ⟨hl, hnf⟩
    have halloc := h.nodeWrite (r := NodeRec.empty) hcap (Nat.two_pow_pos _) (Nat.two_pow_pos _)
    exact { halloc.nodeWrite (k := pos) (Nat.lt_of_lt_of_le hpos hin.nextFree_le) hchild.1 hchild.2 with
      seqs_fit := trivial }
  | leafMarked v pos next hq hpos hnext =>
    obtain ⟨hl, hr⟩ := h.read_children pos
    refine { h.nodeWrite (r := (Memory.read s.nodes pos).setSym (BitVec.ofNat 8 v))
      (Nat.lt_of_lt_of_le hpos hin.nextFree_le) hl hr with seqs_fit := ?_ }
    rcases hnext with rfl | rfl <;> exact trivial
  | scannedLeaf i q seq hq hf hcap =>
    obtain ⟨-, hi, -, hle, -, -⟩ := hin.scan hq
    exact { h.nodeWrite (r := NodeRec.leafOf (BitVec.ofNat 8 i) (freqWeight (s.freqAt i))) hcap
        (Nat.two_pow_pos _) (Nat.two_pow_pos _) with
      seqs_fit := scanNext_seqsFit rfl ((h.scan hq).insert (by omega) _ _) }
  | scannedNone i q seq hq => exact { h with seqs_fit := scanNext_seqsFit rfl (h.scan hq) }
  | builtRoot a seq hq =>
    obtain ⟨-, -, -, -, hk⟩ := hin.merge hq
    exact { h with root_fits := hin.lt_two_pow (hk a (by simp)), seqs_fit := trivial }
  | merged q q₁ q₂ seq a b hq ha hb hcap =>
    obtain ⟨-, hlen, -, -, hk⟩ := hin.merge hq
    have hperm := removeMin_twice_perm ha hb
    have hlen₂ : q.length = q₂.length + 2 := hperm.length_eq
    have hkey {e : QEntry} (he : e ∈ [a, b] ++ q₂) : e.k < 2 ^ s.params.idxW :=
      hin.lt_two_pow (hk e (hperm.mem_iff.mpr he))
    exact { h.nodeWrite (r := NodeRec.internalOf a.k b.k (a.weight + b.weight)) hcap (hkey (e := a) (by simp))
        (hkey (e := b) (by simp)) with
      seqs_fit := ((h.merge hq).of_perm_append hperm).insert (by omega) _ _ }

end

/-- Settles O50: the moves of the running unit, the commands and reset each keep the indices in range and the widths. -/
theorem stepKeepsInRange : Obligations.StepKeepsInRange := by
  unfold Obligations.StepKeepsInRange
  intro s t hwf hs h
  obtain ⟨u, hu, hm⟩ := step_core_cases h
  have hin : u.InRange := hs.sameCore hu
  have hwf : u.StoreCanonical := hwf.sameCore hu
  rcases hm with hm | hm | rfl | hut
  · exact ⟨hin.block hwf hm, fun hw => (hw.sameCore hu).block hin hm⟩
  · exact ⟨hin.command hm, fun hw => (hw.sameCore hu).command hm⟩
  · exact ⟨.blockReset u, fun hw => (hw.sameCore hu).blockReset⟩
  · exact ⟨hin.sameCore hut, fun hw => (hw.sameCore hu).sameCore hut⟩

/-! ## The records in use as a forest

`TreeShaped` counts paths. The moves are easier to follow one link at a time: every node is reached, no node has two parents,
no root has one (`Memory.Forest`). On a closed store the two say the same (`forest_iff_reached_once`). -/

section
variable {m : Memory} {nf : Nat} {roots : List Nat}

/-! ### Paths -/

theorem Memory.follow_append (m : Memory) (k : Nat) (p p' : List Bool) :
    Memory.follow m k (p ++ p') = (Memory.follow m k p).bind fun i => Memory.follow m i p' := by
  induction p generalizing k with
  | nil => rfl
  | cons b p ih =>
    simp only [List.cons_append, Memory.follow]
    cases (Memory.read m k).child b with
    | none => rfl
    | some c => exact ih c

/-- A path that ends with an edge goes to that edge's source first. -/
theorem Memory.follow_concat {k j : Nat} {p : List Bool} {b : Bool} :
    Memory.follow m k (p ++ [b]) = some j ↔
      ∃ i, Memory.follow m k p = some i ∧ (Memory.read m i).child b = some j := by
  rw [Memory.follow_append, Option.bind_eq_some_iff]
  refine exists_congr fun i => and_congr_right fun _ => ?_
  cases h : (Memory.read m i).child b with
  | none => simp [Memory.follow, h]
  | some c => simp [Memory.follow, h]

/-- Paths on a closed store stay below `nf`. -/
theorem Memory.Closed.follow_lt (h : Memory.Closed m nf) {k j : Nat} {p : List Bool} (hk : k < nf)
    (hp : Memory.follow m k p = some j) : j < nf := by
  induction p using List.reverseRecOn generalizing j with
  | nil => cases hp; exact hk
  | append_singleton p b ih =>
    obtain ⟨i, hi, hc⟩ := Memory.follow_concat.mp hp
    exact h i (ih hi) b j hc

/-! ### The forest -/

/-- The records below `nf` that links of such records lead to from `roots`. -/
inductive Memory.Reached (m : Memory) (nf : Nat) (roots : List Nat) : Nat → Prop
  | root {r : Nat} (hr : r ∈ roots) : Memory.Reached m nf roots r
  | child {i j : Nat} {b : Bool} (hi : i < nf) (h : Memory.Reached m nf roots i)
      (hc : (Memory.read m i).child b = some j) : Memory.Reached m nf roots j

/-- The records below `nf` form trees with exactly the given roots: 10_state.md R30 (c), one link at a time. -/
structure Memory.Forest (m : Memory) (nf : Nat) (roots : List Nat) : Prop where
  roots_nodup : roots.Nodup
  reached : ∀ j < nf, Memory.Reached m nf roots j
  one_parent : ∀ i < nf, ∀ i' < nf, ∀ b b' j,
    (Memory.read m i).child b = some j → (Memory.read m i').child b' = some j → i = i' ∧ b = b'
  no_parent : ∀ i < nf, ∀ b, ∀ r ∈ roots, (Memory.read m i).child b ≠ some r

theorem Memory.Reached.exists_path {j : Nat} (h : Memory.Reached m nf roots j) :
    ∃ r ∈ roots, ∃ p, Memory.follow m r p = some j := by
  induction h with
  | root hr => exact ⟨_, hr, [], rfl⟩
  | child _ _ hc ih =>
    obtain ⟨r, hr, p, hp⟩ := ih
    exact ⟨r, hr, p ++ [_], Memory.follow_concat.mpr ⟨_, hp, hc⟩⟩

theorem Memory.reached_of_path (hcl : Memory.Closed m nf) {r j : Nat} {p : List Bool} (hr : r ∈ roots) (hlt : r < nf)
    (hp : Memory.follow m r p = some j) : Memory.Reached m nf roots j := by
  induction p using List.reverseRecOn generalizing j with
  | nil => cases hp; exact .root hr
  | append_singleton p b ih =>
    obtain ⟨i, hi, hc⟩ := Memory.follow_concat.mp hp
    exact .child (hcl.follow_lt hlt hi) (ih hi) hc

/-- In a forest a path is determined by its end: it is read off backwards, parent by parent. -/
theorem Memory.Forest.path_unique (h : Memory.Forest m nf roots) (hcl : Memory.Closed m nf) (hlt : ∀ r ∈ roots, r < nf)
    {r r' j : Nat} {p p' : List Bool} (hr : r ∈ roots) (hr' : r' ∈ roots) (hp : Memory.follow m r p = some j)
    (hp' : Memory.follow m r' p' = some j) : r = r' ∧ p = p' := by
  induction p using List.reverseRecOn generalizing j p' with
  | nil =>
    cases hp
    rcases List.eq_nil_or_concat p' with rfl | ⟨p', b', rfl⟩
    · cases hp'; exact ⟨rfl, rfl⟩
    · rw [List.concat_eq_append] at hp'
      obtain ⟨i, hi, hc⟩ := Memory.follow_concat.mp hp'
      exact absurd hc (h.no_parent i (hcl.follow_lt (hlt r' hr') hi) b' r hr)
  | append_singleton p b ih =>
    obtain ⟨i, hi, hc⟩ := Memory.follow_concat.mp hp
    have hilt := hcl.follow_lt (hlt r hr) hi
    rcases List.eq_nil_or_concat p' with rfl | ⟨p', b', rfl⟩
    · cases hp'
      exact absurd hc (h.no_parent i hilt b r' hr')
    · rw [List.concat_eq_append] at hp' ⊢
      obtain ⟨i', hi', hc'⟩ := Memory.follow_concat.mp hp'
      obtain ⟨rfl, rfl⟩ := h.one_parent i hilt i' (hcl.follow_lt (hlt r' hr') hi') b b' j hc hc'
      obtain ⟨hrr, rfl⟩ := ih hi hi'
      exact ⟨hrr, rfl⟩

/-- On a closed store, to be a forest is to reach every record by exactly one path. -/
theorem Memory.forest_iff_reached_once (hcl : Memory.Closed m nf) (hlt : ∀ r ∈ roots, r < nf) :
    Memory.Forest m nf roots ↔
      roots.Nodup ∧ ∀ j < nf, ∃! rp : Nat × List Bool, rp.1 ∈ roots ∧ Memory.follow m rp.1 rp.2 = some j := by
  constructor
  · intro h
    refine ⟨h.roots_nodup, fun j hj => ?_⟩
    obtain ⟨r, hr, p, hp⟩ := (h.reached j hj).exists_path
    refine ⟨(r, p), ⟨hr, hp⟩, ?_⟩
    rintro ⟨r', p'⟩ ⟨hr', hp'⟩
    obtain ⟨rfl, rfl⟩ := h.path_unique hcl hlt hr' hr hp' hp
    rfl
  · rintro ⟨hnd, h⟩
    refine ⟨hnd, fun j hj => ?_, fun i hi i' hi' b b' j hc hc' => ?_, fun i hi b r hr hc => ?_⟩
    · obtain ⟨⟨r, p⟩, ⟨hr, hp⟩, -⟩ := h j hj
      exact Memory.reached_of_path hcl hr (hlt r hr) hp
    · obtain ⟨⟨r, p⟩, ⟨hr, hp⟩, -⟩ := h i hi
      obtain ⟨⟨r', p'⟩, ⟨hr', hp'⟩, -⟩ := h i' hi'
      have heq := (h j (hcl i hi b j hc)).unique (y₁ := (r, p ++ [b])) (y₂ := (r', p' ++ [b']))
        ⟨hr, Memory.follow_concat.mpr ⟨i, hp, hc⟩⟩ ⟨hr', Memory.follow_concat.mpr ⟨i', hp', hc'⟩⟩
      obtain ⟨rfl, hpb⟩ := Prod.mk.inj heq
      obtain ⟨rfl, hb⟩ := List.append_inj' hpb rfl
      exact ⟨Option.some.inj (hp.symm.trans hp'), by simpa using hb⟩
    · obtain ⟨⟨r', p⟩, ⟨hr', hp⟩, -⟩ := h i hi
      have heq := (h r (hlt r hr)).unique (y₁ := (r, [])) (y₂ := (r', p ++ [b]))
        ⟨hr, rfl⟩ ⟨hr', Memory.follow_concat.mpr ⟨i, hp, hc⟩⟩
      simpa using (Prod.mk.inj heq).2

/-! ### How a forest grows -/

theorem Memory.forest_empty (m : Memory) : Memory.Forest m 0 [] where
  roots_nodup := List.nodup_nil
  reached := nofun
  one_parent := nofun
  no_parent := nofun

/-- What is reached stays reached where every link stays and every old root is reached. -/
theorem Memory.Reached.mono {m' : Memory} {nf' : Nat} {roots' : List Nat}
    (hroots : ∀ r ∈ roots, Memory.Reached m' nf' roots' r)
    (hlinks : ∀ i < nf, ∀ b c, (Memory.read m i).child b = some c → i < nf' ∧ (Memory.read m' i).child b = some c)
    {j : Nat} (h : Memory.Reached m nf roots j) : Memory.Reached m' nf' roots' j := by
  induction h with
  | root hr => exact hroots _ hr
  | child hi _ hc ih =>
    obtain ⟨hi', hc'⟩ := hlinks _ hi _ _ hc
    exact .child hi' ih hc'

/-- A store with the same links is the same forest. -/
theorem Memory.Forest.congr {m' : Memory} (h : Memory.Forest m nf roots)
    (hlinks : ∀ k b, (Memory.read m' k).child b = (Memory.read m k).child b) : Memory.Forest m' nf roots where
  roots_nodup := h.roots_nodup
  reached := fun j hj => (h.reached j hj).mono (fun _ hr => .root hr) fun i hi b c hc => ⟨hi, (hlinks i b).trans hc⟩
  one_parent := by simpa only [hlinks] using h.one_parent
  no_parent := by simpa only [hlinks] using h.no_parent

/-- `Alloc` of a record whose children are some of the roots, each once: they become its children and it becomes a root. -/
theorem Memory.Forest.alloc (h : Memory.Forest m nf roots) (hwf : Memory.wf m = true) (hcl : Memory.Closed m nf)
    (hlt : ∀ r ∈ roots, r < nf) {r : NodeRec} {cs rest : List Nat} (hperm : roots.Perm (cs ++ rest))
    (hcs : ∀ c, c ∈ cs ↔ ∃ b, r.child b = some c)
    (honce : ∀ b b' c, r.child b = some c → r.child b' = some c → b = b') :
    Memory.Forest (Memory.write m nf r) (nf + 1) (nf :: rest) := by
  have hroot {c : Nat} : c ∈ roots ↔ c ∈ cs ∨ c ∈ rest := hperm.mem_iff.trans List.mem_append
  have hchild {b : Bool} {c : Nat} (hc : r.child b = some c) : c ∈ roots := hroot.mpr (.inl ((hcs c).mpr ⟨b, hc⟩))
  have hnodup : (cs ++ rest).Nodup := hperm.nodup_iff.mp h.roots_nodup
  have hread {k : Nat} {b : Bool} {c : Nat} := Memory.child_alloc (nf := nf) hwf (r := r) (k := k) (b := b) (c := c)
  constructor
  case roots_nodup =>
    refine List.nodup_cons.mpr ⟨fun hm => ?_, (List.nodup_append.mp hnodup).2.1⟩
    exact Nat.lt_irrefl nf (hlt nf (hroot.mpr (.inr hm)))
  case reached =>
    have hnew : Memory.Reached (Memory.write m nf r) (nf + 1) (nf :: rest) nf := .root (List.mem_cons_self ..)
    intro j hj
    rcases Nat.lt_succ_iff_lt_or_eq.mp hj with hj | rfl
    · refine (h.reached j hj).mono (fun c hc => ?_) fun i hi b c hc => hread.mpr (.inr ⟨hi, hc⟩)
      rcases hroot.mp hc with hc | hc
      · obtain ⟨b, hb⟩ := (hcs c).mp hc
        obtain ⟨hi, hc⟩ := hread.mpr (.inl ⟨rfl, hb⟩)
        exact .child hi hnew hc
      · exact .root (List.mem_cons_of_mem nf hc)
    · exact hnew
  case one_parent =>
    intro i hi i' hi' b b' j hij hij'
    rcases hread.mp ⟨hi, hij⟩ with ⟨rfl, hc⟩ | ⟨hi, hc⟩
    · rcases hread.mp ⟨hi', hij'⟩ with ⟨rfl, hc'⟩ | ⟨hi', hc'⟩
      · exact ⟨rfl, honce b b' j hc hc'⟩
      · exact absurd hc' (h.no_parent i' hi' b' j (hchild hc))
    · rcases hread.mp ⟨hi', hij'⟩ with ⟨rfl, hc'⟩ | ⟨hi', hc'⟩
      · exact absurd hc (h.no_parent i hi b j (hchild hc'))
      · exact h.one_parent i hi i' hi' b b' j hc hc'
  case no_parent =>
    intro i hi b j hj hij
    rcases hread.mp ⟨hi, hij⟩ with ⟨rfl, hc⟩ | ⟨hi, hc⟩
    · rcases List.mem_cons.mp hj with rfl | hj
      · exact Nat.lt_irrefl _ (hlt _ (hchild hc))
      · exact (List.nodup_append.mp hnodup).2.2 j ((hcs j).mpr ⟨b, hc⟩) j hj rfl
    · rcases List.mem_cons.mp hj with rfl | hj
      · exact Nat.lt_irrefl _ (hcl i hi b _ hc)
      · exact h.no_parent i hi b j (hroot.mpr (.inr hj)) hc

/-- `Alloc` of a record without children makes it a root of its own. -/
theorem Memory.Forest.alloc_childless (h : Memory.Forest m nf roots) (hwf : Memory.wf m = true) (hcl : Memory.Closed m nf)
    (hlt : ∀ r ∈ roots, r < nf) {r : NodeRec} (hr : ∀ b, r.child b = none) :
    Memory.Forest (Memory.write m nf r) (nf + 1) (nf :: roots) :=
  h.alloc hwf hcl hlt (cs := []) (.refl _) (fun c => by simp [hr]) fun b b' c hc => by rw [hr b] at hc; cases hc

/-- The loader's new edge hangs a new record under `pos`; the roots stay. -/
theorem Memory.Forest.newEdge (h : Memory.Forest m nf roots) (hwf : Memory.wf m = true) (hcl : Memory.Closed m nf)
    (hlt : ∀ r ∈ roots, r < nf) {pos : Nat} {e : Bool} (hpos : pos < nf) (he : (Memory.read m pos).child e = none) :
    Memory.Forest (Memory.write (Memory.write m nf NodeRec.empty) pos ((Memory.read m pos).setChild e nf)) (nf + 1)
      roots := by
  have hread {k : Nat} {b : Bool} {c : Nat} := Memory.child_newEdge hwf hpos he (k := k) (b := b) (c := c)
  have hold {i : Nat} (hi : i < nf) (b : Bool) (hc : (Memory.read m i).child b = some nf) : False :=
    Nat.lt_irrefl nf (hcl i hi b nf hc)
  constructor
  case roots_nodup => exact h.roots_nodup
  case reached =>
    have hmono {j : Nat} (hj : j < nf) := (h.reached j hj).mono (fun r hr => .root hr) fun i hi b c hc =>
      hread.mpr (.inr ⟨hi, hc⟩)
    intro j hj
    rcases Nat.lt_succ_iff_lt_or_eq.mp hj with hj | rfl
    · exact hmono hj
    · obtain ⟨hi, hc⟩ := hread.mpr (.inl ⟨rfl, rfl, rfl⟩)
      exact .child hi (hmono hpos) hc
  case one_parent =>
    intro i hi i' hi' b b' j hij hij'
    rcases hread.mp ⟨hi, hij⟩ with ⟨rfl, rfl, rfl⟩ | ⟨hi, hc⟩
    · rcases hread.mp ⟨hi', hij'⟩ with ⟨rfl, rfl, -⟩ | ⟨hi', hc'⟩
      · exact ⟨rfl, rfl⟩
      · exact (hold hi' b' hc').elim
    · rcases hread.mp ⟨hi', hij'⟩ with ⟨rfl, rfl, rfl⟩ | ⟨hi', hc'⟩
      · exact (hold hi b hc).elim
      · exact h.one_parent i hi i' hi' b b' j hc hc'
  case no_parent =>
    intro i hi b r hr hij
    rcases hread.mp ⟨hi, hij⟩ with ⟨-, -, rfl⟩ | ⟨hi, hc⟩
    · exact Nat.lt_irrefl _ (hlt _ hr)
    · exact h.no_parent i hi b r hr hc

end
/-! ## The tree shape -/

section
variable {s t : State}

/-- The builder's collection `Q`, empty while no builder runs. -/
def Sequencer.collection : Sequencer → List QEntry
  | .scan _ q _ | .merge q _ => q
  | .idle | .walk | .sym _ _ | .code _ _ | .visit _ => []

theorem State.roots_eq (s : State) :
    s.roots = if s.rootValid then [s.root] else s.sequencer.collection.map (·.k) := by
  unfold State.roots Sequencer.collection
  cases s.sequencer <;> rfl

theorem State.roots_of_rootValid (h : s.rootValid = true) : s.roots = [s.root] := by rw [State.roots_eq, h]; rfl

theorem State.roots_of_no_root (h : s.rootValid = false) : s.roots = s.sequencer.collection.map (·.k) := by
  rw [State.roots_eq, h]; rfl

theorem Sequencer.collection_of_not_constructs {q : Sequencer} (h : q.constructs = false) : q.collection = [] := by
  cases q with
  | idle | walk | visit => rfl
  | sym | code | scan | merge => cases h

@[simp] theorem collection_scanNext (i : Nat) (q : List QEntry) (seq : Seq) : (scanNext i q seq).collection = q := by
  unfold scanNext
  split <;> rfl

theorem State.InRange.collection_lt (h : s.InRange) : ∀ e ∈ s.sequencer.collection, e.k < s.nextFree := by
  cases hq : s.sequencer with
  | idle | walk | sym | code | visit => exact nofun
  | scan i q seq => obtain ⟨-, -, -, -, -, hk⟩ := h.scan hq; exact hk
  | merge q seq => obtain ⟨-, -, -, -, hk⟩ := h.merge hq; exact hk

theorem State.InRange.roots_lt (h : s.InRange) : ∀ r ∈ s.roots, r < s.nextFree := by
  intro r hr
  cases hv : s.rootValid with
  | true =>
    rw [State.roots_of_rootValid hv] at hr
    rw [List.mem_singleton.mp hr]
    exact h.root_lt hv
  | false =>
    rw [State.roots_of_no_root hv] at hr
    obtain ⟨e, he, rfl⟩ := List.mem_map.mp hr
    exact h.collection_lt e he

/-- The records in use form trees with the roots `s.roots`. -/
def State.Forest (s : State) : Prop := Memory.Forest s.nodes s.nextFree s.roots

theorem State.forest_of_rootValid (h : s.rootValid = true) :
    s.Forest ↔ Memory.Forest s.nodes s.nextFree [s.root] := by
  rw [State.Forest, State.roots_of_rootValid h]

theorem State.forest_of_no_root (h : s.rootValid = false) :
    s.Forest ↔ Memory.Forest s.nodes s.nextFree (s.sequencer.collection.map (·.k)) := by
  rw [State.Forest, State.roots_of_no_root h]

theorem State.treeShaped_iff : s.TreeShaped ↔ s.InRange ∧ s.Forest := by
  constructor
  · intro h
    exact ⟨h.toInRange, (Memory.forest_iff_reached_once h.links h.toInRange.roots_lt).mpr ⟨h.roots_nodup, h.reached_once⟩⟩
  · rintro ⟨hin, hf⟩
    obtain ⟨hnd, honce⟩ := (Memory.forest_iff_reached_once hin.links hin.roots_lt).mp hf
    exact { hin with roots_nodup := hnd, reached_once := honce }

/-! ### The moves -/

/-- Whatever leaves the tree and the collection alone leaves the forest alone. -/
theorem State.Forest.keep (h : s.Forest) (hm : t.nodes = s.nodes) (hn : t.nextFree = s.nextFree)
    (hv : t.rootValid = s.rootValid) (hr : t.root = s.root)
    (hq : t.sequencer.collection = s.sequencer.collection) : t.Forest := by
  unfold State.Forest at h ⊢
  rw [State.roots_eq] at h ⊢
  rwa [hm, hn, hv, hr, hq]

theorem State.Forest.of_noTree (hn : s.nextFree = 0) (hv : s.rootValid = false) (hq : s.sequencer.collection = []) :
    s.Forest := by
  rw [State.forest_of_no_root hv, hn, hq]
  exact Memory.forest_empty s.nodes

theorem State.Forest.sameCore (h : s.Forest) (hst : s.SameCore t) : t.Forest := by
  obtain ⟨_, _, _, _, _, _, _, rfl⟩ := hst
  exact h.keep rfl rfl rfl rfl rfl

theorem State.Forest.raise (h : s.Forest) (c : Cause) : (s.raise c).Forest := by
  cases hq : s.sequencer.constructs with
  | true => exact .of_noTree (by simp [hq]) (by simp [hq]) rfl
  | false =>
    exact h.keep (by simp) (by simp [hq]) (by simp [hq]) (by simp) (Sequencer.collection_of_not_constructs hq).symm

theorem State.Forest.command (h : s.Forest) (hm : CommandMove s t) : t.Forest := by
  cases hm with
  | ignored => exact h
  | cleared hb => exact .of_noTree rfl rfl (by rw [State.acknowledge_sequencer, State.sequencer_of_not_busy hb]; rfl)
  | illegal => exact h.raise _
  | build | load => exact .of_noTree rfl rfl rfl
  | save hb | decode hb => exact h.keep rfl rfl rfl rfl (by rw [State.sequencer_of_not_busy hb]; rfl)

/-- A merge (41_build.md R129) joins two roots under a new one. -/
theorem State.Forest.merged (h : s.Forest) (hin : s.InRange) (hwf : s.StoreCanonical) (hv : s.rootValid = false)
    {a b : QEntry} {q : List QEntry} (hperm : s.sequencer.collection.Perm ([a, b] ++ q)) (w : Weight) :
    Memory.Forest (Memory.write s.nodes s.nextFree (NodeRec.internalOf a.k b.k w)) (s.nextFree + 1)
      (s.nextFree :: q.map (·.k)) := by
  have hroots : s.roots.Perm ([a.k, b.k] ++ q.map (·.k)) := State.roots_of_no_root hv ▸ hperm.map (·.k)
  have hab : a.k ≠ b.k := fun hab => by
    have hnd := hroots.nodup_iff.mp h.roots_nodup
    simp [hab] at hnd
  refine Memory.Forest.alloc h hwf hin.links hin.roots_lt hroots (fun c => ?_) fun d d' c hc hc' => ?_
  · simp [NodeRec.child_internalOf, eq_comm]
  · rw [NodeRec.child_internalOf] at hc hc'
    have heq := Option.some.inj (hc.trans hc'.symm)
    match d, d' with
    | false, false | true, true => rfl
    | false, true => exact absurd heq hab
    | true, false => exact absurd heq.symm hab

theorem State.Forest.block (h : s.Forest) (hin : s.InRange) (hwf : s.StoreCanonical) (hm : BlockMove s t) :
    t.Forest := by
  cases hm with
  | rest => exact h
  | raised c => exact h.raise c
  | reachedLeaf | reachedInner => exact h.keep rfl rfl rfl rfl rfl
  | bitsEnded | digit | textEnded | codeLine | oldEdge | visitsEnded | visitedLeaf | visitedInner =>
    exact h.keep rfl rfl rfl rfl (by rw [‹s.sequencer = _›]; rfl)
  | firstRoot v hq hv hr =>
    have hf := Memory.Forest.alloc_childless h hwf hin.links hin.roots_lt NodeRec.child_empty
    rw [State.roots_of_no_root hr, hq] at hf
    exact (State.forest_of_rootValid rfl).mpr hf
  | newEdge v pos b hq hpos hc =>
    have hr := (hin.code hq).1
    have hf := Memory.Forest.newEdge h hwf hin.links hin.roots_lt hpos hc
    rw [State.roots_of_rootValid hr] at hf
    exact (State.forest_of_rootValid (by exact hr)).mpr hf
  | leafMarked v pos next hq hpos hnext =>
    have hf := Memory.Forest.congr h (Memory.child_markLeaf hwf pos (BitVec.ofNat 8 v))
    refine State.Forest.keep (s := s.nodeWrite pos ((Memory.read s.nodes pos).setSym (BitVec.ofNat 8 v))) hf rfl rfl rfl rfl ?_
    rcases hnext with rfl | rfl <;> simp [hq, Sequencer.collection]
  | scannedLeaf i q seq hq =>
    have hr := (hin.scan hq).1
    have hf := Memory.Forest.alloc_childless h hwf hin.links hin.roots_lt
      (NodeRec.child_leafOf (BitVec.ofNat 8 i) (freqWeight (s.freqAt i)))
    rw [State.roots_of_no_root hr, hq] at hf
    refine (State.forest_of_no_root (by exact hr)).mpr ?_
    rw [collection_scanNext]
    exact hf
  | scannedNone i q seq hq => exact h.keep rfl rfl rfl rfl (by rw [hq, collection_scanNext]; rfl)
  | builtNone seq hq => exact h.keep rfl rfl (hin.merge hq).1.symm rfl (by rw [hq]; rfl)
  | builtRoot a seq hq =>
    rw [State.forest_of_no_root (hin.merge hq).1, hq] at h
    exact (State.forest_of_rootValid rfl).mpr h
  | merged q q₁ q₂ seq a b hq ha hb =>
    have hr := (hin.merge hq).1
    have hperm : s.sequencer.collection.Perm ([a, b] ++ q₂) := by rw [hq]; exact removeMin_twice_perm ha hb
    exact (State.forest_of_no_root (by exact hr)).mpr (h.merged hin hwf hr hperm _)

end

/-- Settles O51: on states in range the tree shape is the forest of `Memory.Forest`, which every move keeps. -/
theorem stepKeepsTreeShaped : Obligations.StepKeepsTreeShaped := by
  unfold Obligations.StepKeepsTreeShaped
  intro s t hwf hs h
  obtain ⟨hin, hf⟩ := State.treeShaped_iff.mp hs
  refine State.treeShaped_iff.mpr ⟨(stepKeepsInRange s t hwf hin h).1, ?_⟩
  obtain ⟨u, hu, hm⟩ := step_core_cases h
  have hfu : u.Forest := hf.sameCore hu
  rcases hm with hm | hm | rfl | hut
  · exact hfu.block (hin.sameCore hu) (hwf.sameCore hu) hm
  · exact hfu.command hm
  · exact .of_noTree rfl rfl rfl
  · exact hfu.sameCore hut

/-- Settles O47: the reset state has no tree, and its store lists no record. -/
theorem resetMeetsTheInvariants : Obligations.ResetMeetsTheInvariants := by
  unfold Obligations.ResetMeetsTheInvariants
  have hin : State.reset.InRange := .of_noTree rfl rfl rfl fun _ => rfl
  refine ⟨rfl, ⟨by decide, nofun⟩, hin, ?_, State.treeShaped_iff.mpr ⟨hin, .of_noTree rfl rfl rfl⟩⟩
  exact ⟨by decide, by decide, nofun, nofun, trivial⟩

/-! ## The abstract tree of a store -/

section
variable {m : Memory} {nf : Nat} {roots : List Nat}

theorem Memory.follow_cons_eq_some {k j : Nat} {b : Bool} {p : List Bool} :
    Memory.follow m k (b :: p) = some j ↔ ∃ c, (Memory.read m k).child b = some c ∧ Memory.follow m c p = some j := by
  simp only [Memory.follow]
  cases (Memory.read m k).child b <;> simp

open Classical in
/-- The records below `nf` that paths from the pointer `p` lead to. -/
noncomputable def Memory.below (m : Memory) (nf : Nat) (p : Option Nat) : Finset Nat :=
  (Finset.range nf).filter fun j => ∃ k, p = some k ∧ ∃ path, Memory.follow m k path = some j

theorem Memory.mem_below {p : Option Nat} {j : Nat} :
    j ∈ Memory.below m nf p ↔ j < nf ∧ ∃ k, p = some k ∧ ∃ path, Memory.follow m k path = some j := by
  simp [Memory.below]

theorem Memory.below_none : Memory.below m nf none = ∅ := by
  ext j
  simp [Memory.mem_below]

theorem Memory.mem_below_some {k j : Nat} :
    j ∈ Memory.below m nf (some k) ↔ j < nf ∧ ∃ path, Memory.follow m k path = some j := by
  simp [Memory.mem_below]

theorem Memory.mem_below_child {k j : Nat} {b : Bool} :
    j ∈ Memory.below m nf ((Memory.read m k).child b) ↔ j < nf ∧ ∃ path, Memory.follow m k (b :: path) = some j := by
  rw [Memory.mem_below]
  refine and_congr_right fun _ => ?_
  simp only [Memory.follow_cons_eq_some]
  constructor
  · rintro ⟨c, hc, path, hp⟩; exact ⟨path, c, hc, hp⟩
  · rintro ⟨path, c, hc, hp⟩; exact ⟨c, hc, path, hp⟩

/-- Below a node are the node and what is below its children. -/
theorem Memory.below_some {k : Nat} (hk : k < nf) :
    Memory.below m nf (some k) = Insert.insert k (Memory.below m nf ((Memory.read m k).child false)
      ∪ Memory.below m nf ((Memory.read m k).child true)) := by
  ext j
  rw [Finset.mem_insert, Finset.mem_union, Memory.mem_below_some, Memory.mem_below_child, Memory.mem_below_child]
  constructor
  · rintro ⟨hj, path, hp⟩
    match path with
    | [] => cases hp; exact .inl rfl
    | false :: path => exact .inr (.inl ⟨hj, path, hp⟩)
    | true :: path => exact .inr (.inr ⟨hj, path, hp⟩)
  · rintro (rfl | ⟨hj, path, hp⟩ | ⟨hj, path, hp⟩)
    · exact ⟨hk, [], rfl⟩
    · exact ⟨hj, _, hp⟩
    · exact ⟨hj, _, hp⟩

/-- From any node, as from the roots, a path is determined by its end. -/
theorem Memory.Forest.path_unique_from (h : Memory.Forest m nf roots) (hcl : Memory.Closed m nf)
    (hlt : ∀ r ∈ roots, r < nf) {k j : Nat} (hk : k < nf) {p p' : List Bool} (hp : Memory.follow m k p = some j)
    (hp' : Memory.follow m k p' = some j) : p = p' := by
  obtain ⟨r, hr, q, hq⟩ := (h.reached k hk).exists_path
  have extend {p : List Bool} (hp : Memory.follow m k p = some j) : Memory.follow m r (q ++ p) = some j := by
    rw [Memory.follow_append, hq]; exact hp
  exact List.append_cancel_left (h.path_unique hcl hlt hr hr (extend hp) (extend hp')).2

/-- So a node and what is below each of its children are counted apart. -/
theorem Memory.Forest.card_below_some (h : Memory.Forest m nf roots) (hcl : Memory.Closed m nf)
    (hlt : ∀ r ∈ roots, r < nf) {k : Nat} (hk : k < nf) :
    (Memory.below m nf (some k)).card = (Memory.below m nf ((Memory.read m k).child false)).card
      + (Memory.below m nf ((Memory.read m k).child true)).card + 1 := by
  have hself (b : Bool) : k ∉ Memory.below m nf ((Memory.read m k).child b) := fun hm => by
    obtain ⟨-, path, hp⟩ := Memory.mem_below_child.mp hm
    cases h.path_unique_from hcl hlt hk (p := []) rfl hp
  have hdisj : Disjoint (Memory.below m nf ((Memory.read m k).child false))
      (Memory.below m nf ((Memory.read m k).child true)) := Finset.disjoint_left.mpr fun j hl hr => by
    obtain ⟨-, path, hp⟩ := Memory.mem_below_child.mp hl
    obtain ⟨-, path', hp'⟩ := Memory.mem_below_child.mp hr
    cases h.path_unique_from hcl hlt hk hp hp'
  rw [Memory.below_some hk, Finset.card_insert_of_notMem, Finset.card_union_of_disjoint hdisj]
  rw [Finset.mem_union, not_or]
  exact ⟨hself false, hself true⟩

/-- In a forest every pointer leads to an abstract tree, with a node for each record below the pointer. -/
theorem Memory.Forest.exists_tree (h : Memory.Forest m nf roots) (hcl : Memory.Closed m nf)
    (hlt : ∀ r ∈ roots, r < nf) (p : Option Nat) (hp : ∀ k, p = some k → k < nf) :
    ∃ T : ATree, treeAt m nf p T = true ∧ T.size = (Memory.below m nf p).card := by
  induction hn : (Memory.below m nf p).card using Nat.strong_induction_on generalizing p with
  | _ n ih =>
    cases p with
    | none =>
      refine ⟨.absent, rfl, ?_⟩
      rw [← hn, Memory.below_none]
      rfl
    | some k =>
      have hk := hp k rfl
      have hcard := h.card_below_some hcl hlt hk
      obtain ⟨l, hl, hlsize⟩ := ih _ (by omega) _ (fun c hc => hcl k hk false c hc) rfl
      obtain ⟨r, hr, hrsize⟩ := ih _ (by omega) _ (fun c hc => hcl k hk true c hc) rfl
      refine ⟨.node (Memory.read m k).symbol l r, by simp [treeAt, hk, hl, hr], ?_⟩
      rw [ATree.size, hlsize, hrsize, ← hn, hcard]

end

/-- Settles O52: all records in use are below the root, so the root's abstract tree has `NEXT_FREE` nodes. -/
theorem treeShapedStoreHoldsATree : Obligations.TreeShapedStoreHoldsATree := by
  unfold Obligations.TreeShapedStoreHoldsATree
  intro s hs hb
  obtain ⟨hin, hf⟩ := State.treeShaped_iff.mp hs
  cases hv : s.rootValid with
  | false =>
    have hn := hin.idle (State.sequencer_of_not_busy hb) hv
    exact ⟨.absent, by simp [State.hasTree, State.rootPtr, hv, treeAt], by rw [hn]; rfl⟩
  | true =>
    obtain ⟨T, hT, hsize⟩ := Memory.Forest.exists_tree hf hin.links hin.roots_lt (some s.root) fun k hk => by
      cases hk; exact hin.root_lt hv
    have hall : Memory.below s.nodes s.nextFree (some s.root) = Finset.range s.nextFree := by
      ext j
      rw [Memory.mem_below_some, Finset.mem_range, and_iff_left_iff_imp]
      intro hj
      obtain ⟨r, hr, p, hp⟩ := (hf.reached j hj).exists_path
      rw [State.roots_of_rootValid hv, List.mem_singleton] at hr
      exact ⟨p, hr ▸ hp⟩
    rw [hall, Finset.card_range] at hsize
    exact ⟨T, by simpa [State.hasTree, State.rootPtr, hv] using hT, hsize⟩

end Sys2Proof.Machine

namespace Sys2Proof.Machine

/-! ## The canonical form of the node store -/

section
variable {s t : State}

/-- A move of the block leaves the store or writes one or two records, and every write keeps the canonical form. -/
theorem BlockMove.wf_nodes (hm : BlockMove s t) (h : Memory.wf s.nodes = true) : Memory.wf t.nodes = true := by
  cases hm
  case raised => rwa [State.raise_nodes]
  case firstRoot | leafMarked | scannedLeaf | merged => simp only [State.nodeWrite_nodes, Memory.wf_write h]
  case newEdge => exact Memory.wf_write (Memory.wf_write h _ _) _ _
  all_goals exact h

end

/-- Settles O48: a move of the running unit writes records by `Memory.write` alone, and no action of the host writes one. -/
theorem stepKeepsStoreCanonical : Obligations.StepKeepsStoreCanonical := by
  unfold Obligations.StepKeepsStoreCanonical State.StoreCanonical
  intro s t hs h
  rcases step_cases h with ⟨script, bits, text, -, hm⟩ | ⟨a, rest, -, hm⟩
  · exact hm.wf_nodes hs
  · rwa [hm.nodes_eq]

/-! ## The sink and the parameters -/

section
variable {s t : State}

theorem BlockMove.params_eq (h : BlockMove s t) : t.params = s.params := by
  cases h
  case raised => exact State.raise_params s _
  all_goals rfl

/-- A running unit writes at the end of the sink (20_memory.md R56), or not at all. -/
theorem BlockMove.out_eq_append (h : BlockMove s t) : ∃ bytes, t.out = s.out ++ bytes := by
  cases h
  case reachedLeaf | visitedLeaf => exact ⟨_, rfl⟩
  case raised => exact ⟨[], by rw [State.raise_out, List.append_nil]⟩
  all_goals exact ⟨[], (List.append_nil _).symm⟩

theorem CommandMove.params_eq (h : CommandMove s t) : t.params = s.params := by
  cases h
  case illegal => exact State.raise_params s _
  all_goals rfl

theorem CommandMove.out_eq (h : CommandMove s t) : t.out = s.out := by
  cases h
  case illegal => exact State.raise_out s _
  all_goals rfl

@[simp] theorem hostWrite_out (addr : Offset) (w : Word) (s : State) : (hostWrite addr w s).out = s.out := by
  unfold hostWrite
  split
  · split <;> rfl
  all_goals rfl

@[simp] theorem hostRead_out (addr : Offset) (s : State) : (hostRead addr s).out = s.out := by
  unfold hostRead
  split <;> rfl

theorem HostMove.params_eq {a : HostAction} (h : HostMove s a t) : t.params = s.params := by
  rcases h.core_cases with hm | rfl | ⟨_, _, _, _, _, _, _, rfl⟩
  · exact hm.params_eq
  · rfl
  · rfl

/-- No action of the host but a drain touches the sink. -/
theorem HostMove.out_eq {a : HostAction} (h : HostMove s a t) (ha : a ≠ .drain) : t.out = s.out := by
  cases h with
  | command _ _ _ hm => exact hm.out_eq
  | wrote addr w => exact hostWrite_out addr w s
  | didRead addr => exact hostRead_out addr s
  | drained => exact absurd rfl ha
  | didReset | gotBits | moreBits | gotText | moreText | waited => rfl

end

/-- Settles O55: the moves of the running unit append to the sink; of the host's actions only the drain changes it. -/
theorem outputIsNeverWithdrawn : Obligations.OutputIsNeverWithdrawn := by
  unfold Obligations.OutputIsNeverWithdrawn
  intro s t h
  rcases step_cases h with ⟨script, bits, text, -, hm⟩ | ⟨a, rest, hh, hm⟩
  · exact ⟨hm.params_eq, .inl hm.out_eq_append⟩
  · refine ⟨hm.params_eq, ?_⟩
    by_cases ha : a = .drain
    · exact .inr ⟨rest, ha ▸ hh⟩
    · exact .inl ⟨[], (hm.out_eq ha).trans (List.append_nil _).symm⟩

/-! ## How a step can stop

A step that ends in no next state stops for one of two reasons: a read that the spec does not define, which a state in range
never makes, or a stream handover while a command runs. -/

/-- The result is no refusal, and it is a fault of the model only where `P` fails. -/
inductive NextIf (P : Prop) : Result → Prop
  | next (t : State) : NextIf P (.next t)
  | fault (f : Fault) (hp : ¬ P) : NextIf P (.fault f)

section
variable {P Q : Prop} {r : Result} {s : State}

theorem NextIf.mono (h : NextIf P r) (hqp : Q → P) : NextIf Q r := by
  cases h with
  | next t => exact .next t
  | fault f hp => exact .fault f fun hq => hp (hqp hq)

theorem NextIf.ne_fault (h : NextIf P r) (hp : P) (f : Fault) : r ≠ .fault f := by
  cases h with
  | next t => exact nofun
  | fault _ hn => exact absurd hp hn

theorem NextIf.ne_refused (h : NextIf P r) (x : Refusal) : r ≠ .refused x := by
  cases h <;> exact nofun

theorem NextIf.withNode {k : Nat} {body : NodeRec → Result} (hk : P → k < s.nextFree)
    (hbody : NextIf P (body (Memory.read s.nodes k))) : NextIf P (s.withNode k body) := by
  by_cases hlt : k < s.nextFree
  · rwa [State.withNode_of_lt hlt]
  · rw [State.withNode_of_not_lt hlt]
    exact .fault _ fun hp => hlt (hk hp)

theorem NextIf.withAlloc {n : NodeRec} {body : State → Nat → Result} (hbody : ∀ t k, NextIf P (body t k)) :
    NextIf P (s.withAlloc n body) := by
  unfold State.withAlloc
  split
  · exact hbody _ _
  · exact .next _

theorem NextIf.accept {body : State → Result} (hbody : NextIf P (body s)) : NextIf P (s.accept body) := by
  unfold State.accept
  exact iteInduction (fun _ => .next _) fun _ => iteInduction (fun _ => .next _) fun _ => hbody

/-! ### The running unit -/

theorem walkStep_nextIf (b : Bool) (hq : s.sequencer = .walk) : NextIf s.InRange (walkStep b s) := by
  simp only [walkStep, hq]
  split
  · exact .next _
  · rename_i hv
    have hcursor (h : s.InRange) : s.cursor < s.nextFree := (h.cursor_lt (by simpa using hv)).2
    refine .withNode hcursor ?_
    split
    · exact .next _
    · exact .next _
    · rename_i hcls
      refine .withNode (fun h => h.links _ (hcursor h) b _ (NodeRec.child_of_internal hcls b)) ?_
      split <;> exact .next _

theorem endSymLine_nextIf (v : Nat) (n : Bool) : NextIf P (endSymLine v n s) := by
  unfold endSymLine
  refine iteInduction (fun _ => .next _) fun _ => iteInduction (fun _ => .next _) fun _ => ?_
  unfold enterCode
  refine iteInduction (fun _ => iteInduction (fun _ => .next _) fun _ => ?_) fun _ => .next _
  exact .withAlloc fun _ _ => .next _

theorem symStreamEnd_nextIf (v : Nat) (n : Bool) : NextIf P (symStreamEnd v n s) :=
  iteInduction (fun _ => endSymLine_nextIf v n) fun _ => .next _

theorem edgeStep_nextIf (b : Bool) {v pos : Nat} (hq : s.sequencer = .code v pos) :
    NextIf s.InRange (edgeStep b s) := by
  simp only [edgeStep, hq]
  refine .withNode (fun h => (h.code hq).2.1) ?_
  split
  · exact .next _
  · exact .withAlloc fun _ _ => .next _

theorem markLeaf_nextIf {v pos : Nat} (next : Sequencer) (hq : s.sequencer = .code v pos) :
    NextIf s.InRange (markLeaf v pos next s) :=
  .withNode (fun h => (h.code hq).2.1) (.next _)

theorem scanStep_nextIf (i : Nat) (q : List QEntry) (seq : Seq) : NextIf P (scanStep i q seq s) :=
  iteInduction (fun _ => .withAlloc fun _ _ => .next _) fun _ => .next _

theorem mergeStep_nextIf (q : List QEntry) (seq : Seq) : NextIf P (mergeStep q seq s) := by
  unfold mergeStep
  split
  · exact .next _
  · split
    · exact .next _
    · exact .withAlloc fun _ _ => .next _

theorem visitStep_nextIf {stack : List (Nat × List Bool)} (hq : s.sequencer = .visit stack) :
    NextIf s.InRange (visitStep stack s) := by
  match stack with
  | [] => exact .next _
  | (k, path) :: rest =>
    refine .withNode (fun h => (h.visit hq).2 (k, path) (by simp)) ?_
    split <;> exact .next _

/-! ### The fetch -/

theorem fetchUnit_bit_nextIf (b : Bool) (hq : s.sequencer = .walk) :
    NextIf s.InRange (fetchUnit (.bit b) s).outcome := by
  cases b <;> exact walkStep_nextIf _ hq

theorem fetchUnit_textSym_nextIf (ch : Byte) {v : Nat} {n : Bool} (hq : s.sequencer = .sym v n) :
    NextIf P (fetchUnit (.textSym ch) s).outcome := by
  have hu := decode_textSym s.params ch
  unfold fetchUnit
  generalize decode s.params (.textSym ch) = e at hu
  cases hu with
  | digit hd he => simp only [Fetched.outcome, he, digitStep, hq]; exact .next _
  | lineEnd => simp only [Fetched.outcome, exec, execSymEol, hq]; exact endSymLine_nextIf v n
  | bad => exact .next _

theorem fetchUnit_textCode_nextIf (ch : Byte) {v pos : Nat} (hq : s.sequencer = .code v pos) :
    NextIf s.InRange (fetchUnit (.textCode ch) s).outcome := by
  have hu := decode_textCode s.params ch
  unfold fetchUnit
  generalize decode s.params (.textCode ch) = e at hu
  cases hu with
  | edge he => simp only [Fetched.outcome, he]; exact edgeStep_nextIf _ hq
  | lineEnd => simp only [Fetched.outcome, exec, execCodeEol, hq]; exact markLeaf_nextIf _ hq
  | bad => exact .next _

theorem execClear_nextIf : NextIf P (execClear s) := by
  unfold execClear
  split <;> exact .next _

theorem execBuild_nextIf : NextIf P (execBuild s) := by
  refine .accept ?_
  split <;> exact .next _

theorem execSave_nextIf : NextIf P (execSave s) := .accept (.next _)

theorem execLoad_nextIf : NextIf P (execLoad s) := .accept (.next _)

theorem execDecode_nextIf : NextIf P (execDecode s) := .accept (.next _)

theorem illegalCommand_nextIf : NextIf P (illegalCommand s) := .accept (.next _)

theorem fetchUnit_cmd_nextIf (w : Word) : NextIf P (fetchUnit (.cmd w) s).outcome := by
  have hu := decode_cmd s.params w
  unfold fetchUnit
  generalize decode s.params (.cmd w) = e at hu
  cases hu with
  | clear => exact execClear_nextIf
  | build => exact execBuild_nextIf
  | save => exact execSave_nextIf
  | load => exact execLoad_nextIf
  | decode => exact execDecode_nextIf
  | reserved => exact illegalCommand_nextIf

/-- The unit that runs is never refused, and from a state in range it does not fault. -/
theorem blockNext_nextIf (s : State) : NextIf s.InRange (blockNext s).outcome := by
  have htook (bits : List Bool) (text : List Byte) (h : s.InRange) :
      ({ s with bitsIn := bits, textIn := text } : State).InRange := h.sameCore ⟨_, _, _, _, _, _, _, rfl⟩
  unfold blockNext
  split
  · exact .next _
  · rename_i hq
    split
    · exact .next _
    · rename_i b rest _
      have hmove := fetchUnit_bit_nextIf (s := { s with bitsIn := rest }) b hq
      exact hmove.mono (htook rest s.textIn)
  · rename_i hq
    split
    · exact symStreamEnd_nextIf _ _
    · exact fetchUnit_textSym_nextIf _ hq
  · rename_i hq
    split
    · exact markLeaf_nextIf _ hq
    · rename_i ch rest _
      have hmove := fetchUnit_textCode_nextIf (s := { s with textIn := rest }) ch hq
      exact hmove.mono (htook s.bitsIn rest)
  · exact scanStep_nextIf _ _ _
  · exact mergeStep_nextIf _ _
  · rename_i hq
    exact visitStep_nextIf hq

/-- The host's action hands a stream over: it replaces or extends a source, or drains the sink (10_state.md R33). -/
def HostAction.HandsOver (a : HostAction) : Prop :=
  (∃ bits, a = .setBits bits ∨ a = .addBits bits) ∨ (∃ text, a = .setText text ∨ a = .addText text) ∨ a = .drain

/-- What the host does but handing a stream over always leads to a next state. -/
theorem hostNext_nextIf_or_handOver {a : HostAction} (htick : a ≠ .tick) :
    NextIf P (hostNext a s).outcome ∨ (a.HandsOver ∧ ∃ t, (hostNext a s).outcome = handOver s t) := by
  cases a with
  | write addr w =>
    refine .inl ?_
    simp only [hostNext]
    split
    · exact fetchUnit_cmd_nextIf w
    · exact .next _
  | read | reset | waitIdle => exact .inl (.next _)
  | setBits bits => exact .inr ⟨.inl ⟨bits, .inl rfl⟩, _, rfl⟩
  | addBits bits => exact .inr ⟨.inl ⟨bits, .inr rfl⟩, _, rfl⟩
  | setText text => exact .inr ⟨.inr (.inl ⟨text, .inl rfl⟩), _, rfl⟩
  | addText text => exact .inr ⟨.inr (.inl ⟨text, .inr rfl⟩), _, rfl⟩
  | drain => exact .inr ⟨.inr (.inr rfl), _, rfl⟩
  | tick => exact absurd rfl htick

/-- A step is no refusal and faults only out of range, or it hands a stream over. -/
theorem step_nextIf_or_handOver (s : State) :
    NextIf s.InRange (step s)
    ∨ ∃ a rest t, s.host = a :: rest ∧ a.HandsOver ∧ step s = handOver { s with host := rest } t := by
  rw [step_eq_outcome]
  rcases s.fetchNext_cases with ⟨script, -, hf⟩ | ⟨a, rest, hh, htick, -, hf⟩
  · rw [hf]
    exact .inl ((blockNext_nextIf _).mono fun h => h.sameCore ⟨_, _, _, _, _, _, _, rfl⟩)
  · rw [hf]
    refine (hostNext_nextIf_or_handOver htick).imp_right ?_
    rintro ⟨ha, t, ht⟩
    exact ⟨a, rest, t, hh, ha, ht⟩

theorem handOver_ne_fault (s t : State) (f : Fault) : handOver s t ≠ .fault f := by
  unfold handOver
  split <;> exact nofun

end

/-- Settles O46: every read of a running unit is at an index that `InRange` bounds, and `handOver` alone refuses. -/
theorem inRangeStepsNeverFault : Obligations.InRangeStepsNeverFault := by
  unfold Obligations.InRangeStepsNeverFault
  refine ⟨fun s f hs => ?_, fun s r hr => ?_⟩
  · rcases step_nextIf_or_handOver s with h | ⟨a, rest, t, -, -, ht⟩
    · exact h.ne_fault hs f
    · rw [ht]; exact handOver_ne_fault _ _ f
  · rcases step_nextIf_or_handOver s with h | ⟨a, rest, t, hh, ha, ht⟩
    · exact absurd hr (h.ne_refused r)
    · rw [ht] at hr
      obtain ⟨hb, rfl⟩ := handOver_eq_refused.mp hr
      exact ⟨rfl, hb, a, rest, hh, ha⟩

/-! ## The host's registers -/

section
variable {addr : Offset}

/-! ### The register map (20_memory.md R52) -/

theorem hostReg_eq_status (h₁ : 4 ≤ addr.toNat) (h₂ : addr.toNat < 8) : hostReg addr = .status := by
  have h : addr.toNat / 4 = 1 := by omega
  simp [hostReg, h]

theorem hostReg_eq_cause (h₁ : 8 ≤ addr.toNat) (h₂ : addr.toNat < 12) : hostReg addr = .cause := by
  have h : addr.toNat / 4 = 2 := by omega
  simp [hostReg, h]

theorem hostReg_eq_reserved (h₁ : 12 ≤ addr.toNat) (h₂ : addr.toNat < 0x400) : hostReg addr = .reserved := by
  simp only [hostReg, show ¬ addr.toNat / 4 = 0 by omega, show ¬ addr.toNat / 4 = 1 by omega,
    show ¬ addr.toNat / 4 = 2 by omega, show addr.toNat / 4 < 256 by omega, if_true, if_false]

theorem hostReg_eq_freq (h₁ : 0x400 ≤ addr.toNat) (h₂ : addr.toNat < 0x800) :
    hostReg addr = .freq ((addr.toNat - 0x400) / 4) := by
  have hi : addr.toNat / 4 - 256 = (addr.toNat - 0x400) / 4 := by omega
  simp only [hostReg, show ¬ addr.toNat / 4 = 0 by omega, show ¬ addr.toNat / 4 = 1 by omega,
    show ¬ addr.toNat / 4 = 2 by omega, show ¬ addr.toNat / 4 < 256 by omega, show addr.toNat / 4 < 512 by omega,
    if_true, if_false, hi]

theorem hostReg_eq_undecoded : hostReg addr = .undecoded ↔ 0x800 ≤ addr.toNat := by
  unfold hostReg
  dsimp only
  split_ifs <;> simp <;> omega

end

/-! ### What the registers show -/

section
variable {s t : State}

/-- The four flags of `STATUS` at their weights (10_state.md R27). -/
theorem State.statusWord_toNat (s : State) :
    s.statusWord.toNat = s.busy.toNat + 2 * s.fault.toNat + 4 * s.tree.toNat + 8 * s.underflow.toNat := by
  unfold State.statusWord
  generalize s.busy = b, s.fault = f, s.tree = r, s.underflow = u
  revert b f r u
  decide

/-- `BUSY` is bit 0 of `STATUS` and no other (10_state.md R27). -/
theorem State.statusWord_getLsbD {i : Nat} (hi : i ≠ 0) :
    s.statusWord.getLsbD i
      = (0#28 ++ BitVec.ofBool s.underflow ++ BitVec.ofBool s.tree ++ BitVec.ofBool s.fault).getLsbD (i - 1) := by
  rw [State.statusWord, BitVec.getLsbD_append, if_neg (by omega)]

theorem State.causeWord_toNat (s : State) : s.causeWord.toNat = s.cause.code.toNat := by
  cases h : s.cause <;> simp [State.causeWord, h, Cause.code]

/-- A host read of `s` and one of `t` return the same word at every offset, but for `BUSY` (40_control.md R115). -/
structure State.ShowsSame (s t : State) : Prop where
  params_eq : t.params = s.params
  freq_eq : t.freq = s.freq
  cause_eq : t.cause = s.cause
  fault_eq : t.fault = s.fault
  underflow_eq : t.underflow = s.underflow
  tree_eq : t.tree = s.tree

theorem State.ShowsSame.hostValue_eq (h : s.ShowsSame t) {addr : Offset} (ha : hostReg addr ≠ .status) :
    t.hostValue addr = s.hostValue addr := by
  unfold State.hostValue
  cases hr : hostReg addr with
  | status => exact absurd hr ha
  | cause => simp only [State.causeWord, h.cause_eq]
  | freq i => simp only [State.freqAt, h.params_eq, h.freq_eq]
  | cmd | reserved | undecoded => rfl

theorem State.ShowsSame.statusWord_getLsbD_eq (h : s.ShowsSame t) {i : Nat} (hi : i ≠ 0) :
    t.statusWord.getLsbD i = s.statusWord.getLsbD i := by
  rw [State.statusWord_getLsbD hi, State.statusWord_getLsbD hi, h.underflow_eq, h.tree_eq, h.fault_eq]

/-! ### During a command only `BUSY` differs (40_control.md R115) -/

@[simp] theorem scanNext_constructs (i : Nat) (q : List QEntry) (seq : Seq) :
    (scanNext i q seq).constructs = true := by
  unfold scanNext
  split <;> rfl

/-- While a command goes on, it goes on making a tree or making none. -/
theorem BlockMove.constructs_eq (h : BlockMove s t) (hb : t.busy = true) :
    t.sequencer.constructs = s.sequencer.constructs := by
  cases h
  case raised | bitsEnded | textEnded | builtNone | builtRoot | visitsEnded => cases hb
  case rest | reachedLeaf | reachedInner => rfl
  case leafMarked hnext =>
    rcases hnext with rfl | rfl
    · rw [‹s.sequencer = _›]; rfl
    · cases hb
  case scannedLeaf | scannedNone => rw [‹s.sequencer = _›]; exact scanNext_constructs ..
  all_goals rw [‹s.sequencer = _›]; rfl

theorem BlockMove.treeBefore_eq (h : BlockMove s t) : t.treeBefore = s.treeBefore := by
  cases h
  case raised => exact State.raise_treeBefore s _
  all_goals rfl

/-- Of the moves of the block the end of `DECODE` alone sets `UNDERFLOW` (43_decode.md R193). -/
theorem BlockMove.underflow_eq (h : BlockMove s t) (hb : t.busy = true) : t.underflow = s.underflow := by
  cases h
  case bitsEnded => cases hb
  case raised => exact State.raise_underflow s _
  all_goals rfl

theorem BlockMove.tree_shown_eq (h : BlockMove s t) (hb : t.busy = true) : t.tree = s.tree := by
  have hct := h.constructs_eq hb
  cases hc : s.sequencer.constructs with
  | false =>
    rw [hc] at hct
    rw [State.tree_of_not_constructs hc, State.tree_of_not_constructs hct, (h.tree_eq hc).2.1]
  | true =>
    rw [hc] at hct
    rw [State.tree_of_constructs hc, State.tree_of_constructs hct, h.treeBefore_eq]

theorem BlockMove.showsSame (h : BlockMove s t) (hb : t.busy = true) : s.ShowsSame t := by
  rcases h.fault_cases with ⟨hf, hc⟩ | ⟨-, -, hidle⟩
  · exact ⟨h.params_eq, h.freq_eq, hc, hf, h.underflow_eq hb, h.tree_shown_eq hb⟩
  · rw [hidle] at hb; cases hb

/-- The first step of a command shows what the host read before it. -/
theorem CommandMove.showsSame (h : CommandMove s t) (hb : t.busy = true) : s.ShowsSame t := by
  cases h with
  | ignored => exact ⟨rfl, rfl, rfl, rfl, rfl, rfl⟩
  | cleared hidle => rw [State.busy, State.acknowledge_sequencer, ← State.busy, hidle] at hb; cases hb
  | illegal => cases hb
  | build hidle | save hidle | load hidle | decode hidle =>
    exact ⟨rfl, rfl, rfl, rfl, rfl, (State.tree_of_idle (State.sequencer_of_not_busy hidle)).symm⟩

/-- A host write to any register but `CMD` does nothing while a command runs (40_control.md R114). -/
theorem hostWrite_of_busy (addr : Offset) (w : Word) (hb : s.busy = true) : hostWrite addr w s = s := by
  unfold hostWrite
  split
  · rw [hb, Bool.true_or, if_pos rfl]
  all_goals rfl

theorem hostRead_showsSame (addr : Offset) (s : State) : s.ShowsSame (hostRead addr s) := by
  unfold hostRead
  split <;> exact ⟨rfl, rfl, rfl, rfl, rfl, rfl⟩

/-- No host write but one to `CMD` starts or ends a command. -/
theorem hostWrite_busy (addr : Offset) (w : Word) (s : State) : (hostWrite addr w s).busy = s.busy := by
  unfold hostWrite
  split
  · split <;> rfl
  all_goals rfl

theorem HostMove.showsSame {a : HostAction} (h : HostMove s a t) (hb : t.busy = true) : s.ShowsSame t := by
  cases h with
  | command _ _ _ hm => exact hm.showsSame hb
  | wrote addr w =>
    rw [hostWrite_busy] at hb
    rw [hostWrite_of_busy addr w hb]
    exact ⟨rfl, rfl, rfl, rfl, rfl, rfl⟩
  | didRead addr => exact hostRead_showsSame addr s
  | didReset => cases hb
  | gotBits | moreBits | gotText | moreText | drained | waited => exact ⟨rfl, rfl, rfl, rfl, rfl, rfl⟩

/-- A step after which a command runs leaves what the host reads but for `BUSY`. -/
theorem step_showsSame (h : step s = .next t) (hb : t.busy = true) : s.ShowsSame t := by
  rcases step_cases h with ⟨script, bits, text, -, hm⟩ | ⟨a, rest, -, hm⟩
  · exact { hm.showsSame hb with }
  · exact { hm.showsSame hb with }

/-! ### A host read -/

/-- A read of a register the block decodes appends its value. -/
theorem hostRead_of_some {addr : Offset} {w : Word} (h : s.hostValue addr = some w) :
    hostRead addr s = { s with reads := s.reads ++ [w] } := by
  simp only [hostRead, h]

theorem hostRead_of_none {addr : Offset} (h : s.hostValue addr = none) :
    hostRead addr s =
      { s with reads := s.reads ++ [Config.platformRead s.freeCount addr], freeCount := s.freeCount + 1 } := by
  simp only [hostRead, h]

/-- The block decodes every offset below `0x800`. -/
theorem State.hostValue_eq_none {addr : Offset} : s.hostValue addr = none ↔ 0x800 ≤ addr.toNat := by
  rw [← hostReg_eq_undecoded]
  unfold State.hostValue
  cases hostReg addr <;> simp

end

/-- Settles O57: a read appends the value of the register that the map selects, and a step after which a command runs leaves
the fields those values are made of, but for the sequencer's `BUSY`. -/
theorem hostReadsTheRegisters : Obligations.HostReadsTheRegisters := by
  unfold Obligations.HostReadsTheRegisters
  refine ⟨fun s addr rest hh => ?_, fun s t h hb => ?_⟩
  · have hstep : step s = .next (hostRead addr { s with host := rest }) := step_of_host hh nofun
    cases hv : ({ s with host := rest } : State).hostValue addr with
    | none =>
      have haddr := State.hostValue_eq_none.mp hv
      rw [hostRead_of_none hv] at hstep
      exact ⟨_, by omega, fun _ => hstep, by omega, by omega, by omega, by omega, by omega⟩
    | some w =>
      rw [hostRead_of_some hv] at hstep
      have haddr : ¬ 0x800 ≤ addr.toNat := fun h => by rw [State.hostValue_eq_none.mpr h] at hv; cases hv
      unfold State.hostValue at hv
      refine ⟨w, fun _ => hstep, fun h => absurd h haddr, fun h => ?_, fun h₁ h₂ => ?_, fun h₁ h₂ => ?_, fun h₁ h₂ => ?_,
        fun h₁ h₂ => ?_⟩
      · rw [hostReg_eq_cmd.mpr h] at hv
        cases hv; rfl
      · rw [hostReg_eq_status h₁ h₂] at hv
        cases hv; exact State.statusWord_toNat s
      · rw [hostReg_eq_cause h₁ h₂] at hv
        cases hv
        exact (State.causeWord_toNat s).trans (by cases s.cause <;> rfl)
      · rw [hostReg_eq_reserved h₁ h₂] at hv
        cases hv; rfl
      · rw [hostReg_eq_freq h₁ h₂] at hv
        cases hv; rfl
  · have hshow := step_showsSame h hb
    exact ⟨fun addr => hshow.hostValue_eq, fun i _ => hshow.statusWord_getLsbD_eq⟩

/-! ### A host write -/

section
variable {s : State} {addr : Offset} {w : Word} {rest : List HostAction}

theorem State.freqAt_eq (s : State) (i : Nat) : s.freqAt i = (s.freq[i]?).getD 0#32 := by
  simp only [State.freqAt, Vector.getD, Array.getD_eq_getD_getElem?, Vector.getElem?_toArray]

/-- A host write to any register but `CMD` is the whole of the next step. -/
theorem step_of_hostWrite {t : State} (hh : s.host = .write addr w :: rest) (haddr : 4 ≤ addr.toNat)
    (ht : hostWrite addr w { s with host := rest } = t) : step s = .next t := by
  have hcmd : hostReg addr ≠ .cmd := fun h => by have := hostReg_eq_cmd.mp h; omega
  rw [step_of_host hh nofun]
  simp only [hostNext, if_neg hcmd, Fetched.outcome, ht]

theorem hostWrite_of_freq {i : Nat} (hr : hostReg addr = .freq i) (hb : s.busy = false)
    (hp : s.params.hasBuilder = true) : hostWrite addr w s = { s with freq := s.freq.setIfInBounds i w } := by
  simp only [hostWrite, hr, hb, hp, Bool.not_true, Bool.or_false, Bool.false_eq_true, if_false]

/-- Without a builder there is no frequency file, and a write changes nothing (10_state.md R25). -/
theorem hostWrite_of_no_builder (hp : s.params.hasBuilder = false) : hostWrite addr w s = s := by
  unfold hostWrite
  split
  · rw [hp, Bool.not_false, Bool.or_true, if_pos rfl]
  all_goals rfl

theorem hostWrite_of_undecoded (hr : hostReg addr = .undecoded) : hostWrite addr w s = s := by
  simp only [hostWrite, hr]

/-- `STATUS`, `CAUSE` and the reserved offsets take no write (20_memory.md R52). -/
theorem hostWrite_of_below_freq (haddr : addr.toNat < 0x400) : hostWrite addr w s = s := by
  unfold hostWrite
  split
  · have := le_of_hostReg_eq_freq ‹_›; omega
  all_goals rfl

end

/-- Settles O58: each range of offsets is one register of the map, and `hostWrite` sets the entry of the frequency file alone. -/
theorem hostWritesTheFrequencyFile : Obligations.HostWritesTheFrequencyFile := by
  unfold Obligations.HostWritesTheFrequencyFile
  intro s addr w rest hb hh
  refine ⟨fun h₁ h₂ hp => ?_, fun h₁ h₂ => step_of_hostWrite hh (by omega) ?_, fun h₁ h₂ => ?_⟩
  · have hi : (addr.toNat - 0x400) / 4 < 256 := by omega
    refine ⟨_, step_of_hostWrite hh (by omega) (hostWrite_of_freq (hostReg_eq_freq h₁ h₂) hb hp), rfl, ?_, fun i hne => ?_⟩
    · rw [State.freqAt_eq, Vector.getElem?_setIfInBounds_self_of_lt hi, Option.getD_some]
    · rw [State.freqAt_eq, Vector.getElem?_setIfInBounds_ne hne.symm, State.freqAt_eq]
  · rcases h₂ with hp | h₂
    · exact hostWrite_of_no_builder hp
    · exact hostWrite_of_undecoded (hostReg_eq_undecoded.mpr h₂)
  · exact step_of_hostWrite hh h₁ (hostWrite_of_below_freq h₂)

/-! ## The model's own stops (logs 8, 9) -/

section
variable {s : State}

theorem walkStep_of_not_walk (hq : s.sequencer ≠ .walk) (b : Bool) : walkStep b s = .fault .unitNotRunning := by
  unfold walkStep
  split
  · exact absurd ‹_› hq
  · rfl

theorem digitStep_of_not_sym (hq : ∀ v n, s.sequencer ≠ .sym v n) (d : Nat) :
    digitStep d s = .fault .unitNotRunning := by
  unfold digitStep
  split
  · exact absurd ‹_› (hq _ _)
  · rfl

theorem execSymEol_of_not_sym (hq : ∀ v n, s.sequencer ≠ .sym v n) : execSymEol s = .fault .unitNotRunning := by
  unfold execSymEol
  split
  · exact absurd ‹_› (hq _ _)
  · rfl

theorem edgeStep_of_not_code (hq : ∀ v pos, s.sequencer ≠ .code v pos) (b : Bool) :
    edgeStep b s = .fault .unitNotRunning := by
  unfold edgeStep
  split
  · exact absurd ‹_› (hq _ _)
  · rfl

theorem execCodeEol_of_not_code (hq : ∀ v pos, s.sequencer ≠ .code v pos) :
    execCodeEol s = .fault .unitNotRunning := by
  unfold execCodeEol
  split
  · exact absurd ‹_› (hq _ _)
  · rfl

theorem walkStep_of_not_lt (hq : s.sequencer = .walk) (hv : s.cursorValid = true) (hk : ¬ s.cursor < s.nextFree)
    (b : Bool) : walkStep b s = .fault .undefinedNodeRead := by
  simp only [walkStep, hq, hv, Bool.not_true, Bool.false_eq_true, if_false, State.withNode_of_not_lt hk]

theorem edgeStep_of_not_lt {v pos : Nat} (hq : s.sequencer = .code v pos) (hk : ¬ pos < s.nextFree) (b : Bool) :
    edgeStep b s = .fault .undefinedNodeRead := by
  simp only [edgeStep, hq, State.withNode_of_not_lt hk]

theorem execCodeEol_of_not_lt {v pos : Nat} (hq : s.sequencer = .code v pos) (hk : ¬ pos < s.nextFree) :
    execCodeEol s = .fault .undefinedNodeRead := by
  simp only [execCodeEol, hq, markLeaf, State.withNode_of_not_lt hk]

end

/-- Settles O45: a stream unit looks at the sequencer first and then reads the record it stands at. -/
theorem streamUnitsStopByName : Obligations.StreamUnitsStopByName := by
  unfold Obligations.StreamUnitsStopByName
  intro s
  simp only [List.forall_mem_cons]
  refine ⟨fun hq => ⟨walkStep_of_not_walk hq _, walkStep_of_not_walk hq _⟩, fun hq => ?_, fun hq => ?_,
    fun hq hv hk => ?_, fun v pos hq hk => ?_⟩
  · have hd := digitStep_of_not_sym hq
    exact ⟨hd 0, hd 1, hd 2, hd 3, hd 4, hd 5, hd 6, hd 7, hd 8, hd 9, execSymEol_of_not_sym hq, nofun⟩
  · exact ⟨edgeStep_of_not_code hq _, edgeStep_of_not_code hq _, execCodeEol_of_not_code hq, nofun⟩
  · have hk := Nat.not_lt.mpr hk
    exact ⟨walkStep_of_not_lt hq hv hk _, walkStep_of_not_lt hq hv hk _⟩
  · have hk := Nat.not_lt.mpr hk
    exact ⟨edgeStep_of_not_lt hq hk _, edgeStep_of_not_lt hq hk _, execCodeEol_of_not_lt hq hk, nofun⟩

end Sys2Proof.Machine

namespace Sys2Proof.Machine

/-! ## The decoder and the encoder are inverse (30_encoding.md sections 2 to 4) -/

/-- What the decoder may answer for the unit `u`: an instruction only if the block has it and `u` is its unit. -/
def ReadsUnit (p : Params) (u : FetchUnit) : Except Reject Instr → Prop
  | .ok i => i.wellFormed p = true ∧ encode i = u
  | .error _ => True

theorem ReadsUnit.of_eq_ok {p : Params} {u : FetchUnit} {r : Except Reject Instr} {i : Instr} (h : ReadsUnit p u r)
    (hi : r = .ok i) : i.wellFormed p = true ∧ encode i = u := by
  subst hi
  exact h

/-- One row of a decoding table: a unit equal to the row's is answered with the row's instruction, and the rows below
answer for the others. -/
theorem ReadsUnit.row {α : Type} [DecidableEq α] {unit : α → FetchUnit} {p : Params} {x c : α} {i : Instr}
    {rest : Except Reject Instr} (hwf : i.wellFormed p = true) (henc : encode i = unit c)
    (hrest : ReadsUnit p (unit x) rest) : ReadsUnit p (unit x) (if x = c then .ok i else rest) :=
  iteInduction (motive := ReadsUnit p (unit x)) (fun hx => ⟨hwf, hx ▸ henc⟩) fun _ => hrest

theorem decodeCmd_readsUnit (p : Params) (w : Word) : ReadsUnit p (.cmd w) (decodeCmd p w) := by
  unfold decodeCmd
  refine .row rfl rfl ?_
  refine iteInduction (motive := ReadsUnit p (.cmd w)) (fun hw => ?_) fun _ => ?_
  · exact iteInduction (motive := ReadsUnit p (.cmd w)) (fun hp => ⟨hp, hw ▸ rfl⟩) fun _ => trivial
  · exact .row rfl rfl (.row rfl rfl (.row rfl rfl trivial))

theorem decodeTextSym_readsUnit (p : Params) (ch : Byte) : ReadsUnit p (.textSym ch) (decodeTextSym ch) := by
  unfold decodeTextSym
  iterate 11 refine .row rfl rfl ?_
  trivial

theorem decodeTextCode_readsUnit (p : Params) (ch : Byte) : ReadsUnit p (.textCode ch) (decodeTextCode ch) := by
  unfold decodeTextCode
  iterate 3 refine .row rfl rfl ?_
  trivial

theorem decode_readsUnit (p : Params) : (u : FetchUnit) → ReadsUnit p u (decode p u)
  | .cmd w => decodeCmd_readsUnit p w
  | .bit false | .bit true => ⟨rfl, rfl⟩
  | .textSym ch => decodeTextSym_readsUnit p ch
  | .textCode ch => decodeTextCode_readsUnit p ch

open Laws in
theorem decode_encode {p : Params} {i : Instr} : i.wellFormed p = true → decode p (encode i) = .ok i := by
  revert p
  change RoundTrip.Statement i
  cases i
  exacts [RoundTrip.clear, RoundTrip.build, RoundTrip.save, RoundTrip.load, RoundTrip.decode, RoundTrip.left,
    RoundTrip.right, RoundTrip.symDigit0, RoundTrip.symDigit1, RoundTrip.symDigit2, RoundTrip.symDigit3,
    RoundTrip.symDigit4, RoundTrip.symDigit5, RoundTrip.symDigit6, RoundTrip.symDigit7, RoundTrip.symDigit8,
    RoundTrip.symDigit9, RoundTrip.symEol, RoundTrip.code0, RoundTrip.code1, RoundTrip.codeEol]

/-- Settles O3: every row of the decoding tables is a row of the encoder's, and the decoder reads every unit of the encoder
back. -/
theorem decodeInvertsEncode : Obligations.DecodeInvertsEncode := by
  unfold Obligations.DecodeInvertsEncode
  intro p u i
  constructor
  · exact (decode_readsUnit p u).of_eq_ok
  · rintro ⟨hwf, rfl⟩
    exact decode_encode hwf

/-- Settles O2: six of the units are the encoder's, and the other two are in no row of their format's table. -/
theorem writtenOutUnitsDecode : Obligations.WrittenOutUnitsDecode := by
  unfold Obligations.WrittenOutUnitsDecode
  exact ⟨decode_encode (i := .clear) rfl, decode_encode (i := .decode) rfl, rfl, decode_encode (i := .right) rfl,
    decode_encode (i := .symDigit7) rfl, decode_encode (i := .symEol) rfl, decode_encode (i := .code1) rfl, rfl⟩

/-! ## The bit layout of a node record (30_encoding.md R93) -/

section
variable {x n a y : Nat}

/-- The lowest `n` bits of `x`, where `a` stands there with `y` above it. -/
theorem mod_of_field (h : x = a + 2 ^ n * y) (ha : a < 2 ^ n) : x % 2 ^ n = a := by
  rw [h, Nat.add_mul_mod_self_left, Nat.mod_eq_of_lt ha]

theorem div_of_field (h : x = a + 2 ^ n * y) (ha : a < 2 ^ n) : x / 2 ^ n = y := by
  rw [h, Nat.add_mul_div_left _ _ (Nat.two_pow_pos n), Nat.div_eq_of_lt ha, Nat.zero_add]

theorem div_of_field_at {k k' : Nat} (h : x / 2 ^ k = a + 2 ^ n * y) (ha : a < 2 ^ n) (hk : k' = k + n) :
    x / 2 ^ k' = y := by
  rw [hk, Nat.pow_add, ← Nat.div_div_eq_div_mul, div_of_field h ha]

theorem decide_of_flag {b : Bool} (h : x = b.toNat + 2 ^ 1 * y) : decide (x % 2 = 1) = b := by
  have hf : x % 2 = b.toNat := mod_of_field h b.toNat_lt
  rw [hf]
  cases b <;> rfl

theorem ofNat_of_field {v : BitVec n} (h : x = v.toNat + 2 ^ n * y) : BitVec.ofNat n x = v :=
  BitVec.eq_of_toNat_eq (mod_of_field h v.isLt)

end

/-- The layout from bit 0 up, each field with what stands above it. -/
theorem NodeRec.pack_eq_fields (w : Nat) (r : NodeRec) :
    r.pack w = r.hasSym.toNat + 2 ^ 1 * (r.sym.toNat + 2 ^ 8 * (r.lValid.toNat + 2 ^ 1 * (r.lIdx + 2 ^ w *
      (r.rValid.toNat + 2 ^ 1 * (r.rIdx + 2 ^ w * (r.weight.toNat + 2 ^ 40 * 0)))))) := by
  unfold NodeRec.pack
  ring

/-- Settles O4: going up the layout, each field is read where it was put, and above it the rest. -/
theorem recordLayoutRoundTrips : Obligations.RecordLayoutRoundTrips := by
  unfold Obligations.RecordLayoutRoundTrips
  intro w r hl hr
  have hHasSym := r.pack_eq_fields w
  have hSym : _ / 2 ^ 1 = _ := div_of_field hHasSym r.hasSym.toNat_lt
  have hLValid : _ / 2 ^ 9 = _ := div_of_field_at hSym r.sym.isLt rfl
  have hLIdx : _ / 2 ^ 10 = _ := div_of_field_at hLValid r.lValid.toNat_lt rfl
  have hRValid : _ / 2 ^ (10 + w) = _ := div_of_field_at hLIdx hl rfl
  have hRIdx : _ / 2 ^ (11 + w) = _ := div_of_field_at hRValid r.rValid.toNat_lt (by omega)
  have hWeight : _ / 2 ^ (11 + 2 * w) = _ := div_of_field_at hRIdx hr (by omega)
  simp only [NodeRec.unpack, decide_of_flag hHasSym, ofNat_of_field hSym, decide_of_flag hLValid, mod_of_field hLIdx hl,
    decide_of_flag hRValid, mod_of_field hRIdx hr, ofNat_of_field hWeight]

/-! ## The symbol line of a record (30_encoding.md R92; 42_save_load.md R147) -/

/-- The text byte of a decimal digit (30_encoding.md R89). -/
def digitByte (d : Nat) : Byte := BitVec.ofNat 8 (0x30 + d)

theorem digitByte_toNat {d : Nat} (hd : d < 10) : (digitByte d).toNat = 0x30 + d := by
  rw [digitByte, BitVec.toNat_ofNat]
  omega

theorem digitByte_eq_zero_iff {d : Nat} (hd : d < 10) : digitByte d = 0x30#8 ↔ d = 0 := by
  rw [BitVec.toNat_eq, digitByte_toNat hd]
  exact Nat.add_eq_left

theorem accumulate_digitByte {v d : Nat} (hd : d < 10) (h : v * 10 + d ≤ 256) :
    accumulate v ((digitByte d).toNat - 0x30) = v * 10 + d := by
  rw [digitByte_toNat hd, Nat.add_sub_cancel_left]
  exact Nat.min_eq_left h

/-- The symbol line of a symbol, by the number of its digits. -/
inductive DecimalLine (n : Nat) : List Byte → Prop
  | one (h : n < 10) : DecimalLine n [digitByte n]
  | two (h : 10 ≤ n) (h' : n < 100) : DecimalLine n [digitByte (n / 10), digitByte (n % 10)]
  | three (h : 100 ≤ n) (h' : n < 256) : DecimalLine n [digitByte (n / 100), digitByte (n / 10 % 10), digitByte (n % 10)]

theorem decimalDigits_line (sym : Byte) : DecimalLine sym.toNat (decimalDigits sym) := by
  unfold decimalDigits
  have hsym := sym.isLt
  rcases Nat.lt_or_ge sym.toNat 100 with h100 | h100
  · rw [if_neg (Nat.not_le.mpr h100)]
    rcases Nat.lt_or_ge sym.toNat 10 with h10 | h10
    · rw [if_neg (Nat.not_le.mpr h10), Nat.mod_eq_of_lt h10]
      exact .one h10
    · rw [if_pos h10, Nat.mod_eq_of_lt (by omega : sym.toNat / 10 < 10)]
      exact .two h10 h100
  · rw [if_pos h100, if_pos (by omega)]
    exact .three h100 hsym

section
variable {n : Nat} {line : List Byte}

theorem DecimalLine.accumulates (h : DecimalLine n line) :
    line.foldl (fun v ch => accumulate v (ch.toNat - 0x30)) 0 = n := by
  cases h <;> simp (disch := omega) only [List.foldl_cons, List.foldl_nil, accumulate_digitByte] <;> omega

theorem DecimalLine.forall_digit (h : DecimalLine n line) : ∀ ch ∈ line, ∃ d < 10, ch = digitByte d := by
  cases h <;> simp only [List.forall_mem_cons, List.not_mem_nil, false_implies, implies_true, and_true]
  case one h => exact ⟨_, h, rfl⟩
  case two => exact ⟨⟨_, by omega, rfl⟩, _, by omega, rfl⟩
  case three => exact ⟨⟨_, by omega, rfl⟩, ⟨_, by omega, rfl⟩, _, by omega, rfl⟩

theorem DecimalLine.eq_zero_of_head? (h : DecimalLine n line) (hz : line.head? = some 0x30#8) : n = 0 := by
  cases h
  all_goals
    have hd := (digitByte_eq_zero_iff (by omega)).mp (Option.some.inj hz)
    omega

theorem DecimalLine.length_eq (h : DecimalLine n line) : line.length = if 100 ≤ n then 3 else if 10 ≤ n then 2 else 1 := by
  cases h <;> simp only [List.length_cons, List.length_nil] <;> split_ifs <;> omega

end

/-- Settles O23: by the number of digits of the line. -/
theorem symbolLineIsMinimalDecimal : Obligations.SymbolLineIsMinimalDecimal := by
  unfold Obligations.SymbolLineIsMinimalDecimal
  intro sym
  have hline := decimalDigits_line sym
  refine ⟨hline.accumulates, fun ch hch => ?_, fun hz => ?_, hline.length_eq⟩
  · obtain ⟨d, hd, rfl⟩ := hline.forall_digit ch hch
    rw [digitByte_toNat hd]
    omega
  · exact BitVec.eq_of_toNat_eq (hline.eq_zero_of_head? hz)

end Sys2Proof.Machine

namespace Sys2Proof.Machine

/-! ## Whose word or unit a step takes (40_control.md R110; 42_save_load.md R157; 43_decode.md R188) -/

section
variable {s : State} {i : Instr}

theorem fetchUnit_of_ok {u : FetchUnit} (h : decode s.params u = .ok i) : (fetchUnit u s).outcome = exec i s := by
  simp only [fetchUnit, h, Fetched.outcome]

theorem fetchUnit_of_error {u : FetchUnit} {r : Reject} (h : decode s.params u = .error r) :
    (fetchUnit u s).outcome = rejected r s := by
  simp only [fetchUnit, h, Fetched.outcome]

/-- At the block's turn the step is the unit's that runs. -/
theorem step_of_blockTurn {h : List HostAction} (hb : s.BlockTurn h) :
    step s = (blockNext { s with host := h }).outcome := by
  rw [step_eq_outcome, State.fetchNext_of_blockTurn hb]

/-- A host write to `CMD` is the fetch of its word. -/
theorem step_of_cmd {addr : Offset} {w : Word} {rest : List HostAction} (hh : s.host = .write addr w :: rest)
    (haddr : addr.toNat < 4) : step s = (fetchUnit (.cmd w) { s with host := rest }).outcome := by
  rw [step_of_host hh nofun]
  simp only [hostNext, if_pos (hostReg_eq_cmd.mpr haddr)]

theorem step_of_cmd_ok {addr : Offset} {w : Word} {rest : List HostAction} (hh : s.host = .write addr w :: rest)
    (haddr : addr.toNat < 4) (hd : decode s.params (.cmd w) = .ok i) : step s = exec i { s with host := rest } :=
  (step_of_cmd hh haddr).trans (fetchUnit_of_ok hd)

theorem step_of_bit {h : List HostAction} {b : Bool} {bits : List Bool} (hb : s.BlockTurn h) (hq : s.sequencer = .walk)
    (hbits : s.bitsIn = b :: bits) (hd : decode s.params (.bit b) = .ok i) :
    step s = exec i { s with host := h, bitsIn := bits } := by
  rw [step_of_blockTurn hb]
  simp only [blockNext, hq, hbits]
  exact fetchUnit_of_ok hd

theorem step_of_symByte {h : List HostAction} {v : Nat} {n : Bool} {ch : Byte} {text : List Byte} (hb : s.BlockTurn h)
    (hq : s.sequencer = .sym v n) (htext : s.textIn = ch :: text) (hd : decode s.params (.textSym ch) = .ok i) :
    step s = exec i { s with host := h, textIn := text } := by
  rw [step_of_blockTurn hb]
  simp only [blockNext, hq, htext]
  exact fetchUnit_of_ok hd

theorem step_of_codeByte {h : List HostAction} {v pos : Nat} {ch : Byte} {text : List Byte} (hb : s.BlockTurn h)
    (hq : s.sequencer = .code v pos) (htext : s.textIn = ch :: text) (hd : decode s.params (.textCode ch) = .ok i) :
    step s = exec i { s with host := h, textIn := text } := by
  rw [step_of_blockTurn hb]
  simp only [blockNext, hq, htext]
  exact fetchUnit_of_ok hd

end

/-- Settles O5: one clause for each of the four places a unit is fetched from. -/
theorem stepRunsTheDecodedUnit : Obligations.StepRunsTheDecodedUnit := by
  unfold Obligations.StepRunsTheDecodedUnit
  exact ⟨fun _ _ _ _ _ => step_of_cmd_ok, fun _ _ _ _ _ => step_of_bit, fun _ _ _ _ _ _ _ => step_of_symByte,
    fun _ _ _ _ _ _ _ => step_of_codeByte⟩

/-! ### A unit that was placed (log 5) -/

theorem State.placeUnit_textSym (s : State) (ch : Byte) :
    ∃ v n, s.placeUnit (.textSym ch)
      = { s with host := .tick :: s.host, textIn := ch :: s.textIn, sequencer := .sym v n } := by
  cases hq : s.sequencer
  all_goals
    simp only [State.placeUnit, hq]
    exact ⟨_, _, rfl⟩

theorem State.placeUnit_textCode (s : State) (ch : Byte) :
    ∃ v pos, s.placeUnit (.textCode ch)
      = { s with host := .tick :: s.host, textIn := ch :: s.textIn, sequencer := .code v pos } := by
  cases hq : s.sequencer
  all_goals
    simp only [State.placeUnit, hq]
    exact ⟨_, _, rfl⟩

/-- Settles O6: the step takes the placed unit off again, and the decoder reads every unit of the encoder back. -/
theorem placedUnitRunsNext : Obligations.PlacedUnitRunsNext := by
  unfold Obligations.PlacedUnitRunsNext
  intro s i hwf
  have hd := decode_encode hwf
  refine ⟨fun w hu => ?_, fun b hu => ?_, fun ch hu => ?_, fun ch hu => ?_⟩
  all_goals rw [hu] at hd ⊢
  · exact step_of_cmd_ok (s := s.placeUnit (.cmd w)) rfl (by decide) hd
  · exact step_of_bit (s := s.placeUnit (.bit b)) (.inr (.inl rfl)) rfl rfl hd
  · obtain ⟨v, n, hp⟩ := s.placeUnit_textSym ch
    rw [hp]
    exact ⟨v, n, step_of_symByte (.inr (.inl rfl)) rfl rfl hd⟩
  · obtain ⟨v, pos, hp⟩ := s.placeUnit_textCode ch
    rw [hp]
    exact ⟨v, pos, step_of_codeByte (.inr (.inl rfl)) rfl rfl hd⟩

/-! ## Command words (40_control.md R110 to R114) -/

section
variable {s : State}

theorem execClear_of_busy (hb : s.busy = true) : execClear s = .next s := by
  rw [execClear, hb, if_pos rfl]

theorem execBuild_ignored (h : s.busy = true ∨ s.fault = true) : execBuild s = .next s := State.accept_ignored h _

theorem execSave_ignored (h : s.busy = true ∨ s.fault = true) : execSave s = .next s := State.accept_ignored h _

theorem execLoad_ignored (h : s.busy = true ∨ s.fault = true) : execLoad s = .next s := State.accept_ignored h _

theorem execDecode_ignored (h : s.busy = true ∨ s.fault = true) : execDecode s = .next s := State.accept_ignored h _

theorem illegalCommand_ignored (h : s.busy = true ∨ s.fault = true) : illegalCommand s = .next s :=
  State.accept_ignored h _

theorem execClear_of_idle (hb : s.busy = false) : execClear s = .next s.acknowledge := by
  rw [execClear, hb, if_neg Bool.false_ne_true]

/-- Without a running command a fault changes `FAULT` and `CAUSE` alone (60_exceptions.md R224). -/
theorem State.raise_of_idle (hb : s.busy = false) (c : Cause) : s.raise c = { s with fault := true, cause := c } := by
  have hq := State.sequencer_of_not_busy hb
  simp only [State.raise, hq, Sequencer.constructs, Bool.false_eq_true, if_false]

end

section
variable {p : Params} {w : Word}

/-- `CLEAR` has one word (30_encoding.md R82). -/
theorem eq_of_decode_cmd_clear (h : decode p (.cmd w) = .ok .clear) : w = 0x00000001#32 :=
  (FetchUnit.cmd.inj ((decode_readsUnit p (.cmd w)).of_eq_ok h).2).symm

/-- The reserved command words (30_encoding.md R83). -/
theorem decode_cmd_reserved (hw : w.toNat = 0 ∨ 6 ≤ w.toNat ∨ (w.toNat = 2 ∧ p.hasBuilder = false)) :
    decode p (.cmd w) = .error .reservedCommand := by
  have hu := decode_cmd p w
  have hread := decode_readsUnit p (.cmd w)
  generalize decode p (.cmd w) = e at hu hread
  cases hu with
  | reserved => rfl
  | build =>
    obtain ⟨hp, henc⟩ := hread
    cases henc
    rw [show p.hasBuilder = true from hp] at hw
    exact absurd hw (by decide)
  | clear | save | load | decode =>
    obtain ⟨-, henc⟩ := hread
    cases henc
    exact absurd hw (by simp)

/-- A command word that is not accepted changes nothing; `CLEAR` is accepted unless a command runs. -/
theorem fetchUnit_cmd_ignored {s : State} (h : s.busy = true ∨ s.fault = true)
    (hclear : w = 0x00000001#32 → s.busy = true) : (fetchUnit (.cmd w) s).outcome = .next s := by
  have hu := decode_cmd s.params w
  cases hd : decode s.params (.cmd w) with
  | ok i =>
    rw [hd] at hu
    refine (fetchUnit_of_ok hd).trans ?_
    cases hu with
    | clear => exact execClear_of_busy (hclear (eq_of_decode_cmd_clear hd))
    | build => exact execBuild_ignored h
    | save => exact execSave_ignored h
    | load => exact execLoad_ignored h
    | decode => exact execDecode_ignored h
  | error r =>
    rw [hd] at hu
    refine (fetchUnit_of_error hd).trans ?_
    cases hu with
    | reserved => exact illegalCommand_ignored h

/-- A reserved word that is accepted sets `FAULT` and `CAUSE` (40_control.md R113). -/
theorem fetchUnit_cmd_reserved {s : State} (hb : s.busy = false) (hf : s.fault = false)
    (hw : w.toNat = 0 ∨ 6 ≤ w.toNat ∨ (w.toNat = 2 ∧ s.params.hasBuilder = false)) :
    (fetchUnit (.cmd w) s).outcome = .next { s with fault := true, cause := .illegalCmd } := by
  have hready : illegalCommand s = .next (s.raise .illegalCmd) := State.accept_of_ready hb hf _
  rw [← State.raise_of_idle hb, ← hready]
  exact fetchUnit_of_error (decode_cmd_reserved hw)

end

/-- Settles O7: a command word is not accepted, and no other register takes a write. -/
theorem busyBlockIgnoresHostWrites : Obligations.BusyBlockIgnoresHostWrites := by
  unfold Obligations.BusyBlockIgnoresHostWrites
  intro s addr w rest hb hh
  by_cases haddr : addr.toNat < 4
  · rw [step_of_cmd hh haddr]
    exact fetchUnit_cmd_ignored (.inl hb) fun _ => hb
  · exact step_of_hostWrite hh (Nat.not_lt.mp haddr) (hostWrite_of_busy addr w hb)

/-- Settles O8: `CLEAR` acknowledges the fault, and no other word is accepted. -/
theorem faultedBlockAcceptsOnlyClear : Obligations.FaultedBlockAcceptsOnlyClear := by
  unfold Obligations.FaultedBlockAcceptsOnlyClear
  intro s addr w rest hb hf hh haddr
  by_cases hw : w = 0x00000001#32
  · subst hw
    exact (step_of_cmd_ok hh haddr (i := .clear) rfl).trans (execClear_of_idle hb)
  · rw [if_neg hw, step_of_cmd hh haddr]
    exact fetchUnit_cmd_ignored (.inr hf) fun h => absurd h hw

/-- Settles O10: dispatch raises the fault with no command running. -/
theorem reservedWordRaisesIllegal : Obligations.ReservedWordRaisesIllegal := by
  unfold Obligations.ReservedWordRaisesIllegal
  intro s addr w rest hb hf hh haddr hw
  exact (step_of_cmd hh haddr).trans (fetchUnit_cmd_reserved hb hf hw)

/-- Settles O9: the four commands begin with the test of R110, `CLEAR` with that of `BUSY`. -/
theorem unacceptedCommandsChangeNothing : Obligations.UnacceptedCommandsChangeNothing := by
  unfold Obligations.UnacceptedCommandsChangeNothing
  intro s
  exact ⟨fun h => ⟨execBuild_ignored h, execSave_ignored h, execLoad_ignored h, execDecode_ignored h⟩, execClear_of_busy⟩

/-- Settles O11: `CLEAR` is `acknowledge`, whose flags are those of reset once the sequencer is idle. -/
theorem clearDiscardsTreeAndFault : Obligations.ClearDiscardsTreeAndFault := by
  unfold Obligations.ClearDiscardsTreeAndFault
  intro s hb
  have hq : s.acknowledge.sequencer = .idle := State.sequencer_of_not_busy hb
  refine ⟨s.acknowledge, execClear_of_idle hb, rfl, ?_, rfl, hq, rfl⟩
  rw [State.statusWord, State.tree_of_idle hq, State.busy, hq]
  rfl

/-! ## Running commands end (40_control.md R111; 70_reset_and_hazards.md R255)

`EndsWithin n` bounds what is left of a command by its own data, every step of the unit that runs uses some of it, and at 0 no
command is running. -/

/-- What is left of the command takes at most `n` steps: the bits or bytes left and the end of the stream; for each symbol to
scan, its scan and at most one merge more; the merges and the root. Of `SAVE` it says nothing. -/
def State.EndsWithin (s : State) (n : Nat) : Prop :=
  match s.sequencer with
  | .idle => True
  | .walk => s.bitsIn.length < n
  | .sym _ _ | .code _ _ => s.textIn.length < n
  | .scan i q _ => i < 256 ∧ q.length + 2 * (256 - i) ≤ n
  | .merge q _ => 0 < n ∧ q.length ≤ n
  | .visit _ => False

section
variable {s t : State} {n : Nat}

theorem State.endsWithin_of_idle (hq : s.sequencer = .idle) : s.EndsWithin n := by
  rw [State.EndsWithin, hq]
  trivial

theorem State.endsWithin_walk (hq : s.sequencer = .walk) : s.EndsWithin n ↔ s.bitsIn.length < n := by
  rw [State.EndsWithin, hq]

theorem State.endsWithin_sym {v : Nat} {b : Bool} (hq : s.sequencer = .sym v b) :
    s.EndsWithin n ↔ s.textIn.length < n := by
  rw [State.EndsWithin, hq]

theorem State.endsWithin_code {v pos : Nat} (hq : s.sequencer = .code v pos) :
    s.EndsWithin n ↔ s.textIn.length < n := by
  rw [State.EndsWithin, hq]

theorem State.endsWithin_scan {i : Nat} {q : List QEntry} {seq : Seq} (hq : s.sequencer = .scan i q seq) :
    s.EndsWithin n ↔ i < 256 ∧ q.length + 2 * (256 - i) ≤ n := by
  rw [State.EndsWithin, hq]

theorem State.endsWithin_merge {q : List QEntry} {seq : Seq} (hq : s.sequencer = .merge q seq) :
    s.EndsWithin n ↔ 0 < n ∧ q.length ≤ n := by
  rw [State.EndsWithin, hq]

theorem State.not_endsWithin_visit {stack : List (Nat × List Bool)} (hq : s.sequencer = .visit stack) :
    ¬ s.EndsWithin n := by
  rw [State.EndsWithin, hq]
  exact id

theorem State.EndsWithin.busy_zero (h : s.EndsWithin 0) : s.busy = false := by
  cases hq : s.sequencer with
  | idle => rw [State.busy, hq]; rfl
  | walk => exact absurd ((State.endsWithin_walk hq).mp h) (Nat.not_lt_zero _)
  | sym => exact absurd ((State.endsWithin_sym hq).mp h) (Nat.not_lt_zero _)
  | code => exact absurd ((State.endsWithin_code hq).mp h) (Nat.not_lt_zero _)
  | scan =>
    obtain ⟨hi, hn⟩ := (State.endsWithin_scan hq).mp h
    omega
  | merge => exact absurd ((State.endsWithin_merge hq).mp h).1 (Nat.lt_irrefl 0)
  | visit => exact absurd h (State.not_endsWithin_visit hq)

/-! ### The stream units: the fetch takes one unit, a move keeps the rest -/

theorem State.EndsWithin.took_bit {b : Bool} {bits : List Bool} (hn : s.EndsWithin (n + 1)) (hq : s.sequencer = .walk)
    (hb : s.bitsIn = b :: bits) : ({ s with bitsIn := bits } : State).EndsWithin n := by
  rw [State.endsWithin_walk hq, hb] at hn
  exact (State.endsWithin_walk (s := { s with bitsIn := bits }) hq).mpr (Nat.lt_of_succ_lt_succ hn)

theorem State.EndsWithin.took_symByte {v : Nat} {b : Bool} {ch : Byte} {text : List Byte} (hn : s.EndsWithin (n + 1))
    (hq : s.sequencer = .sym v b) (ht : s.textIn = ch :: text) : ({ s with textIn := text } : State).EndsWithin n := by
  rw [State.endsWithin_sym hq, ht] at hn
  exact (State.endsWithin_sym (s := { s with textIn := text }) hq).mpr (Nat.lt_of_succ_lt_succ hn)

theorem State.EndsWithin.took_codeByte {v pos : Nat} {ch : Byte} {text : List Byte} (hn : s.EndsWithin (n + 1))
    (hq : s.sequencer = .code v pos) (ht : s.textIn = ch :: text) : ({ s with textIn := text } : State).EndsWithin n := by
  rw [State.endsWithin_code hq, ht] at hn
  exact (State.endsWithin_code (s := { s with textIn := text }) hq).mpr (Nat.lt_of_succ_lt_succ hn)

/-- The units that run on a stream: the walker and the loader. -/
def Sequencer.onStream : Sequencer → Bool
  | .walk | .sym _ _ | .code _ _ => true
  | .idle | .scan _ _ _ | .merge _ _ | .visit _ => false

theorem BlockMove.endsWithin_of_onStream (h : BlockMove s t) (hq : s.sequencer.onStream = true) (hn : s.EndsWithin n) :
    t.EndsWithin n := by
  cases h
  case raised | bitsEnded | textEnded => exact State.endsWithin_of_idle rfl
  case reachedLeaf hw _ _ _ _ _ | reachedInner hw _ _ _ _ _ =>
    exact (State.endsWithin_walk hw).mpr ((State.endsWithin_walk hw).mp hn)
  case digit hs _ => exact (State.endsWithin_sym rfl).mpr ((State.endsWithin_sym hs).mp hn)
  case codeLine hs _ _ | firstRoot hs _ _ _ =>
    exact (State.endsWithin_code rfl).mpr ((State.endsWithin_sym hs).mp hn)
  case oldEdge hc _ _ | newEdge hc _ _ _ =>
    exact (State.endsWithin_code rfl).mpr ((State.endsWithin_code hc).mp hn)
  case leafMarked hc _ hnext =>
    rcases hnext with rfl | rfl
    · exact (State.endsWithin_sym rfl).mpr ((State.endsWithin_code hc).mp hn)
    · exact State.endsWithin_of_idle rfl
  all_goals
    rw [‹s.sequencer = _›] at hq
    cases hq

/-! ### The builder: a move uses a scan or a merge -/

theorem scanNext_endsWithin {i : Nat} {q : List QEntry} {seq : Seq} (hs : s.sequencer = scanNext i q seq) (hi : i < 256)
    (hpos : 0 < n) (hn : q.length + 2 * (255 - i) ≤ n) : s.EndsWithin n := by
  by_cases hnext : i + 1 < Config.nsym
  · rw [scanNext, if_pos hnext] at hs
    exact (State.endsWithin_scan hs).mpr ⟨hnext, by omega⟩
  · rw [scanNext, if_neg hnext] at hs
    exact (State.endsWithin_merge hs).mpr ⟨hpos, by omega⟩

theorem BlockMove.endsWithin_of_not_onStream (h : BlockMove s t) (hq : s.sequencer.onStream = false)
    (hn : s.EndsWithin (n + 1)) : t.EndsWithin n := by
  cases h
  case rest hidle => exact State.endsWithin_of_idle hidle
  case raised | builtNone | builtRoot => exact State.endsWithin_of_idle rfl
  case scannedLeaf hs _ _ =>
    obtain ⟨hi, hn⟩ := (State.endsWithin_scan hs).mp hn
    exact scanNext_endsWithin rfl hi (by omega) (by rw [List.length_cons]; omega)
  case scannedNone hs _ =>
    obtain ⟨hi, hn⟩ := (State.endsWithin_scan hs).mp hn
    exact scanNext_endsWithin rfl hi (by omega) (by omega)
  case merged hm ha hb _ =>
    have hlen := (removeMin_twice_perm ha hb).length_eq
    obtain ⟨-, hn⟩ := (State.endsWithin_merge hm).mp hn
    rw [List.length_append, List.length_cons, List.length_singleton] at hlen
    exact (State.endsWithin_merge rfl).mpr ⟨by omega, by rw [List.length_cons]; omega⟩
  case visitsEnded | visitedLeaf | visitedInner => exact absurd hn (State.not_endsWithin_visit ‹_›)
  all_goals
    rw [‹s.sequencer = _›] at hq
    cases hq

/-! ### A step, and the run -/

theorem endSymLine_ends_of_no_text {v : Nat} {b : Bool} (hx : s.textIn = []) (h : endSymLine v b s = .next t) :
    t.sequencer = .idle := by
  have htext : s.textHas = false := by rw [State.textHas, hx]; rfl
  simp only [endSymLine, enterCode, htext, Bool.false_eq_true, if_false] at h
  split_ifs at h
  all_goals cases h; rfl

theorem symStreamEnd_ends {v : Nat} {b : Bool} (hx : s.textIn = []) (h : symStreamEnd v b s = .next t) :
    t.sequencer = .idle := by
  unfold symStreamEnd at h
  split at h
  · exact endSymLine_ends_of_no_text hx h
  · cases h; rfl

theorem codeStreamEnd_ends {v pos : Nat} (h : codeStreamEnd v pos s = .next t) : t.sequencer = .idle := by
  obtain ⟨-, h⟩ := State.withNode_next h
  cases h
  rfl

/-- One step of a running `DECODE`, `LOAD` or `BUILD` leaves one step less. -/
theorem blockNext_endsWithin (hn : s.EndsWithin (n + 1)) (h : (blockNext s).outcome = .next t) : t.EndsWithin n := by
  unfold blockNext at h
  split at h
  · cases h; exact State.endsWithin_of_idle ‹_›
  · rename_i hq
    split at h
    · cases h; exact State.endsWithin_of_idle rfl
    · rename_i bits hbits
      have hm := fetchUnit_bit_move (s := { s with bitsIn := bits }) hq h
      exact hm.endsWithin_of_onStream (congrArg _ hq) (hn.took_bit hq hbits)
  · rename_i hq
    split at h
    · exact State.endsWithin_of_idle (symStreamEnd_ends ‹_› h)
    · rename_i text htext
      have hm := fetchUnit_textSym_move (s := { s with textIn := text }) hq h
      exact hm.endsWithin_of_onStream (congrArg _ hq) (hn.took_symByte hq htext)
  · rename_i hq
    split at h
    · exact State.endsWithin_of_idle (codeStreamEnd_ends h)
    · rename_i text htext
      have hm := fetchUnit_textCode_move (s := { s with textIn := text }) hq h
      exact hm.endsWithin_of_onStream (congrArg _ hq) (hn.took_codeByte hq htext)
  · rename_i hq; exact (scanStep_move hq h).endsWithin_of_not_onStream (congrArg _ hq) hn
  · rename_i hq; exact (mergeStep_move hq h).endsWithin_of_not_onStream (congrArg _ hq) hn
  · exact absurd hn (State.not_endsWithin_visit ‹_›)

theorem BlockMove.host_eq (h : BlockMove s t) : t.host = s.host := by
  cases h
  case raised => exact State.raise_host s _
  all_goals rfl

theorem NextIf.exists_next {P : Prop} {r : Result} (h : NextIf P r) (hp : P) : ∃ t, r = .next t := by
  cases h with
  | next t => exact ⟨t, rfl⟩
  | fault _ hn => exact absurd hp hn

/-- With nothing from the host, and no undefined read, a command ends within its bound. -/
theorem State.EndsWithin.run_ends (hn : s.EndsWithin n) (hwf : s.StoreCanonical) (hin : s.InRange) (hh : s.host = []) :
    ∃ t, run n s = .next t ∧ t.busy = false := by
  induction n generalizing s with
  | zero => exact ⟨s, rfl, hn.busy_zero⟩
  | succ n ih =>
    have hturn : step s = (blockNext s).outcome := by
      simp only [step_eq_outcome, State.fetchNext, hh]
    obtain ⟨u, hu⟩ := (blockNext_nextIf s).exists_next hin
    have hstep := hturn.trans hu
    obtain ⟨bits, text, hm⟩ := blockNext_move hu
    have hhost : u.host = [] := hm.host_eq.trans hh
    have hwfu := stepKeepsStoreCanonical s u hwf hstep
    have hinu := (stepKeepsInRange s u hwf hin hstep).1
    simp only [run, hstep]
    exact ih (blockNext_endsWithin hn hu) hwfu hinu hhost

end

/-- Settles O56: each of the three commands starts within its bound; for the builder by the size that `InRange` gives `Q`. -/
theorem runningCommandsEnd : Obligations.RunningCommandsEnd := by
  unfold Obligations.RunningCommandsEnd
  intro s hwf hin hh
  have hends {n : Nat} (hn : s.EndsWithin n) := hn.run_ends hwf hin hh
  refine ⟨fun hq => hends ((State.endsWithin_walk hq).mpr (Nat.lt_succ_self _)), ?_, ?_⟩
  · rintro (⟨v, b, hq⟩ | ⟨v, pos, hq⟩)
    · exact hends ((State.endsWithin_sym hq).mpr (Nat.lt_succ_self _))
    · exact hends ((State.endsWithin_code hq).mpr (Nat.lt_succ_self _))
  · rintro (⟨i, q, seq, hq⟩ | ⟨q, seq, hq⟩)
    · obtain ⟨-, hi, hlen, hle, -⟩ := hin.scan hq
      exact hends ((State.endsWithin_scan hq).mpr ⟨hi, by omega⟩)
    · obtain ⟨-, hlen, -⟩ := hin.merge hq
      exact hends ((State.endsWithin_merge hq).mpr ⟨by decide, by omega⟩)

end Sys2Proof.Machine

namespace Sys2Proof.Machine

/-! ## The steps of `BUILD` (41_build.md section 2) -/

/-- An accepted `BUILD` goes by `HAS_BUILDER` (40_control.md R110, R113; 41_build.md R126). -/
theorem execBuild_of_ready {s : State} (hb : s.busy = false) (hf : s.fault = false) :
    execBuild s = if s.params.hasBuilder then .next (s.beginTree (.scan 0 [] 0)) else .next (s.raise .illegalCmd) := by
  rw [execBuild, State.accept_of_ready hb hf]

/-- Settles O12: with no command running and no fault pending `BUILD` is accepted. -/
theorem buildBeginsByDiscarding : Obligations.BuildBeginsByDiscarding := by
  unfold Obligations.BuildBeginsByDiscarding
  intro s hb hf
  have hexec : exec .build s = _ := execBuild_of_ready hb hf
  rw [hexec]
  refine ⟨fun hp => ?_, fun hp => ?_⟩
  · rw [if_pos hp]
    rfl
  · rw [hp, if_neg Bool.false_ne_true, State.raise_of_idle hb]

/-! ### The order of the collection -/

/-- The position of an entry in the removal order (41_build.md R128) as one number: its weight, then its sequence number. -/
def QEntry.rank (e : QEntry) : Nat := e.weight.toNat * 512 + e.seq.toNat

theorem QEntry.before_iff (a b : QEntry) :
    a.before b = true ↔ a.weight < b.weight ∨ (a.weight = b.weight ∧ a.seq < b.seq) := by
  simp [QEntry.before]

theorem QEntry.before_iff_rank (a b : QEntry) : a.before b = true ↔ a.rank < b.rank := by
  rw [QEntry.before_iff, BitVec.lt_def, BitVec.lt_def, BitVec.toNat_eq, QEntry.rank, QEntry.rank]
  omega

/-- Entries with different sequence numbers have different ranks. -/
theorem QEntry.rank_ne {a b : QEntry} (h : a.seq ≠ b.seq) : a.rank ≠ b.rank := by
  rw [Ne, BitVec.toNat_eq] at h
  unfold QEntry.rank
  omega

/-- `RemoveMin` takes an entry of the least rank. -/
theorem removeMin_rank_le {q rest : List QEntry} {e : QEntry} (h : removeMin q = some (e, rest)) :
    ∀ x ∈ rest, e.rank ≤ x.rank := by
  induction q generalizing e rest with
  | nil => cases h
  | cons a q ih =>
    simp only [removeMin] at h
    split at h
    · cases h
      exact nofun
    · rename_i m rest' hm
      have hle := ih hm
      split at h
      · rename_i hma
        cases h
        exact List.forall_mem_cons.mpr ⟨((QEntry.before_iff_rank _ _).mp hma).le, hle⟩
      · rename_i hma
        cases h
        have ham : a.rank ≤ m.rank := not_lt.mp fun hlt => hma ((QEntry.before_iff_rank _ _).mpr hlt)
        intro x hx
        rcases List.mem_cons.mp ((removeMin_perm hm).mem_iff.mp hx) with rfl | hx
        · exact ham
        · exact ham.trans (hle x hx)

/-- Settles O36: the entry removed has the least rank, and no other has the same. -/
theorem removeMinTakesTheLeast : Obligations.RemoveMinTakesTheLeast := by
  unfold Obligations.RemoveMinTakesTheLeast
  intro q rest e hnodup h
  have hperm := removeMin_perm h
  refine ⟨hperm, fun x hx => ?_⟩
  have hseq : e.seq ∉ rest.map (·.seq) := (List.nodup_cons.mp ((hperm.map (·.seq)).nodup_iff.mp hnodup)).1
  have hne : e.rank ≠ x.rank := QEntry.rank_ne fun heq => hseq (heq ▸ List.mem_map_of_mem hx)
  exact (QEntry.before_iff e x).mp
    ((QEntry.before_iff_rank e x).mpr (lt_of_le_of_ne (removeMin_rank_le h x hx) hne))

/-! ### One scan and one merge -/

theorem freqPositive_eq_true {f : Word} : freqPositive f = true ↔ 0 < f.toInt := decide_eq_true_iff

theorem freqPositive_eq_false {f : Word} : freqPositive f = false ↔ f.toInt ≤ 0 := by
  rw [freqPositive, decide_eq_false_iff_not, not_lt]

@[simp] theorem freqWeight_toNat (f : Word) : (freqWeight f).toNat = f.toNat := by
  rw [freqWeight, BitVec.toNat_setWidth, Nat.mod_eq_of_lt (by omega)]

/-- A positive frequency is below `2^31` (30_encoding.md R94). -/
theorem toNat_lt_of_freqPositive {f : Word} (h : freqPositive f = true) : f.toNat < 2 ^ 31 := by
  have hpos := freqPositive_eq_true.mp h
  rw [BitVec.toInt_eq_toNat_cond] at hpos
  split at hpos <;> omega

theorem scanNext_eq {i : Nat} (hi : i < 256) (q : List QEntry) (seq : Seq) :
    scanNext i q seq = if i = 255 then .merge q seq else .scan (i + 1) q seq := by
  by_cases h : i = 255
  · rw [if_pos h, h]
    rfl
  · rw [if_neg h, scanNext, if_pos (show i + 1 < Config.nsym by unfold Config.nsym; omega)]

section
variable {s : State} {h : List HostAction} {i : Nat} {q q₁ q₂ : List QEntry} {a b : QEntry} {seq : Seq}

theorem step_of_scan (hb : s.BlockTurn h) (hq : s.sequencer = .scan i q seq) :
    step s = scanStep i q seq { s with host := h } := by
  rw [step_of_blockTurn hb]
  simp only [blockNext, hq, Fetched.outcome]

theorem step_of_merge (hb : s.BlockTurn h) (hq : s.sequencer = .merge q seq) :
    step s = mergeStep q seq { s with host := h } := by
  rw [step_of_blockTurn hb]
  simp only [blockNext, hq, Fetched.outcome]

theorem State.with_host_nil (hh : s.host = []) : ({ s with host := [] } : State) = s := by
  rw [← hh]

theorem step_of_host_nil_scan (hh : s.host = []) (hq : s.sequencer = .scan i q seq) : step s = scanStep i q seq s := by
  rw [step_of_scan (State.blockTurn_of_host_nil hh) hq, State.with_host_nil hh]

theorem step_of_host_nil_merge (hh : s.host = []) (hq : s.sequencer = .merge q seq) : step s = mergeStep q seq s := by
  rw [step_of_merge (State.blockTurn_of_host_nil hh) hq, State.with_host_nil hh]

theorem scanStep_of_positive (hf : freqPositive (s.freqAt i) = true) (hcap : s.nextFree < s.params.nodeCap) :
    scanStep i q seq s = .next { s with
      nodes := Memory.write s.nodes s.nextFree (NodeRec.leafOf (BitVec.ofNat 8 i) (freqWeight (s.freqAt i)))
      nextFree := s.nextFree + 1
      sequencer := scanNext i ({ weight := freqWeight (s.freqAt i), seq := seq, k := s.nextFree } :: q) (seq + 1) } := by
  rw [scanStep, if_pos hf]
  exact State.withAlloc_of_lt hcap _ _

theorem scanStep_of_not_positive (hf : freqPositive (s.freqAt i) = false) :
    scanStep i q seq s = .next { s with sequencer := scanNext i q seq } := by
  rw [scanStep, hf, if_neg Bool.false_ne_true]

theorem mergeStep_nil : mergeStep [] seq s = .next { s with rootValid := false, sequencer := .idle } := rfl

theorem mergeStep_singleton :
    mergeStep [a] seq s = .next { s with root := a.k, rootValid := true, sequencer := .idle } := rfl

theorem mergeStep_of_two (ha : removeMin q = some (a, q₁)) (hb : removeMin q₁ = some (b, q₂))
    (hcap : s.nextFree < s.params.nodeCap) :
    mergeStep q seq s = .next { s with
      nodes := Memory.write s.nodes s.nextFree (NodeRec.internalOf a.k b.k (a.weight + b.weight))
      nextFree := s.nextFree + 1
      sequencer := .merge ({ weight := a.weight + b.weight, seq := seq, k := s.nextFree } :: q₂) (seq + 1) } := by
  simp only [mergeStep, ha, hb]
  exact State.withAlloc_of_lt hcap _ _

/-- Two entries or more are two to remove. -/
theorem exists_removeMin_twice (hq : 2 ≤ q.length) :
    ∃ a b q₁ q₂, removeMin q = some (a, q₁) ∧ removeMin q₁ = some (b, q₂) := by
  have hq₀ : removeMin q ≠ none := fun h => by rw [removeMin_eq_none.mp h] at hq; exact absurd hq (by decide)
  obtain ⟨⟨a, q₁⟩, ha⟩ := Option.ne_none_iff_exists'.mp hq₀
  have hlen := (removeMin_perm ha).length_eq
  have hq₁ : removeMin q₁ ≠ none := fun h => by
    rw [removeMin_eq_none.mp h, List.length_singleton] at hlen
    omega
  obtain ⟨⟨b, q₂⟩, hb⟩ := Option.ne_none_iff_exists'.mp hq₁
  exact ⟨a, b, q₁, q₂, ha, hb⟩

end

/-- Settles O37: the weight is the frequency, zero-extended. -/
theorem scanMakesALeafForPositive : Obligations.ScanMakesALeafForPositive := by
  unfold Obligations.ScanMakesALeafForPositive
  intro s h i q seq hb hq hi hcap
  rw [step_of_scan hb hq]
  refine ⟨fun hf => ⟨_, freqWeight_toNat (s.freqAt i), ?_⟩, fun hf => ?_⟩
  · rw [← scanNext_eq hi]
    exact scanStep_of_positive (s := { s with host := h }) (freqPositive_eq_true.mpr hf) hcap
  · rw [← scanNext_eq hi]
    exact scanStep_of_not_positive (s := { s with host := h }) (freqPositive_eq_false.mpr hf)

/-- Settles O38: with room in the store the merge allocates its record. -/
theorem mergeJoinsTheTwoLeast : Obligations.MergeJoinsTheTwoLeast := by
  unfold Obligations.MergeJoinsTheTwoLeast
  intro s h q q₁ q₂ a b seq hturn hq hcap ha hb
  rw [step_of_merge hturn hq]
  exact mergeStep_of_two (s := { s with host := h }) ha hb hcap

/-- Settles O39: nothing is left to merge. -/
theorem lastEntryBecomesTheRoot : Obligations.LastEntryBecomesTheRoot := by
  unfold Obligations.LastEntryBecomesTheRoot
  intro s h seq hb
  refine ⟨fun e hq => ?_, fun hq => ?_⟩
  · rw [step_of_merge hb hq, mergeStep_singleton]
  · rw [step_of_merge hb hq, mergeStep_nil]

end Sys2Proof.Machine

namespace Sys2Proof.Machine

/-! ## Two blocks with the same frequencies (41_build.md R134 (g)) -/

/-- A write of a record that is not all 0, as any later read sees it; the store need not have the canonical form. -/
theorem Memory.read_write_of_ne_empty (m : Memory) (k j : Nat) {r : NodeRec} (hr : r ≠ NodeRec.empty) :
    Memory.read (Memory.write m k r) j = if j = k then r else Memory.read m j := by
  split
  · rename_i h
    rw [h, Memory.write, if_neg hr, Memory.read_insert_same]
  · exact Memory.read_write_other m r ‹_›

theorem NodeRec.leafOf_ne_empty (y : Byte) (w : Weight) : NodeRec.leafOf y w ≠ NodeRec.empty := fun h =>
  Bool.false_ne_true (congrArg NodeRec.hasSym h).symm

theorem NodeRec.internalOf_ne_empty (l r : Nat) (w : Weight) : NodeRec.internalOf l r w ≠ NodeRec.empty := fun h =>
  Bool.false_ne_true (congrArg NodeRec.lValid h).symm

/-- The builder runs, or nothing does: the phases a `BUILD` goes through. -/
def Sequencer.ofBuild : Sequencer → Bool
  | .idle | .scan _ _ _ | .merge _ _ => true
  | .walk | .sym _ _ | .code _ _ | .visit _ => false

@[simp] theorem scanNext_ofBuild (i : Nat) (q : List QEntry) (seq : Seq) : (scanNext i q seq).ofBuild = true := by
  unfold scanNext
  split <;> rfl

/-- The two blocks are at the same point of a `BUILD` with the same frequencies, and agree in all it has made. -/
structure State.BuildsAlike (s s' : State) : Prop where
  host_left : s.host = []
  host_right : s'.host = []
  params_eq : s.params = s'.params
  freq_eq : s.freq = s'.freq
  sequencer_eq : s.sequencer = s'.sequencer
  ofBuild : s.sequencer.ofBuild = true
  rootValid_eq : s.rootValid = s'.rootValid
  root_eq : s.rootValid = true → s.root = s'.root
  nextFree_eq : s.nextFree = s'.nextFree
  records_eq : ∀ k < s.nextFree, Memory.read s.nodes k = Memory.read s'.nodes k

/-- Both results are next states, of blocks that build alike. -/
def Result.NextAlike (r r' : Result) : Prop := ∃ t t', r = .next t ∧ r' = .next t' ∧ t.BuildsAlike t'

section
variable {s s' t t' : State}

theorem State.BuildsAlike.nextAlike (h : t.BuildsAlike t') : Result.NextAlike (.next t) (.next t') :=
  ⟨t, t', rfl, rfl, h⟩

theorem State.BuildsAlike.freqAt_eq (h : s.BuildsAlike s') (i : Nat) : s.freqAt i = s'.freqAt i := by
  rw [State.freqAt, State.freqAt, h.freq_eq]

theorem State.BuildsAlike.withSequencer (h : s.BuildsAlike s') {q : Sequencer} (hq : q.ofBuild = true) :
    ({ s with sequencer := q } : State).BuildsAlike { s' with sequencer := q } :=
  { h with sequencer_eq := rfl, ofBuild := hq }

/-- A fault discards what both have made (60_exceptions.md R224). -/
theorem State.BuildsAlike.raise (h : s.BuildsAlike s') (hq : s.sequencer.constructs = true) (c : Cause) :
    (s.raise c).BuildsAlike (s'.raise c) := by
  have hq' : s'.sequencer.constructs = true := h.sequencer_eq ▸ hq
  simp only [State.raise, hq, hq', if_true]
  exact { h with
    sequencer_eq := rfl, ofBuild := rfl, rootValid_eq := rfl, root_eq := nofun, nextFree_eq := rfl, records_eq := nofun }

/-- Both allocate at the same index, or both stores are full. -/
theorem State.BuildsAlike.withAlloc_nextAlike (h : s.BuildsAlike s') (hq : s.sequencer.constructs = true) {r : NodeRec}
    (hr : r ≠ NodeRec.empty) {next : Nat → Sequencer} (hnext : ∀ k, (next k).ofBuild = true) :
    Result.NextAlike (s.withAlloc r fun t k => .next { t with sequencer := next k })
      (s'.withAlloc r fun t k => .next { t with sequencer := next k }) := by
  by_cases hcap : s.nextFree < s.params.nodeCap
  · have hcap' : s'.nextFree < s'.params.nodeCap := h.nextFree_eq ▸ h.params_eq ▸ hcap
    rw [State.withAlloc_of_lt hcap, State.withAlloc_of_lt hcap', ← h.nextFree_eq]
    refine State.BuildsAlike.nextAlike { h with
      sequencer_eq := rfl, ofBuild := hnext _, nextFree_eq := rfl, records_eq := fun k hk => ?_ }
    rw [Memory.read_write_of_ne_empty _ _ _ hr, Memory.read_write_of_ne_empty _ _ _ hr]
    split
    · rfl
    · exact h.records_eq k (Nat.lt_of_le_of_ne (Nat.le_of_lt_succ hk) ‹_›)
  · have hfull : s.params.nodeCap ≤ s.nextFree := Nat.not_lt.mp hcap
    have hfull' : s'.params.nodeCap ≤ s'.nextFree := h.nextFree_eq ▸ h.params_eq ▸ hfull
    rw [State.withAlloc_of_full hfull, State.withAlloc_of_full hfull']
    exact (h.raise hq _).nextAlike

theorem State.BuildsAlike.scanStep_nextAlike {i : Nat} {q : List QEntry} {seq : Seq} (h : s.BuildsAlike s')
    (hq : s.sequencer = .scan i q seq) : Result.NextAlike (scanStep i q seq s) (scanStep i q seq s') := by
  unfold scanStep
  rw [← h.freqAt_eq]
  split
  · exact h.withAlloc_nextAlike (hq ▸ rfl) (NodeRec.leafOf_ne_empty _ _)
      (next := fun k => scanNext i ({ weight := freqWeight (s.freqAt i), seq := seq, k := k } :: q) (seq + 1))
      fun _ => scanNext_ofBuild ..
  · exact (h.withSequencer (scanNext_ofBuild i q seq)).nextAlike

theorem State.BuildsAlike.mergeStep_nextAlike {q : List QEntry} {seq : Seq} (h : s.BuildsAlike s')
    (hq : s.sequencer = .merge q seq) : Result.NextAlike (mergeStep q seq s) (mergeStep q seq s') := by
  unfold mergeStep
  split
  · exact State.BuildsAlike.nextAlike { h with
      sequencer_eq := rfl, ofBuild := rfl, rootValid_eq := rfl, root_eq := nofun }
  · rename_i a q₁ ha
    split
    · exact State.BuildsAlike.nextAlike { h with
        sequencer_eq := rfl, ofBuild := rfl, rootValid_eq := rfl, root_eq := fun _ => rfl }
    · rename_i b q₂ hb
      exact h.withAlloc_nextAlike (hq ▸ rfl) (NodeRec.internalOf_ne_empty _ _ _)
        (next := fun k => .merge ({ weight := a.weight + b.weight, seq := seq, k := k } :: q₂) (seq + 1)) fun _ => rfl

theorem State.BuildsAlike.step_nextAlike (h : s.BuildsAlike s') : Result.NextAlike (step s) (step s') := by
  have hbuild := h.ofBuild
  cases hq : s.sequencer with
  | idle =>
    rw [step_of_idle h.host_left hq, step_of_idle h.host_right (h.sequencer_eq ▸ hq)]
    exact h.nextAlike
  | scan i q seq =>
    rw [step_of_host_nil_scan h.host_left hq, step_of_host_nil_scan h.host_right (h.sequencer_eq ▸ hq)]
    exact h.scanStep_nextAlike hq
  | merge q seq =>
    rw [step_of_host_nil_merge h.host_left hq, step_of_host_nil_merge h.host_right (h.sequencer_eq ▸ hq)]
    exact h.mergeStep_nextAlike hq
  | walk | sym | code | visit =>
    rw [hq] at hbuild
    cases hbuild

theorem State.BuildsAlike.run_nextAlike (h : s.BuildsAlike s') (n : Nat) : Result.NextAlike (run n s) (run n s') := by
  induction n generalizing s s' with
  | zero => exact h.nextAlike
  | succ n ih =>
    obtain ⟨t, t', ht, ht', halike⟩ := h.step_nextAlike
    simp only [run, ht, ht']
    exact ih halike

/-- Two accepted `BUILD`s begin alike: nothing is made yet. -/
theorem State.BuildsAlike.beginTree (hh : s.host = []) (hh' : s'.host = []) (hp : s.params = s'.params)
    (hf : s.freq = s'.freq) : (s.beginTree (.scan 0 [] 0)).BuildsAlike (s'.beginTree (.scan 0 [] 0)) where
  host_left := hh
  host_right := hh'
  params_eq := hp
  freq_eq := hf
  sequencer_eq := rfl
  ofBuild := rfl
  rootValid_eq := rfl
  root_eq := nofun
  nextFree_eq := rfl
  records_eq := nofun

end

/-- A ready block with a builder accepts `BUILD`. -/
theorem State.Ready.exec_build {s : State} (hs : s.Ready) (hp : s.params.hasBuilder = true) :
    exec .build s = .next (s.beginTree (.scan 0 [] 0)) := by
  obtain ⟨-, hb, hf⟩ := hs
  exact (execBuild_of_ready hb hf).trans (if_pos hp)

/-- Settles O42: the two blocks build alike from their beginnings, step by step. -/
theorem buildDependsOnFreqAlone : Obligations.BuildDependsOnFreqAlone := by
  unfold Obligations.BuildDependsOnFreqAlone
  intro s s' hs hs' hparams _ hp hfreq
  have hexec := hs.exec_build hp
  have hexec' := hs'.exec_build (hparams ▸ hp)
  obtain ⟨hh, -⟩ := hs
  obtain ⟨hh', -⟩ := hs'
  obtain ⟨u, u', hu, hu', h⟩ := (State.BuildsAlike.beginTree hh hh' hparams hfreq).run_nextAlike 512
  exact ⟨_, u, _, u', hexec, hu, hexec', hu', h.rootValid_eq, h.root_eq, h.nextFree_eq, h.records_eq⟩

end Sys2Proof.Machine

namespace Sys2Proof.Machine

/-! ## The trees of the collection (41_build.md R134) -/

/-- The symbols of the leaves, from left to right. -/
def ATree.symbols (T : ATree) : List Byte := T.leaves.map fun e => e.1

/-- Every tree but the absent one is a node. -/
theorem treeAt_some {m : Memory} {nf k : Nat} {T : ATree} :
    treeAt m nf (some k) T = true ↔ k < nf ∧ ∃ l r, T = .node (Memory.read m k).symbol l r
      ∧ treeAt m nf ((Memory.read m k).child false) l = true ∧ treeAt m nf ((Memory.read m k).child true) r = true := by
  cases T with
  | absent => simp [treeAt]
  | node sym l r =>
    simp only [treeAt, Bool.and_eq_true, decide_eq_true_eq]
    constructor
    · rintro ⟨⟨⟨hk, rfl⟩, hl⟩, hr⟩
      exact ⟨hk, l, r, rfl, hl, hr⟩
    · rintro ⟨hk, l, r, h, hl, hr⟩
      cases h
      exact ⟨⟨⟨hk, rfl⟩, hl⟩, hr⟩

/-- Writing the next record leaves the trees among the first `nf`. -/
theorem treeAt_write {m : Memory} {nf : Nat} (x : NodeRec) {p : Option Nat} {T : ATree} (h : treeAt m nf p T = true) :
    treeAt (Memory.write m nf x) (nf + 1) p T = true := by
  induction T generalizing p with
  | absent =>
    cases p with
    | none => rfl
    | some k => cases h
  | node sym l r ihl ihr =>
    cases p with
    | none => cases h
    | some k =>
      obtain ⟨hk, l', r', heq, hl, hr⟩ := treeAt_some.mp h
      cases heq
      have hread := Memory.read_write_other m x (Nat.ne_of_lt hk)
      refine treeAt_some.mpr ⟨Nat.lt_succ_of_lt hk, l, r, ?_⟩
      rw [hread]
      exact ⟨rfl, ihl hl, ihr hr⟩

theorem ATree.symbols_leaf (y : Byte) : (ATree.node (some y) .absent .absent).symbols = [y] := rfl

theorem ATree.symbols_join (l r : ATree) : (ATree.node none l r).symbols = l.symbols ++ r.symbols := by
  simp [ATree.symbols, ATree.leaves, Function.comp_def]

theorem ATree.cls_join {l r : ATree} (hl : l ≠ .absent) (hr : r ≠ .absent) : (ATree.node none l r).cls = .internal := by
  cases l with
  | absent => exact absurd rfl hl
  | node =>
    cases r with
    | absent => exact absurd rfl hr
    | node => rfl

/-- The two shapes of a well-formed node (00_scope.md R11, R13). -/
theorem ATree.wf_node_cases {sym : Option Byte} {l r : ATree} (h : (ATree.node sym l r).wf = true) :
    (∃ y, ATree.node sym l r = .node (some y) .absent .absent)
    ∨ (sym = none ∧ l ≠ .absent ∧ r ≠ .absent ∧ l.wf = true ∧ r.wf = true) := by
  obtain ⟨⟨hcls, hl⟩, hr⟩ : ((ATree.node sym l r).cls ≠ .illformed ∧ l.wf = true) ∧ r.wf = true := by
    simpa [ATree.wf] using h
  match sym, l, r with
  | some y, .absent, .absent => exact .inl ⟨y, rfl⟩
  | none, .node _ _ _, .node _ _ _ => exact .inr ⟨rfl, nofun, nofun, hl, hr⟩
  | some _, .node _ _ _, _ | some _, .absent, .node _ _ _ | none, .absent, _ | none, .node _ _ _, .absent =>
    exact absurd rfl hcls

/-- A well-formed tree that is not absent has a leaf. -/
theorem ATree.symbols_length_pos {T : ATree} (hT : T ≠ .absent) (hwf : T.wf = true) : 1 ≤ T.symbols.length := by
  induction T with
  | absent => exact absurd rfl hT
  | node sym l r ihl ihr =>
    rcases ATree.wf_node_cases hwf with ⟨y, h⟩ | ⟨rfl, hl, -, hlwf, -⟩
    · rw [h, ATree.symbols_leaf, List.length_singleton]
    · rw [ATree.symbols_join, List.length_append]
      exact Nat.le_add_right_of_le (ihl hl hlwf)

/-- It is decodable unless it is a single leaf (00_scope.md R13). -/
theorem ATree.decodable_eq {T : ATree} (hT : T ≠ .absent) (hwf : T.wf = true) :
    T.decodable = decide (2 ≤ T.symbols.length) := by
  cases T with
  | absent => exact absurd rfl hT
  | node sym l r =>
    rcases ATree.wf_node_cases hwf with ⟨y, h⟩ | ⟨rfl, hl, hr, hlwf, hrwf⟩
    · rw [h]
      rfl
    · have hlen : 2 ≤ (ATree.node none l r).symbols.length := by
        rw [ATree.symbols_join, List.length_append]
        exact Nat.add_le_add (ATree.symbols_length_pos hl hlwf) (ATree.symbols_length_pos hr hrwf)
      rw [ATree.decodable, hwf, ATree.cls_join hl hr, decide_eq_true hlen]
      rfl

/-- The node of the entry is the root of the well-formed tree `T` among the first `nf` records, with the entry's weight. -/
structure Planted (m : Memory) (nf : Nat) (e : QEntry) (T : ATree) : Prop where
  tree : treeAt m nf (some e.k) T = true
  wf : T.wf = true
  weight_eq : (Memory.read m e.k).weight = e.weight

section
variable {m : Memory} {nf : Nat} {a b e : QEntry} {T A B : ATree}

theorem Planted.lt (h : Planted m nf e T) : e.k < nf := (treeAt_some.mp h.tree).1

theorem Planted.ne_absent (h : Planted m nf e T) : T ≠ .absent := by
  obtain ⟨-, l, r, rfl, -⟩ := treeAt_some.mp h.tree
  exact nofun

theorem Planted.write (h : Planted m nf e T) (x : NodeRec) : Planted (Memory.write m nf x) (nf + 1) e T where
  tree := treeAt_write x h.tree
  wf := h.wf
  weight_eq := by rw [Memory.read_write_other m x (Nat.ne_of_lt h.lt), h.weight_eq]

/-- A scan plants a leaf (41_build.md R127). -/
theorem planted_leaf (m : Memory) (nf : Nat) (y : Byte) (w : Weight) (seq : Seq) :
    Planted (Memory.write m nf (NodeRec.leafOf y w)) (nf + 1) { weight := w, seq := seq, k := nf }
      (.node (some y) .absent .absent) := by
  have hread : Memory.read (Memory.write m nf (NodeRec.leafOf y w)) nf = NodeRec.leafOf y w := by
    rw [Memory.read_write_of_ne_empty _ _ _ (NodeRec.leafOf_ne_empty y w), if_pos rfl]
  exact {
    tree := treeAt_some.mpr ⟨Nat.lt_succ_self _, .absent, .absent, by
      rw [hread, NodeRec.child_leafOf, NodeRec.child_leafOf]
      exact ⟨rfl, rfl, rfl⟩⟩
    wf := rfl
    weight_eq := congrArg NodeRec.weight hread }

/-- A merge joins two planted trees (41_build.md R129). -/
theorem Planted.join (ha : Planted m nf a A) (hb : Planted m nf b B) (w : Weight) (seq : Seq) :
    Planted (Memory.write m nf (NodeRec.internalOf a.k b.k w)) (nf + 1) { weight := w, seq := seq, k := nf }
      (.node none A B) := by
  have hread : Memory.read (Memory.write m nf (NodeRec.internalOf a.k b.k w)) nf = NodeRec.internalOf a.k b.k w := by
    rw [Memory.read_write_of_ne_empty _ _ _ (NodeRec.internalOf_ne_empty _ _ _), if_pos rfl]
  exact {
    tree := treeAt_some.mpr ⟨Nat.lt_succ_self _, A, B, by
      rw [hread, NodeRec.child_internalOf, NodeRec.child_internalOf]
      exact ⟨rfl, treeAt_write _ ha.tree, treeAt_write _ hb.tree⟩⟩
    wf := by simp [ATree.wf, ATree.cls_join ha.ne_absent hb.ne_absent, ha.wf, hb.wf]
    weight_eq := congrArg NodeRec.weight hread }

end

/-! ## What the collection holds while `BUILD` runs -/

/-- The collection `q` and the first `nf` records of `m` are what `BUILD` has made of the symbols `syms` of positive frequency: a
merge makes one record more and one entry less (41_build.md R134 (a)), no weight is lost (R134 (d)), and each entry has its tree,
whose leaves together are the symbols (R134 (b)). -/
structure Collects (s : State) (syms : List Nat) (m : Memory) (nf : Nat) (q : List QEntry) : Prop where
  count : nf + q.length = 2 * syms.length
  weights : (q.map fun e => e.weight.toNat).sum = (syms.map fun i => (s.freqAt i).toNat).sum
  trees : ∃ Ts, List.Forall₂ (Planted m nf) q Ts ∧ (Ts.flatMap ATree.symbols).Perm (syms.map (BitVec.ofNat 8))

section
variable {s : State} {syms : List Nat} {m : Memory} {nf i : Nat} {q q' : List QEntry} {a b e : QEntry}

theorem collects_nil (s : State) (m : Memory) : Collects s [] m 0 [] := ⟨rfl, rfl, [], .nil, .nil⟩

theorem Collects.perm (h : Collects s syms m nf q) (hp : q.Perm q') : Collects s syms m nf q' := by
  obtain ⟨Ts, hplanted, hsyms⟩ := h.trees
  obtain ⟨Ts', hplanted', hp'⟩ := List.perm_comp_forall₂ hp.symm hplanted
  exact {
    count := hp.length_eq ▸ h.count
    weights := (hp.map _).sum_eq.symm.trans h.weights
    trees := ⟨Ts', hplanted', (hp'.flatMap_right _).trans hsyms⟩ }

theorem Collects.scanned (h : Collects s syms m nf q) (i : Nat) (seq : Seq) :
    Collects s (syms ++ [i]) (Memory.write m nf (NodeRec.leafOf (BitVec.ofNat 8 i) (freqWeight (s.freqAt i)))) (nf + 1)
      ({ weight := freqWeight (s.freqAt i), seq := seq, k := nf } :: q) := by
  obtain ⟨Ts, hplanted, hsyms⟩ := h.trees
  have hcount := h.count
  refine ⟨by simp only [List.length_cons, List.length_append, List.length_nil]; omega, ?_,
    _, .cons (planted_leaf m nf _ _ seq) (hplanted.imp fun _ _ hp => hp.write _), ?_⟩
  · simp [h.weights, Nat.add_comm]
  · rw [List.flatMap_cons, ATree.symbols_leaf, List.map_append]
    exact (hsyms.cons _).trans (List.perm_append_singleton _ _).symm

theorem Collects.merged (h : Collects s syms m nf (a :: b :: q)) (hw : a.weight.toNat + b.weight.toNat < 2 ^ 40)
    (seq : Seq) :
    Collects s syms (Memory.write m nf (NodeRec.internalOf a.k b.k (a.weight + b.weight))) (nf + 1)
      ({ weight := a.weight + b.weight, seq := seq, k := nf } :: q) := by
  obtain ⟨_, _ | ⟨ha, _ | ⟨hb, hplanted⟩⟩, hsyms⟩ := h.trees
  have hcount := h.count
  have hweights := h.weights
  refine ⟨by simp only [List.length_cons] at hcount ⊢; omega, ?_,
    _, .cons (ha.join hb _ seq) (hplanted.imp fun _ _ hp => hp.write _), ?_⟩
  · rw [← hweights, List.map_cons, List.map_cons, List.map_cons, BitVec.toNat_add_of_lt hw]
    simp only [List.sum_cons, Nat.add_assoc]
  · rw [List.flatMap_cons, ATree.symbols_join, List.append_assoc]
    exact hsyms

/-- With nothing collected nothing was scanned. -/
theorem Collects.syms_eq_nil (h : Collects s syms m nf []) : syms = [] := by
  obtain ⟨_, _ | _, hsyms⟩ := h.trees
  exact List.map_eq_nil_iff.mp hsyms.nil_eq.symm

/-- The last entry's tree has all the symbols. -/
theorem Collects.exists_tree (h : Collects s syms m nf [e]) :
    ∃ T, Planted m nf e T ∧ T.symbols.Perm (syms.map (BitVec.ofNat 8)) := by
  obtain ⟨_, _ | ⟨hT, _ | _⟩, hsyms⟩ := h.trees
  rw [List.flatMap_singleton] at hsyms
  exact ⟨_, hT, hsyms⟩

/-- The weights of the first two entries are part of the whole sum. -/
theorem Collects.add_weight_le (h : Collects s syms m nf (a :: b :: q)) :
    a.weight.toNat + b.weight.toNat ≤ (syms.map fun i => (s.freqAt i).toNat).sum := by
  rw [← h.weights, List.map_cons, List.map_cons, List.sum_cons, List.sum_cons]
  omega

end

/-! ### The symbols scanned -/

/-- The symbols of positive frequency among the first `i`. -/
def State.positiveBelow (s : State) (i : Nat) : List Nat := (List.range i).filter fun j => freqPositive (s.freqAt j)

section
variable {s : State} {i : Nat}

theorem State.positiveBelow_nsym (s : State) : s.positiveBelow 256 = s.positiveSymbols := rfl

theorem State.positiveBelow_succ_of_positive (hf : freqPositive (s.freqAt i) = true) :
    s.positiveBelow (i + 1) = s.positiveBelow i ++ [i] := by
  simp [State.positiveBelow, List.range_succ, List.filter_append, hf]

theorem State.positiveBelow_succ_of_not_positive (hf : freqPositive (s.freqAt i) = false) :
    s.positiveBelow (i + 1) = s.positiveBelow i := by
  simp [State.positiveBelow, List.range_succ, List.filter_append, hf]

theorem State.positiveBelow_length_le (s : State) (i : Nat) : (s.positiveBelow i).length ≤ i :=
  (List.length_filter_le _ _).trans_eq List.length_range

theorem State.positiveSymbols_length_le (s : State) : s.positiveSymbols.length ≤ 256 := s.positiveBelow_length_le 256

/-- No weight sum can overflow: the whole sum fits `WEIGHT_W` bits (41_build.md R131). -/
theorem State.sum_positive_lt (s : State) : (s.positiveSymbols.map fun i => (s.freqAt i).toNat).sum < 2 ^ 40 := by
  have hlen := s.positiveSymbols_length_le
  have hle : ∀ x ∈ s.positiveSymbols.map fun i => (s.freqAt i).toNat, x ≤ 2 ^ 31 := by
    intro x hx
    obtain ⟨i, hi, rfl⟩ := List.mem_map.mp hx
    exact (toNat_lt_of_freqPositive (List.mem_filter.mp hi).2).le
  have hsum := List.sum_le_card_nsmul _ _ hle
  rw [List.length_map, smul_eq_mul] at hsum
  omega

end

/-! ## The run of a `BUILD` -/

/-- `s` with a `BUILD` at the point `q`, with `nf` records made. -/
def State.building (s : State) (m : Memory) (nf : Nat) (q : Sequencer) : State :=
  { s with nodes := m, rootValid := false, nextFree := nf, cursorValid := false, treeBefore := s.rootValid, sequencer := q }

/-- The states of a `BUILD` accepted in `s`, with what has been collected. -/
inductive BuildRun (s : State) : State → Prop
  | scanning {m : Memory} {i : Nat} {q : List QEntry} {seq : Seq} (hi : i < 256)
      (hc : Collects s (s.positiveBelow i) m q.length q) : BuildRun s (s.building m q.length (.scan i q seq))
  | merging {m : Memory} {nf : Nat} {q : List QEntry} {seq : Seq} (hc : Collects s s.positiveSymbols m nf q) :
      BuildRun s (s.building m nf (.merge q seq))
  | builtNone {m : Memory} {nf : Nat} (hc : Collects s s.positiveSymbols m nf []) : BuildRun s (s.building m nf .idle)
  | builtRoot {m : Memory} {nf : Nat} {e : QEntry} (hc : Collects s s.positiveSymbols m nf [e]) :
      BuildRun s { s.building m nf .idle with root := e.k, rootValid := true }

section
variable {s t : State} {n : Nat}

theorem BuildRun.host_eq (h : BuildRun s t) : t.host = s.host := by cases h <;> rfl

/-- After the scan of symbol `i`. -/
theorem BuildRun.afterScan {m : Memory} {nf i : Nat} {q : List QEntry} (hi : i < 256)
    (hc : Collects s (s.positiveBelow (i + 1)) m nf q) (hnf : nf = q.length) (seq : Seq) :
    BuildRun s (s.building m nf (scanNext i q seq)) := by
  rw [scanNext_eq hi]
  subst hnf
  split
  · rename_i h
    rw [h, State.positiveBelow_nsym] at hc
    exact .merging hc
  · exact .scanning (by omega) hc

theorem BuildRun.exists_scanStep {m : Memory} {i : Nat} {q : List QEntry} {seq : Seq} (hcap : 511 ≤ s.params.nodeCap)
    (hi : i < 256) (hc : Collects s (s.positiveBelow i) m q.length q) :
    ∃ u, scanStep i q seq (s.building m q.length (.scan i q seq)) = .next u ∧ BuildRun s u := by
  cases hf : freqPositive (s.freqAt i) with
  | true =>
    have hroom : q.length < s.params.nodeCap := by
      have hcount := hc.count
      have hlen := s.positiveBelow_length_le i
      omega
    have hc' := hc.scanned i seq
    rw [← State.positiveBelow_succ_of_positive hf] at hc'
    have hrun := BuildRun.afterScan hi hc' rfl (seq + 1)
    exact ⟨_, scanStep_of_positive hf hroom, hrun⟩
  | false =>
    rw [← State.positiveBelow_succ_of_not_positive hf] at hc
    exact ⟨_, scanStep_of_not_positive hf, .afterScan hi hc rfl seq⟩

theorem BuildRun.exists_mergeStep {m : Memory} {nf : Nat} {q : List QEntry} {seq : Seq} (hcap : 511 ≤ s.params.nodeCap)
    (hc : Collects s s.positiveSymbols m nf q) :
    ∃ u, mergeStep q seq (s.building m nf (.merge q seq)) = .next u ∧ BuildRun s u := by
  match q with
  | [] => exact ⟨_, mergeStep_nil, .builtNone hc⟩
  | [e] => exact ⟨_, mergeStep_singleton, .builtRoot hc⟩
  | e :: e' :: q =>
    obtain ⟨a, b, q₁, q₂, ha, hb⟩ := exists_removeMin_twice (q := e :: e' :: q) (by simp)
    have hc' := hc.perm (removeMin_twice_perm ha hb)
    have hroom : nf < s.params.nodeCap := by
      have hcount := hc.count
      have hlen := s.positiveSymbols_length_le
      rw [List.length_cons, List.length_cons] at hcount
      omega
    exact ⟨_, mergeStep_of_two ha hb hroom, .merging (hc'.merged (hc'.add_weight_le.trans_lt s.sum_positive_lt) seq)⟩

theorem BuildRun.exists_step (hh : s.host = []) (hcap : 511 ≤ s.params.nodeCap) (h : BuildRun s t) :
    ∃ u, step t = .next u ∧ BuildRun s u := by
  have hht := h.host_eq.trans hh
  cases h with
  | scanning hi hc =>
    rw [step_of_host_nil_scan hht rfl]
    exact BuildRun.exists_scanStep hcap hi hc
  | merging hc =>
    rw [step_of_host_nil_merge hht rfl]
    exact BuildRun.exists_mergeStep hcap hc
  | builtNone hc => exact ⟨_, step_of_idle hht rfl, .builtNone hc⟩
  | builtRoot hc => exact ⟨_, step_of_idle hht rfl, .builtRoot hc⟩

/-- A `BUILD` runs to its end within its bound. -/
theorem BuildRun.exists_end (hh : s.host = []) (hcap : 511 ≤ s.params.nodeCap) (h : BuildRun s t) (hn : t.EndsWithin n) :
    ∃ u, run n t = .next u ∧ BuildRun s u ∧ u.busy = false := by
  induction n generalizing t with
  | zero => exact ⟨t, rfl, h, hn.busy_zero⟩
  | succ n ih =>
    obtain ⟨u, hu, hrun⟩ := h.exists_step hh hcap
    have hblock : (blockNext t).outcome = .next u := by
      rw [← hu, step_eq_outcome, State.fetchNext, h.host_eq.trans hh]
    simp only [run, hu]
    exact ih hrun (blockNext_endsWithin hn hblock)

/-- `BUILD` as a whole: accepted, and within its 512 steps at an end with everything collected. -/
theorem exists_buildRun (hs : s.Ready) (hl : s.params.legal = true) (hp : s.params.hasBuilder = true) :
    ∃ t u, exec .build s = .next t ∧ run 512 t = .next u ∧ BuildRun s u ∧ u.busy = false := by
  have hcap : 511 ≤ s.params.nodeCap := by
    have h : 1 ≤ s.params.nodeCap ∧ 2 * Config.nsym - 1 ≤ s.params.nodeCap := by simpa [Params.legal, hp] using hl
    exact h.2
  have hbegin : BuildRun s (s.beginTree (.scan 0 [] 0)) := .scanning (i := 0) (q := []) (by decide) (collects_nil s s.nodes)
  have hends : (s.beginTree (.scan 0 [] 0)).EndsWithin 512 := (State.endsWithin_scan rfl).mpr (by decide)
  have hexec := hs.exec_build hp
  obtain ⟨hh, -⟩ := hs
  obtain ⟨u, hu, hrun, hidle⟩ := hbegin.exists_end hh hcap hends
  exact ⟨_, u, hexec, hu, hrun, hidle⟩

end

/-- Settles O41: the last entry holds the whole sum, and its node has its weight. -/
theorem rootWeightIsTheExactSum : Obligations.RootWeightIsTheExactSum := by
  unfold Obligations.RootWeightIsTheExactSum
  intro s hs hl hp hpos
  obtain ⟨t, u, ht, hu, hrun, hidle⟩ := exists_buildRun hs hl hp
  refine ⟨t, u, ht, hu, ?_⟩
  cases hrun with
  | scanning | merging => cases hidle
  | builtNone hc => exact absurd hc.syms_eq_nil hpos
  | builtRoot hc =>
    obtain ⟨T, hT, -⟩ := hc.exists_tree
    rw [← hc.weights, List.map_singleton, List.sum_singleton]
    exact congrArg BitVec.toNat hT.weight_eq

/-- Settles O40: at the end the collection is empty, and so are the positive symbols, or it is one entry with the whole tree. -/
theorem buildMakesOneLeafPerPositive : Obligations.BuildMakesOneLeafPerPositive := by
  unfold Obligations.BuildMakesOneLeafPerPositive
  intro s hs hl hp
  obtain ⟨t, u, ht, hu, hrun, hidle⟩ := exists_buildRun hs hl hp
  obtain ⟨-, hb, -⟩ := hs
  have hseq : s.sequencer = .idle := State.sequencer_of_not_busy hb
  cases hrun with
  | scanning | merging => cases hidle
  | @builtNone m nf hc =>
    have hnil := hc.syms_eq_nil
    have hcount := hc.count
    rw [hnil] at hcount
    cases hcount
    refine ⟨t, _, .absent, ht, hu, ?_, rfl, rfl, ?_, ?_⟩
    · rw [hnil, ← hseq]
      rfl
    · rw [hnil]
      rfl
    · rw [hnil]
      exact .nil
  | @builtRoot m nf e hc =>
    obtain ⟨T, hT, hsyms⟩ := hc.exists_tree
    have hlen : T.symbols.length = s.positiveSymbols.length := by rw [hsyms.length_eq, List.length_map]
    have hcount : nf + 1 = 2 * s.positiveSymbols.length := hc.count
    have hpos : s.positiveSymbols ≠ [] := fun h => by
      rw [h] at hcount
      cases hcount
    refine ⟨t, _, T, ht, hu, ?_, hT.tree, hT.wf, ?_, hsyms⟩
    · rw [decide_eq_true hpos, ← hcount, ← hseq]
      rfl
    · rw [ATree.decodable_eq hT.ne_absent hT.wf, hlen]

end Sys2Proof.Machine

namespace Sys2Proof.Machine

/-! ## The steps of `SAVE` and `LOAD` (42_save_load.md) -/

/-- Settles O13: with no command running and no fault pending `SAVE` is accepted. -/
theorem saveBeginsAtTheRoot : Obligations.SaveBeginsAtTheRoot := by
  unfold Obligations.SaveBeginsAtTheRoot
  intro s hb hf
  rw [exec, execSave, State.accept_of_ready hb hf]

/-- Settles O14: with no command running and no fault pending `LOAD` is accepted. -/
theorem loadBeginsByDiscarding : Obligations.LoadBeginsByDiscarding := by
  unfold Obligations.LoadBeginsByDiscarding
  intro s hb hf
  rw [exec, execLoad, State.accept_of_ready hb hf]
  rfl

section
variable {s : State} {v pos : Nat} {n : Bool}

/-- A fault of `LOAD` or `BUILD` leaves no tree (60_exceptions.md R224). -/
theorem State.raise_of_constructs (hq : s.sequencer.constructs = true) (c : Cause) :
    s.raise c = { s with rootValid := false, nextFree := 0, cursorValid := false, fault := true, cause := c,
                         sequencer := .idle } := by
  simp only [State.raise, hq, if_true]
  rfl

theorem State.raise_of_sym (hq : s.sequencer = .sym v n) (c : Cause) :
    s.raise c = { s with rootValid := false, nextFree := 0, cursorValid := false, fault := true, cause := c,
                         sequencer := .idle } :=
  State.raise_of_constructs (by rw [hq]; rfl) c

theorem State.raise_of_code (hq : s.sequencer = .code v pos) (c : Cause) :
    s.raise c = { s with rootValid := false, nextFree := 0, cursorValid := false, fault := true, cause := c,
                         sequencer := .idle } :=
  State.raise_of_constructs (by rw [hq]; rfl) c

/-! ### Phase SYM -/

theorem State.textHas_iff : s.textHas = true ↔ s.textIn ≠ [] := by
  simp [State.textHas]

theorem digitStep_of_sym (hq : s.sequencer = .sym v n) (d : Nat) :
    digitStep d s = .next { s with sequencer := .sym (accumulate v d) true } := by
  simp only [digitStep, hq]

theorem execSymEol_of_sym (hq : s.sequencer = .sym v n) : execSymEol s = endSymLine v n s := by
  simp only [execSymEol, hq]

/-- A line that ends well goes on to phase `CODE` (42_save_load.md R159). -/
theorem endSymLine_of_legal (hv : v ≤ 255) : endSymLine v true s = enterCode v s := by
  rw [endSymLine, Bool.not_true, if_neg Bool.false_ne_true, if_neg (Nat.not_lt.mpr hv)]

theorem enterCode_of_root (htext : s.textIn ≠ []) (hr : s.rootValid = true) :
    enterCode v s = .next { s with sequencer := .code v s.root } := by
  rw [enterCode, if_pos (State.textHas_iff.mpr htext), if_pos hr]

theorem enterCode_of_no_root (htext : s.textIn ≠ []) (hr : s.rootValid = false) :
    enterCode v s = s.withAlloc NodeRec.empty fun s k =>
      .next { s with root := k, rootValid := true, sequencer := .code v k } := by
  rw [enterCode, if_pos (State.textHas_iff.mpr htext), hr, if_neg Bool.false_ne_true]

theorem enterCode_of_no_text (htext : s.textIn = []) : enterCode v s = .next (s.raise .fmtTruncated) := by
  rw [enterCode, if_neg fun h => State.textHas_iff.mp h htext]

/-- The faults at the end of a symbol line, in the order of 60_exceptions.md R223 (b). -/
theorem endSymLine_of_bad
    (hbad : n = false ∨ 255 < v ∨ s.textIn = [] ∨ (s.rootValid = false ∧ s.params.nodeCap ≤ s.nextFree)) :
    endSymLine v n s = .next (s.raise (if n = false then .fmtBadSymbol else if 255 < v then .fmtSymbolRange
      else if s.textIn = [] then .fmtTruncated else .capacity)) := by
  cases n with
  | false => rfl
  | true =>
    rw [if_neg nofun]
    by_cases hv : 255 < v
    · rw [if_pos hv, endSymLine, Bool.not_true, if_neg Bool.false_ne_true, if_pos hv]
    · rw [if_neg hv, endSymLine_of_legal (Nat.not_lt.mp hv)]
      by_cases htext : s.textIn = []
      · rw [if_pos htext, enterCode_of_no_text htext]
      · obtain ⟨hr, hfull⟩ : s.rootValid = false ∧ s.params.nodeCap ≤ s.nextFree := by
          simpa [hv, htext] using hbad
        rw [if_neg htext, enterCode_of_no_root htext hr, State.withAlloc_of_full hfull]

/-- A byte of a symbol line that is neither a digit nor LF (30_encoding.md R89). -/
theorem decode_textSym_of_bad (p : Params) {ch : Byte} (hdigit : ¬ (0x30 ≤ ch.toNat ∧ ch.toNat ≤ 0x39))
    (hlf : ch ≠ 0x0A#8) : decode p (.textSym ch) = .error .badSymbolByte := by
  rw [decode, decodeTextSym]
  iterate 10 rw [if_neg fun h => hdigit (by rw [h]; decide)]
  exact if_neg hlf

theorem step_of_symText {h : List HostAction} {ch : Byte} {text : List Byte} (hb : s.BlockTurn h)
    (hq : s.sequencer = .sym v n) (htext : s.textIn = ch :: text) :
    step s = (fetchUnit (.textSym ch) { s with host := h, textIn := text }).outcome := by
  rw [step_of_blockTurn hb]
  simp only [blockNext, hq, htext]

theorem step_of_symEnd {h : List HostAction} (hb : s.BlockTurn h) (hq : s.sequencer = .sym v n) (htext : s.textIn = []) :
    step s = symStreamEnd v n { s with host := h } := by
  rw [step_of_blockTurn hb]
  simp only [blockNext, hq, htext, Fetched.outcome]

/-! ### Phase CODE -/

theorem edgeStep_of_child (hq : s.sequencer = .code v pos) (hpos : pos < s.nextFree) {b : Bool} {k : Nat}
    (hc : (Memory.read s.nodes pos).child b = some k) : edgeStep b s = .next { s with sequencer := .code v k } := by
  simp only [edgeStep, hq, State.withNode_of_lt hpos, hc]

theorem edgeStep_of_no_child (hq : s.sequencer = .code v pos) (hpos : pos < s.nextFree) {b : Bool}
    (hc : (Memory.read s.nodes pos).child b = none) :
    edgeStep b s = s.withAlloc NodeRec.empty fun t k =>
      .next { t.nodeWrite pos ((Memory.read s.nodes pos).setChild b k) with sequencer := .code v k } := by
  simp only [edgeStep, hq, State.withNode_of_lt hpos, hc]

/-- The child that is not there is made, if the store has room for it (42_save_load.md R162, R163). -/
theorem edgeStep_of_room (hq : s.sequencer = .code v pos) (hpos : pos < s.nextFree) {b : Bool}
    (hc : (Memory.read s.nodes pos).child b = none) (hcap : s.nextFree < s.params.nodeCap) :
    edgeStep b s = .next { s with
      nodes := Memory.write (Memory.write s.nodes s.nextFree NodeRec.empty) pos
        ((Memory.read s.nodes pos).setChild b s.nextFree)
      nextFree := s.nextFree + 1, sequencer := .code v s.nextFree } := by
  rw [edgeStep_of_no_child hq hpos hc, State.withAlloc_of_lt hcap]
  rfl

theorem edgeStep_of_full (hq : s.sequencer = .code v pos) (hpos : pos < s.nextFree) {b : Bool}
    (hc : (Memory.read s.nodes pos).child b = none) (hcap : ¬ s.nextFree < s.params.nodeCap) :
    edgeStep b s = .next (s.raise .capacity) := by
  rw [edgeStep_of_no_child hq hpos hc, State.withAlloc_of_full (Nat.not_lt.mp hcap)]

/-- All that an edge of a code line does: the child is there, or is made, or does not fit. -/
theorem edgeStep_eq (hq : s.sequencer = .code v pos) (hpos : pos < s.nextFree) (b : Bool) :
    edgeStep b s =
      match (Memory.read s.nodes pos).child b with
      | some k => .next { s with sequencer := .code v k }
      | none =>
        if s.nextFree < s.params.nodeCap then
          .next { s with
            nodes := Memory.write (Memory.write s.nodes s.nextFree NodeRec.empty) pos
              ((Memory.read s.nodes pos).setChild b s.nextFree)
            nextFree := s.nextFree + 1, sequencer := .code v s.nextFree }
        else .next { s with rootValid := false, nextFree := 0, cursorValid := false, fault := true, cause := .capacity,
                            sequencer := .idle } := by
  split
  · exact edgeStep_of_child hq hpos ‹_›
  · split
    · exact edgeStep_of_room hq hpos ‹_› ‹_›
    · rw [edgeStep_of_full hq hpos ‹_› ‹_›, State.raise_of_code hq]

theorem markLeaf_of_lt (hpos : pos < s.nextFree) (next : Sequencer) :
    markLeaf v pos next s = .next { s with
      nodes := Memory.write s.nodes pos ((Memory.read s.nodes pos).setSym (BitVec.ofNat 8 v)), sequencer := next } :=
  State.withNode_of_lt hpos _

theorem execCodeEol_of_code (hq : s.sequencer = .code v pos) : execCodeEol s = markLeaf v pos (.sym 0 false) s := by
  simp only [execCodeEol, hq]

/-- A byte of a code line that is in no row of 30_encoding.md R90. -/
theorem decode_textCode_of_bad (p : Params) {ch : Byte} (h0 : ch ≠ 0x30#8) (h1 : ch ≠ 0x31#8) (hlf : ch ≠ 0x0A#8) :
    decode p (.textCode ch) = .error .badCodeByte := by
  rw [decode, decodeTextCode, if_neg h0, if_neg h1, if_neg hlf]

theorem step_of_codeText {h : List HostAction} {ch : Byte} {text : List Byte} (hb : s.BlockTurn h)
    (hq : s.sequencer = .code v pos) (htext : s.textIn = ch :: text) :
    step s = (fetchUnit (.textCode ch) { s with host := h, textIn := text }).outcome := by
  rw [step_of_blockTurn hb]
  simp only [blockNext, hq, htext]

theorem step_of_codeEnd {h : List HostAction} (hb : s.BlockTurn h) (hq : s.sequencer = .code v pos)
    (htext : s.textIn = []) : step s = codeStreamEnd v pos { s with host := h } := by
  rw [step_of_blockTurn hb]
  simp only [blockNext, hq, htext, Fetched.outcome]

end

/-- Settles O25: `accumulate` is the saturating sum. -/
theorem digitsAccumulate : Obligations.DigitsAccumulate := by
  unfold Obligations.DigitsAccumulate
  intro s v n hq
  have hd := digitStep_of_sym hq
  exact ⟨hd 0, hd 1, hd 2, hd 3, hd 4, hd 5, hd 6, hd 7, hd 8, hd 9⟩

/-- Settles O26: by whether there is a root; where there is none it is allocated. -/
theorem symbolLineEndEntersCode : Obligations.SymbolLineEndEntersCode := by
  unfold Obligations.SymbolLineEndEntersCode
  intro s v hq hv htext
  have hexec : exec .symEol s = enterCode v s := (execSymEol_of_sym hq).trans (endSymLine_of_legal hv)
  rw [hexec]
  refine ⟨enterCode_of_root htext, fun hr hcap => ?_⟩
  rw [enterCode_of_no_root htext hr, State.withAlloc_of_lt hcap]

/-- Settles O27: each fault is raised while `LOAD` runs. -/
theorem symbolLineEndFaultsInOrder : Obligations.SymbolLineEndFaultsInOrder := by
  unfold Obligations.SymbolLineEndFaultsInOrder
  intro s v n hq hbad
  have hexec : exec .symEol s = endSymLine v n s := execSymEol_of_sym hq
  rw [hexec, endSymLine_of_bad hbad, State.raise_of_sym hq]

/-- Settles O28: the byte decodes to no instruction, and the fault is raised while `LOAD` runs. -/
theorem badBytesFaultTheLoader : Obligations.BadBytesFaultTheLoader := by
  unfold Obligations.BadBytesFaultTheLoader
  refine ⟨fun s h v n ch rest hb hq htext hdigit hlf => ?_, fun s h v pos ch rest hb hq htext h0 h1 hlf => ?_⟩
  · have herr := fetchUnit_of_error (s := { s with host := h, textIn := rest }) (decode_textSym_of_bad s.params hdigit hlf)
    rw [step_of_symText hb hq htext, herr]
    exact congrArg _ (State.raise_of_sym (s := { s with host := h, textIn := rest }) hq _)
  · have herr := fetchUnit_of_error (s := { s with host := h, textIn := rest }) (decode_textCode_of_bad s.params h0 h1 hlf)
    rw [step_of_codeText hb hq htext, herr]
    exact congrArg _ (State.raise_of_code (s := { s with host := h, textIn := rest }) hq _)

/-- Settles O29: on either side by whether the link is there. -/
theorem codeEdgesDescend : Obligations.CodeEdgesDescend := by
  unfold Obligations.CodeEdgesDescend
  intro s v pos hq hpos
  refine ⟨(edgeStep_eq hq hpos false).trans ?_, (edgeStep_eq hq hpos true).trans ?_⟩
  · cases hl : (Memory.read s.nodes pos).lValid <;> simp [NodeRec.child, NodeRec.setChild, hl]
  · cases hr : (Memory.read s.nodes pos).rValid <;> simp [NodeRec.child, NodeRec.setChild, hr]

/-- Settles O30: `pos` is in use, so its record is read and written back with the symbol. -/
theorem codeLineEndMarksTheLeaf : Obligations.CodeLineEndMarksTheLeaf := by
  unfold Obligations.CodeLineEndMarksTheLeaf
  exact fun s v pos hq hpos => (execCodeEol_of_code hq).trans (markLeaf_of_lt hpos _)

/-- Settles O32: the line ends where the text ends. -/
theorem textEndInEachPhase : Obligations.TextEndInEachPhase := by
  unfold Obligations.TextEndInEachPhase
  intro s h hb htext
  refine ⟨fun v hq => step_of_symEnd hb hq htext, fun v hq => ?_, fun v pos hq hpos => ?_⟩
  · have hend : step s = endSymLine v true { s with host := h } := step_of_symEnd hb hq htext
    have hbad := endSymLine_of_bad (s := { s with host := h }) (v := v) (n := true) (.inr (.inr (.inl htext)))
    rw [hend, hbad, if_pos htext]
    exact congrArg _ (State.raise_of_sym (s := { s with host := h }) hq _)
  · exact (step_of_codeEnd hb hq htext).trans (markLeaf_of_lt (s := { s with host := h }) hpos _)

end Sys2Proof.Machine

namespace Sys2Proof.Machine

/-! ## The records that the loader changes (42_save_load.md R162 to R164) -/

section
variable {m : Memory} {nf pos : Nat}

/-- The records after the loader's new edge: the one at `pos`, the one made, and the old ones. -/
theorem Memory.read_newEdge (hm : Memory.wf m = true) (hpos : pos ≠ nf) (x : NodeRec) :
    Memory.read (Memory.write (Memory.write m nf NodeRec.empty) pos x) pos = x
    ∧ Memory.read (Memory.write (Memory.write m nf NodeRec.empty) pos x) nf = NodeRec.empty
    ∧ ∀ k, k ≠ pos → k ≠ nf → Memory.read (Memory.write (Memory.write m nf NodeRec.empty) pos x) k = Memory.read m k := by
  refine ⟨Memory.read_write_same (Memory.wf_write hm _ _) _ _, ?_, fun k hk hk' => ?_⟩
  · rw [Memory.read_write_other _ _ hpos.symm, Memory.read_write_same hm]
  · rw [Memory.read_write_other _ _ hk, Memory.read_write_other _ _ hk']

end

/-- Settles O31: by the reads after each of the writes. -/
theorem loaderChangesOnlyItsRecords : Obligations.LoaderChangesOnlyItsRecords := by
  unfold Obligations.LoaderChangesOnlyItsRecords
  intro s t i v pos hwf hq hpos h
  have hedge {b : Bool} (h : edgeStep b s = .next t) :
      match (Memory.read s.nodes pos).child b with
      | some _ => ∀ k, Memory.read t.nodes k = Memory.read s.nodes k
      | none =>
        t.fault = false →
        Memory.read t.nodes pos = (Memory.read s.nodes pos).setChild b s.nextFree
        ∧ Memory.read t.nodes s.nextFree = NodeRec.empty
        ∧ ∀ k, k ≠ pos → k ≠ s.nextFree → Memory.read t.nodes k = Memory.read s.nodes k := by
    rw [edgeStep_eq hq hpos] at h
    split at h
    · cases h; exact fun _ => rfl
    · split at h
      · cases h; exact fun _ => Memory.read_newEdge hwf (Nat.ne_of_lt hpos) _
      · cases h; exact nofun
  refine ⟨?_, ?_⟩
  · rintro rfl
    have hmark : markLeaf v pos (.sym 0 false) s = .next t := (execCodeEol_of_code hq).symm.trans h
    rw [markLeaf_of_lt hpos] at hmark
    cases hmark
    dsimp only
    exact ⟨Memory.read_write_same hwf pos _, fun k => Memory.read_write_other s.nodes _⟩
  · rintro b (⟨rfl, rfl⟩ | ⟨rfl, rfl⟩)
    · exact hedge h
    · exact hedge h

/-! ## The faults of `LOAD` (42_save_load.md R167) -/

section
variable {s t : State}

/-- A move that sets `FAULT` is a fault entry. -/
theorem BlockMove.eq_raise (h : BlockMove s t) (hs : s.fault = false) (ht : t.fault = true) : ∃ c, t = s.raise c := by
  cases h
  case raised c _ _ => exact ⟨c, rfl⟩
  all_goals cases hs.symm.trans ht

/-- A step of the loader is a move from the state after it took one byte, or none where there is none left. -/
theorem step_load_move {h : List HostAction} (hb : s.BlockTurn h)
    (hq : (∃ v n, s.sequencer = .sym v n) ∨ (∃ v pos, s.sequencer = .code v pos)) (hstep : step s = .next t) :
    ∃ text, BlockMove { s with host := h, textIn := text } t
      ∧ (s.textIn.length = text.length + 1 ∨ (s.textIn = [] ∧ text = [])) := by
  rcases hq with ⟨v, n, hq⟩ | ⟨v, pos, hq⟩
  · cases htext : s.textIn with
    | nil =>
      rw [step_of_symEnd hb hq htext] at hstep
      exact ⟨s.textIn, symStreamEnd_move hq hstep, .inr ⟨rfl, htext⟩⟩
    | cons ch text =>
      rw [step_of_symText hb hq htext] at hstep
      exact ⟨text, fetchUnit_textSym_move hq hstep, .inl rfl⟩
  · cases htext : s.textIn with
    | nil =>
      rw [step_of_codeEnd hb hq htext] at hstep
      exact ⟨s.textIn, markLeaf_move hq (.inr rfl) hstep, .inr ⟨rfl, htext⟩⟩
    | cons ch text =>
      rw [step_of_codeText hb hq htext] at hstep
      exact ⟨text, fetchUnit_textCode_move hq hstep, .inl rfl⟩

end

/-- Settles O33: the step is a fault entry while `LOAD` runs. -/
theorem loadFaultLeavesNoTree : Obligations.LoadFaultLeavesNoTree := by
  unfold Obligations.LoadFaultLeavesNoTree
  intro s t h hb hs hq hstep ht
  obtain ⟨text, hm, htext⟩ := step_load_move hb hq hstep
  obtain ⟨c, rfl⟩ := hm.eq_raise hs ht
  have hcon : s.sequencer.constructs = true := by
    rcases hq with ⟨v, n, hq⟩ | ⟨v, pos, hq⟩
    all_goals rw [hq]; rfl
  simp only [State.raise_rootValid, State.raise_nextFree, State.raise_cursorValid, State.busy_raise, State.raise_textIn,
    hcon, if_true, true_and]
  exact htext

end Sys2Proof.Machine

namespace Sys2Proof.Machine

/-! ## `SAVE` as a whole (42_save_load.md section 1) -/

/-! ### The class of a record is the class of its tree -/

section
variable {m : Memory} {nf : Nat}

/-- Only the absent pointer leads to the absent tree. -/
theorem treeAt_isSome_iff {p : Option Nat} {T : ATree} (h : treeAt m nf p T = true) : p.isSome = true ↔ T ≠ .absent := by
  cases p <;> cases T <;> simp_all [treeAt]

theorem NodeRec.child_false_isSome (x : NodeRec) : (x.child false).isSome = x.lValid := by
  cases h : x.lValid <;> simp [NodeRec.child, h]

theorem NodeRec.child_true_isSome (x : NodeRec) : (x.child true).isSome = x.rValid := by
  cases h : x.rValid <;> simp [NodeRec.child, h]

/-- 00_scope.md R11 says the same of a record and of the tree it is the root of. -/
theorem NodeRec.cls_eq_of_treeAt {k : Nat} {T : ATree} (h : treeAt m nf (some k) T = true) :
    (Memory.read m k).cls = T.cls := by
  obtain ⟨-, l, r, rfl, hl, hr⟩ := treeAt_some.mp h
  have hl := treeAt_isSome_iff hl
  have hr := treeAt_isSome_iff hr
  rw [NodeRec.child_false_isSome] at hl
  rw [NodeRec.child_true_isSome] at hr
  simp only [NodeRec.cls, NodeRec.symbol, hl, hr]
  cases (Memory.read m k).hasSym <;> cases l <;> cases r <;> simp [ATree.cls]

end

/-! ### What is written for a subtree -/

theorem ATree.eq_of_cls_leaf {T : ATree} (h : T.cls = .leaf) : ∃ y, T = .node (some y) .absent .absent := by
  unfold ATree.cls at h
  split at h
  · exact ⟨_, rfl⟩
  · cases h
  · cases h

section
variable {sym : Option Byte} {l r : ATree} {path : List Bool}

theorem saveRun_leaf (y : Byte) (path : List Bool) :
    saveRun (.node (some y) .absent .absent) path = (recordBytes y path, true) := rfl

theorem saveRun_illformed (h : (ATree.node sym l r).cls = .illformed) : saveRun (.node sym l r) path = ([], false) := by
  rw [saveRun, h]

theorem saveRun_internal (h : (ATree.node sym l r).cls = .internal) :
    saveRun (.node sym l r) path =
      if (saveRun l (path ++ [false])).2 then
        ((saveRun l (path ++ [false])).1 ++ (saveRun r (path ++ [true])).1, (saveRun r (path ++ [true])).2)
      else saveRun l (path ++ [false]) := by
  rw [saveRun, h]

end

theorem ATree.leaves_join (l r : ATree) : (ATree.node none l r).leaves
    = l.leaves.map (fun e => (e.1, false :: e.2)) ++ r.leaves.map (fun e => (e.1, true :: e.2)) := by
  simp [ATree.leaves]

/-- On a well-formed tree one record is written per leaf, from left to right (42_save_load.md R149). -/
theorem saveRun_of_wf {T : ATree} (h : T.wf = true) (path : List Bool) :
    saveRun T path = (textOfRecords (T.leaves.map fun e => (e.1, path ++ e.2)), true) := by
  induction T generalizing path with
  | absent => rfl
  | node sym l r ihl ihr =>
    rcases ATree.wf_node_cases h with ⟨y, hT⟩ | ⟨rfl, hl, hr, hlwf, hrwf⟩
    · cases hT
      simp [saveRun_leaf, ATree.leaves, textOfRecords]
    · rw [saveRun_internal (ATree.cls_join hl hr), ihl hlwf, ihr hrwf, if_pos rfl, ATree.leaves_join]
      simp [textOfRecords, Function.comp_def]

/-! ### The visits of a subtree -/

/-- `s` with the nodes of `stack` to be visited. -/
def State.visiting (s : State) (stack : List (Nat × List Bool)) : State := { s with sequencer := .visit stack }

/-- `s` after the visits of a subtree for which `o` says what they wrote and whether they got through, with `rest` still to be
visited. -/
def State.afterVisits (s : State) (o : List Byte × Bool) (rest : List (Nat × List Bool)) : State :=
  { s with out := s.out ++ o.1, fault := !o.2, cause := if o.2 then s.cause else .treeIllformed,
           sequencer := if o.2 then .visit rest else .idle }

section
variable {s : State} {k : Nat} {path : List Bool} {rest stack : List (Nat × List Bool)} {o : List Byte × Bool}

theorem State.afterVisits_sequencer :
    (s.afterVisits o rest).sequencer = if o.2 then .visit rest else .idle := rfl

theorem State.visiting_afterVisits : (s.visiting stack).afterVisits o rest = s.afterVisits o rest := rfl

/-- After a fault nothing more is visited. -/
theorem run_afterVisits_of_fault (hh : s.host = []) (ho : o.2 = false) (n : Nat) :
    run n (s.afterVisits o stack) = .next (s.afterVisits o rest) := by
  have hidle : (s.afterVisits o stack).sequencer = .idle := by rw [State.afterVisits_sequencer, ho]; rfl
  rw [run_of_idle (s := s.afterVisits o stack) hh hidle]
  simp only [State.afterVisits, ho, Bool.false_eq_true, if_false]

/-- What is written for two subtrees after one another. -/
theorem State.afterVisits_append {o' : List Byte × Bool} (ho : o.2 = true) :
    (s.afterVisits o stack).afterVisits o' rest = s.afterVisits (o.1 ++ o'.1, o'.2) rest := by
  simp [State.afterVisits, ho]

theorem step_of_visit (hh : s.host = []) (hq : s.sequencer = .visit stack) :
    step s = visitStep stack s := by
  rw [step_of_blockTurn (State.blockTurn_of_host_nil hh), State.with_host_nil hh]
  simp only [blockNext, hq, Fetched.outcome]

theorem visitStep_leaf {y : Byte} (hf : s.fault = false) (hk : k < s.nextFree)
    (hc : (Memory.read s.nodes k).cls = .leaf) (hy : (Memory.read s.nodes k).symbol = some y) :
    visitStep ((k, path) :: rest) s = .next (s.afterVisits (recordBytes y path, true) rest) := by
  have hsym : (Memory.read s.nodes k).sym = y := by
    unfold NodeRec.symbol at hy
    split at hy
    · exact Option.some.inj hy
    · cases hy
  simp only [visitStep, State.withNode_of_lt hk, hc, hsym, State.afterVisits, Bool.not_true, ← hf]
  rfl

theorem visitStep_internal (hk : k < s.nextFree) (hc : (Memory.read s.nodes k).cls = .internal) :
    visitStep ((k, path) :: rest) s = .next (s.visiting
      (((Memory.read s.nodes k).lIdx, path ++ [false]) :: ((Memory.read s.nodes k).rIdx, path ++ [true]) :: rest)) := by
  simp only [visitStep, State.withNode_of_lt hk, hc, State.visiting]

theorem visitStep_illformed (hq : s.sequencer.constructs = false) (hk : k < s.nextFree)
    (hc : (Memory.read s.nodes k).cls = .illformed) :
    visitStep ((k, path) :: rest) s = .next (s.afterVisits ([], false) rest) := by
  simp [visitStep, State.withNode_of_lt hk, hc, State.raise, hq, State.afterVisits]

theorem run_succ_of_step {t : State} (h : step s = .next t) (n : Nat) : run (n + 1) s = run n t := by
  simp only [run, h]

/-- One visit a node: the visits of a subtree write what `saveRun` says, or end with the fault. -/
theorem run_visits {T : ATree} (hh : s.host = []) (hf : s.fault = false) (hq : s.sequencer = .visit ((k, path) :: rest))
    (hT : treeAt s.nodes s.nextFree (some k) T = true) :
    run T.size s = .next (s.afterVisits (saveRun T path) rest) := by
  induction T generalizing s k path rest with
  | absent => cases hT
  | node sym l r ihl ihr =>
    have hcls := NodeRec.cls_eq_of_treeAt hT
    obtain ⟨hk, _, _, heq, hl, hr⟩ := treeAt_some.mp hT
    cases heq
    have hstep := step_of_visit hh hq
    cases hc : (Memory.read s.nodes k).cls with
    | leaf =>
      obtain ⟨y, hy⟩ := ATree.eq_of_cls_leaf (hcls.symm.trans hc)
      injection hy with hy hl hr
      rw [visitStep_leaf hf hk hc hy] at hstep
      rw [hy, hl, hr, saveRun_leaf]
      exact run_succ_of_step hstep 0
    | internal =>
      rw [NodeRec.child_of_internal hc, if_neg Bool.false_ne_true] at hl
      rw [NodeRec.child_of_internal hc, if_pos rfl] at hr
      rw [visitStep_internal hk hc] at hstep
      have hleft := ihl (s := s.visiting _) (path := path ++ [false])
        (rest := ((Memory.read s.nodes k).rIdx, path ++ [true]) :: rest) hh hf rfl hl
      rw [ATree.size, run_succ_of_step hstep, run_add r.size hleft, State.visiting_afterVisits,
        saveRun_internal (hcls.symm.trans hc)]
      cases ho : (saveRun l (path ++ [false])).2 with
      | false =>
        rw [if_neg Bool.false_ne_true]
        exact run_afterVisits_of_fault hh ho _
      | true =>
        have hright := ihr (s := s.afterVisits _ _) (path := path ++ [true]) (rest := rest) hh
          (congrArg not ho) (by rw [State.afterVisits_sequencer, ho]; rfl) hr
        rw [if_pos rfl, ← State.afterVisits_append ho]
        exact hright
    | illformed =>
      rw [visitStep_illformed (by rw [hq]; rfl) hk hc] at hstep
      rw [ATree.size, run_succ_of_step hstep, saveRun_illformed (hcls.symm.trans hc)]
      exact run_afterVisits_of_fault hh rfl _

/-- With nothing left to visit the command completes. -/
theorem run_one_of_no_visit (hh : s.host = []) (hq : s.sequencer = .visit []) :
    run 1 s = .next { s with sequencer := .idle } :=
  run_succ_of_step (step_of_visit hh hq) 0

end

/-- The visits of the root, or none where there is no tree (42_save_load.md R148). -/
theorem run_visits_of_hasTree {s : State} {T : ATree} (hh : s.host = []) (hf : s.fault = false) (hT : s.hasTree T = true) :
    run T.size (s.visiting (if s.rootValid then [(s.root, [])] else [])) = .next (s.afterVisits (saveRun T []) []) := by
  unfold State.hasTree State.rootPtr at hT
  cases hr : s.rootValid with
  | true =>
    rw [hr] at hT
    exact run_visits (s := s.visiting _) hh hf rfl hT
  | false =>
    rw [hr] at hT
    cases T with
    | node => cases hT
    | absent => simp [ATree.size, run, saveRun, State.visiting, State.afterVisits, hf]

/-- Settles O24: the visits of the root write its tree; they end with the fault, or with nothing left to visit. -/
theorem saveWritesTheTree : Obligations.SaveWritesTheTree := by
  unfold Obligations.SaveWritesTheTree
  rintro s T ⟨hh, hb, hf⟩ hT
  refine ⟨_, saveBeginsAtTheRoot s hb hf, ?_, fun hwf => ?_⟩
  · have hend : run 1 (s.afterVisits (saveRun T []) [])
        = .next { s.afterVisits (saveRun T []) [] with sequencer := .idle } := by
      cases ho : (saveRun T []).2 with
      | false => rw [run_afterVisits_of_fault hh ho, State.afterVisits, ho]; rfl
      | true => exact run_one_of_no_visit hh (by rw [State.afterVisits_sequencer, ho]; rfl)
    have hrun := (run_add 1 (run_visits_of_hasTree hh hf hT)).trans hend
    rw [State.afterVisits, ← State.sequencer_of_not_busy hb] at hrun
    exact hrun
  · rw [saveRun_of_wf hwf]
    simp

end Sys2Proof.Machine

namespace Sys2Proof.Machine

/-! ## Trees by path

`LOAD` makes one node a step. In between there is no list of whole records, so the loader is followed by what the tree has at the
end of each path: `Contents`. -/

/-- For each path no node, or a node with or without a symbol. -/
abbrev Contents := List Bool → Option (Option Byte)

/-- What an abstract tree has at the end of a path (00_scope.md R12). -/
def ATree.lookup : ATree → Contents
  | .absent, _ => none
  | .node sym _ _, [] => some sym
  | .node _ l _, false :: p => l.lookup p
  | .node _ _ r, true :: p => r.lookup p

/-- Make the node at the end of a path if there is none. -/
def Contents.touch (C : Contents) (q : List Bool) : Contents := Function.update C q (some (C q).join)

/-- Insert one record: every node on the path is there, and the last one has the symbol. -/
def Contents.insert (C : Contents) (q : List Bool) (y : Byte) : Contents := fun p =>
  if p = q then some (some y) else if p <+: q then some (C p).join else C p

section
variable {C : Contents} {p q : List Bool} {y : Byte} {T U F : ATree}

theorem Contents.touch_eq_self (h : C q ≠ none) : C.touch q = C := by
  obtain ⟨x, hx⟩ := Option.ne_none_iff_exists'.mp h
  rw [Contents.touch, hx, Option.join_some, ← hx, Function.update_eq_self]

/-- The nodes on the path of a record may be made beforehand. -/
theorem Contents.insert_touch (h : p <+: q) : (C.touch p).insert q y = C.insert q y := by
  funext p'
  by_cases hp : p' = p
  · subst hp
    simp [Contents.insert, Contents.touch, h]
  · simp [Contents.insert, Contents.touch, hp]

/-- When they are all there it remains to give the last one its symbol. -/
theorem Contents.insert_of_present (h : ∀ p, p <+: q → C p ≠ none) :
    C.insert q y = Function.update C q (some (some y)) := by
  funext p
  by_cases hp : p = q
  · simp [Contents.insert, hp]
  · by_cases hpq : p <+: q
    · obtain ⟨x, hx⟩ := Option.ne_none_iff_exists'.mp (h p hpq)
      simp [Contents.insert, hp, hpq, hx]
    · simp [Contents.insert, hp, hpq]

theorem Contents.insert_ne_none (h : C p ≠ none) : C.insert q y p ≠ none := by
  unfold Contents.insert
  split
  · exact nofun
  · split
    · exact nofun
    · exact h

theorem Contents.insert_ne_none_of_prefix (h : p <+: q) : C.insert q y p ≠ none := by
  unfold Contents.insert
  rw [if_pos h]
  split <;> exact nofun

/-! ### Abstract trees -/

theorem ATree.lookup_insert (T : ATree) (q : List Bool) (y : Byte) : (T.insert q y).lookup = T.lookup.insert q y := by
  funext p
  fun_induction ATree.insert T q y generalizing p
  all_goals
    rcases p with _ | ⟨_ | _, p⟩
    all_goals simp_all [ATree.lookup, Contents.insert]

/-- A tree is determined by what it has at the end of each path. -/
theorem ATree.ext_lookup (h : U.lookup = F.lookup) : U = F := by
  induction U generalizing F with
  | absent =>
    cases F with
    | absent => rfl
    | node => cases congrFun h []
  | node sym l r ihl ihr =>
    cases F with
    | absent => cases congrFun h []
    | node sym' l' r' =>
      have hsym : sym = sym' := Option.some.inj (congrFun h [])
      have hl : l = l' := ihl (funext fun p => congrFun h (false :: p))
      have hr : r = r' := ihr (funext fun p => congrFun h (true :: p))
      rw [hsym, hl, hr]

theorem ATree.size_le_of_lookup (h : ∀ p, U.lookup p ≠ none → F.lookup p ≠ none) : U.size ≤ F.size := by
  induction U generalizing F with
  | absent => exact Nat.zero_le _
  | node sym l r ihl ihr =>
    cases F with
    | absent => exact absurd rfl (h [] nofun)
    | node sym' l' r' =>
      have hl := ihl (F := l') fun p => h (false :: p)
      have hr := ihr (F := r') fun p => h (true :: p)
      simp only [ATree.size]
      omega

/-- A tree with a node more is larger. -/
theorem ATree.size_lt_of_lookup (h : ∀ p, U.lookup p ≠ none → F.lookup p ≠ none) (hU : U.lookup q = none)
    (hF : F.lookup q ≠ none) : U.size < F.size := by
  induction U generalizing F q with
  | absent =>
    cases F with
    | absent => exact absurd rfl hF
    | node => exact Nat.succ_pos _
  | node sym l r ihl ihr =>
    cases F with
    | absent => exact absurd rfl (h [] nofun)
    | node sym' l' r' =>
      have hl : ∀ p, l.lookup p ≠ none → l'.lookup p ≠ none := fun p => h (false :: p)
      have hr : ∀ p, r.lookup p ≠ none → r'.lookup p ≠ none := fun p => h (true :: p)
      have hlsize := ATree.size_le_of_lookup hl
      have hrsize := ATree.size_le_of_lookup hr
      simp only [ATree.size]
      match q with
      | [] => cases hU
      | false :: q => have := ihl hl hU hF; omega
      | true :: q => have := ihr hr hU hF; omega

theorem ATree.size_le_insert (T : ATree) (q : List Bool) (y : Byte) : T.size ≤ (T.insert q y).size :=
  ATree.size_le_of_lookup fun p hp => by rw [ATree.lookup_insert]; exact Contents.insert_ne_none hp

end

/-! ### What a store has by path -/

/-- What the store `m` has at the end of a path from the pointer `k`. -/
def Memory.contents (m : Memory) (k : Option Nat) : Contents := fun p =>
  (k.bind fun r => Memory.follow m r p).map fun j => (Memory.read m j).symbol

section
variable {m m' : Memory} {nf root pos : Nat} {p q : List Bool} {b : Bool}

theorem Memory.contents_some : m.contents (some root) p = (Memory.follow m root p).map fun j => (Memory.read m j).symbol := rfl

/-- An abstract tree of the store has the same by path (00_scope.md R12). -/
theorem lookup_of_treeAt {k : Option Nat} {T : ATree} (h : treeAt m nf k T = true) : T.lookup = m.contents k := by
  induction T generalizing k with
  | absent =>
    cases k with
    | none => rfl
    | some => cases h
  | node sym l r ihl ihr =>
    cases k with
    | none => cases h
    | some k =>
      obtain ⟨-, _, _, heq, hl, hr⟩ := treeAt_some.mp h
      cases heq
      have hchild (b : Bool) (p : List Bool) : m.contents (some k) (b :: p) = m.contents ((Memory.read m k).child b) p := by
        simp only [Memory.contents, Memory.follow, Option.bind_some]
        cases (Memory.read m k).child b <;> rfl
      funext p
      match p with
      | [] => rfl
      | false :: p => rw [hchild]; exact congrFun (ihl hl) p
      | true :: p => rw [hchild]; exact congrFun (ihr hr) p

theorem Memory.follow_prefix_ne_none (h : Memory.follow m root q ≠ none) (hp : p <+: q) : Memory.follow m root p ≠ none := by
  obtain ⟨p', rfl⟩ := hp
  rw [Memory.follow_append] at h
  intro hn
  rw [hn] at h
  exact h rfl

theorem Memory.follow_congr (h : ∀ k b, (Memory.read m' k).child b = (Memory.read m k).child b) :
    Memory.follow m' root p = Memory.follow m root p := by
  induction p generalizing root with
  | nil => rfl
  | cons b p ih => simp only [Memory.follow, h, ih]

@[simp] theorem NodeRec.symbol_empty : NodeRec.empty.symbol = none := rfl

@[simp] theorem NodeRec.symbol_setSym (x : NodeRec) (y : Byte) : (x.setSym y).symbol = some y := rfl

@[simp] theorem NodeRec.symbol_setChild (x : NodeRec) (b : Bool) (k : Nat) : (x.setChild b k).symbol = x.symbol := by
  cases b <;> rfl

/-- The loader makes the root (42_save_load.md R161). -/
theorem Memory.contents_firstRoot (hm : Memory.wf m = true) :
    Memory.contents (Memory.write m nf NodeRec.empty) (some nf) = (m.contents none).touch [] := by
  have hread : Memory.read (Memory.write m nf NodeRec.empty) nf = NodeRec.empty := Memory.read_write_same hm _ _
  funext p
  cases p with
  | nil => rw [Memory.contents_some, Memory.follow, Option.map_some, hread]; rfl
  | cons b p => simp [Memory.contents, Memory.follow, hread, Contents.touch]

/-- The loader marks a leaf (42_save_load.md R164). -/
theorem Memory.contents_markLeaf (hm : Memory.wf m = true) (hpos : ∀ p, Memory.follow m root p = some pos ↔ p = q) (y : Byte) :
    Memory.contents (Memory.write m pos ((Memory.read m pos).setSym y)) (some root)
      = Function.update (m.contents (some root)) q (some (some y)) := by
  funext p
  rw [Memory.contents_some, Memory.follow_congr (Memory.child_markLeaf hm pos y)]
  by_cases hp : p = q
  · rw [hp, (hpos q).mpr rfl, Function.update_self, Option.map_some, Memory.read_write_same hm, NodeRec.symbol_setSym]
  · rw [Function.update_of_ne hp, Memory.contents_some]
    cases hj : Memory.follow m root p with
    | none => rfl
    | some j =>
      have hne : j ≠ pos := fun h => hp ((hpos p).mp (h ▸ hj))
      rw [Option.map_some, Option.map_some, Memory.read_write_other _ _ hne]

/-- The paths after the loader's new edge: the one along that edge, and the old ones. -/
theorem Memory.follow_newEdge (hm : Memory.wf m = true) (hcl : Memory.Closed m nf) (hroot : root < nf)
    (hpos : ∀ p, Memory.follow m root p = some pos ↔ p = q) (hc : (Memory.read m pos).child b = none) {j : Nat} :
    Memory.follow (Memory.write (Memory.write m nf NodeRec.empty) pos ((Memory.read m pos).setChild b nf)) root p = some j ↔
      Memory.follow m root p = some j ∨ (p = q ++ [b] ∧ j = nf) := by
  have hlt : pos < nf := hcl.follow_lt hroot ((hpos q).mpr rfl)
  have hlink {k : Nat} {b' : Bool} {c : Nat} := Memory.child_newEdge hm hlt hc (k := k) (b := b') (c := c)
  induction p using List.reverseRecOn generalizing j with
  | nil => simp [Memory.follow]
  | append_singleton p b' ih =>
    rw [Memory.follow_concat, Memory.follow_concat]
    constructor
    · rintro ⟨i, hi, hij⟩
      rcases ih.mp hi with hold | ⟨-, rfl⟩
      · have hilt := hcl.follow_lt hroot hold
        rcases hlink.mp ⟨Nat.lt_succ_of_lt hilt, hij⟩ with ⟨rfl, rfl, rfl⟩ | ⟨-, hij⟩
        · exact .inr ⟨by rw [(hpos p).mp hold], rfl⟩
        · exact .inl ⟨i, hold, hij⟩
      · rcases hlink.mp ⟨Nat.lt_succ_self _, hij⟩ with ⟨rfl, -⟩ | ⟨hi, -⟩
        · exact absurd hlt (Nat.lt_irrefl _)
        · exact absurd hi (Nat.lt_irrefl _)
    · rintro (⟨i, hi, hij⟩ | ⟨heq, rfl⟩)
      · exact ⟨i, ih.mpr (.inl hi), (hlink.mpr (.inr ⟨hcl.follow_lt hroot hi, hij⟩)).2⟩
      · obtain ⟨hp, hb⟩ := List.append_inj' heq rfl
        cases hb
        exact ⟨pos, ih.mpr (.inl ((hpos p).mpr hp)), (hlink.mpr (.inl ⟨rfl, rfl, rfl⟩)).2⟩

/-- The loader makes a child (42_save_load.md R162, R163). -/
theorem Memory.contents_newEdge (hm : Memory.wf m = true) (hcl : Memory.Closed m nf) (hroot : root < nf)
    (hpos : ∀ p, Memory.follow m root p = some pos ↔ p = q) (hc : (Memory.read m pos).child b = none) :
    Memory.contents (Memory.write (Memory.write m nf NodeRec.empty) pos ((Memory.read m pos).setChild b nf)) (some root)
      = (m.contents (some root)).touch (q ++ [b]) := by
  have hlt : pos < nf := hcl.follow_lt hroot ((hpos q).mpr rfl)
  obtain ⟨hreadPos, hreadNew, hreadOther⟩ := Memory.read_newEdge hm (Nat.ne_of_lt hlt) ((Memory.read m pos).setChild b nf)
  have hpaths {p : List Bool} {j : Nat} := Memory.follow_newEdge hm hcl hroot hpos hc (p := p) (j := j)
  funext p
  rw [Contents.touch, Memory.contents_some]
  by_cases hp : p = q ++ [b]
  · have hnone : Memory.follow m root (q ++ [b]) = none := by
      rw [Memory.follow_append, (hpos q).mpr rfl, Option.bind_some, Memory.follow, hc]
    rw [hp, hpaths.mpr (.inr ⟨rfl, rfl⟩), Function.update_self, Option.map_some, hreadNew, Memory.contents_some, hnone]
    rfl
  · have hold : Memory.follow _ root p = Memory.follow m root p := Option.ext fun j => hpaths.trans (by simp [hp])
    rw [hold, Function.update_of_ne hp, Memory.contents_some]
    cases hj : Memory.follow m root p with
    | none => rfl
    | some j =>
      rw [Option.map_some, Option.map_some]
      by_cases hjp : j = pos
      · rw [hjp, hreadPos, NodeRec.symbol_setChild]
      · rw [hreadOther j hjp (Nat.ne_of_lt (hcl.follow_lt hroot hj))]

end

end Sys2Proof.Machine

namespace Sys2Proof.Machine

/-! ## `LOAD` as a whole (42_save_load.md section 2) -/

/-! ### Weights -/

/-- The first `nf` records have weight 0: the loader writes no other (42_save_load.md R170). -/
def Memory.Weightless (m : Memory) (nf : Nat) : Prop := ∀ k < nf, (Memory.read m k).weight = 0#40

section
variable {m : Memory} {nf pos : Nat}

theorem Memory.Weightless.write (h : m.Weightless nf) (hm : Memory.wf m = true) {x : NodeRec} (hx : x.weight = 0#40) :
    Memory.Weightless (Memory.write m pos x) nf := by
  intro k hk
  by_cases hkp : k = pos
  · rw [hkp, Memory.read_write_same hm, hx]
  · rw [Memory.read_write_other m x hkp, h k hk]

theorem Memory.Weightless.alloc (h : m.Weightless nf) (hm : Memory.wf m = true) :
    Memory.Weightless (Memory.write m nf NodeRec.empty) (nf + 1) := by
  intro k hk
  by_cases hkn : k = nf
  · rw [hkn, Memory.read_write_same hm]; rfl
  · rw [Memory.read_write_other m _ hkn, h k (by omega)]

theorem Memory.Weightless.newEdge (h : m.Weightless nf) (hm : Memory.wf m = true) (hpos : pos < nf) (b : Bool) :
    Memory.Weightless (Memory.write (Memory.write m nf NodeRec.empty) pos ((Memory.read m pos).setChild b nf)) (nf + 1) :=
  (h.alloc hm).write (Memory.wf_write hm _ _) (by cases b <;> exact h pos hpos)

theorem Memory.Weightless.markLeaf (h : m.Weightless nf) (hm : Memory.wf m = true) (hpos : pos < nf) (y : Byte) :
    Memory.Weightless (Memory.write m pos ((Memory.read m pos).setSym y)) nf :=
  h.write hm (h pos hpos)

end

/-! ### The tree of a loading state -/

section
variable {s : State}

/-- Without a root and a collection no record is in use. -/
theorem State.TreeShaped.nextFree_of_no_root (h : s.TreeShaped) (hc : s.sequencer.collection = [])
    (hr : s.rootValid = false) : s.nextFree = 0 := by
  by_contra hne
  obtain ⟨rp, ⟨hroot, -⟩, -⟩ := h.reached_once 0 (Nat.pos_of_ne_zero hne)
  rw [State.roots_of_no_root hr, hc] at hroot
  cases hroot

/-- While no collection is built the store holds an abstract tree, as it does between commands. -/
theorem State.TreeShaped.exists_tree (h : s.TreeShaped) (hc : s.sequencer.collection = []) :
    ∃ T : ATree, s.hasTree T = true ∧ T.size = s.nextFree := by
  have hroots : ({ s with sequencer := .idle } : State).roots = s.roots := by rw [State.roots_eq, State.roots_eq, hc]; rfl
  have hidle : ({ s with sequencer := .idle } : State).TreeShaped :=
    { h with
      sequencer_ok := h.nextFree_of_no_root hc
      roots_nodup := by rw [hroots]; exact h.roots_nodup
      reached_once := by rw [hroots]; exact h.reached_once }
  exact treeShapedStoreHoldsATree { s with sequencer := .idle } hidle rfl

/-- One path leads from the root to a record. -/
theorem State.TreeShaped.follow_iff (h : s.TreeShaped) (hr : s.rootValid = true) {pos : Nat} {p : List Bool}
    (hp : Memory.follow s.nodes s.root p = some pos) (p' : List Bool) :
    Memory.follow s.nodes s.root p' = some pos ↔ p' = p := by
  have hmem : s.root ∈ s.roots := by rw [State.roots_of_rootValid hr]; exact List.mem_singleton_self _
  have hlt : pos < s.nextFree := (State.linksInRange_iff.mp h.links).follow_lt (h.root_lt hr) hp
  constructor
  · intro hp'
    have hsame : (s.root, p') = (s.root, p) := (h.reached_once pos hlt).unique ⟨hmem, hp'⟩ ⟨hmem, hp⟩
    exact congrArg Prod.snd hsame
  · rintro rfl
    exact hp

end

/-! ### What a running `LOAD` has made -/

/-- Insert records in order (42_save_load.md R157). -/
def ATree.insertAll (T : ATree) (rs : List (Byte × List Bool)) : ATree := rs.foldl (fun T e => T.insert e.2 e.1) T

theorem treeOfRecords_eq (rs : List (Byte × List Bool)) : treeOfRecords rs = ATree.absent.insertAll rs := rfl

/-- What the loader leaves alone: all but the tree, its own phase and the text. -/
def State.besidesLoad (s : State) : State :=
  { s with nodes := [], rootValid := false, root := 0, nextFree := 0, sequencer := .idle, textIn := [] }

/-- A `LOAD` accepted in `s` has come to `t`: the loader is at `q` with `text` left, and has made `C`. -/
structure Loading (s : State) (C : Contents) (q : Sequencer) (text : List Byte) (t : State) : Prop where
  sequencer_eq : t.sequencer = q
  textIn_eq : t.textIn = text
  canonical : t.StoreCanonical
  shaped : t.TreeShaped
  contents_eq : t.nodes.contents t.rootPtr = C
  weightless : t.nodes.Weightless t.nextFree
  besides_eq : t.besidesLoad = (s.beginTree (.sym 0 false)).besidesLoad

/-- It is on a code line, at the node to which the path `p` leads. -/
def LoadingAt (s : State) (C : Contents) (v : Nat) (p : List Bool) (text : List Byte) (t : State) : Prop :=
  ∃ pos, Loading s C (.code v pos) text t ∧ Memory.follow t.nodes t.root p = some pos

section
variable {s t u : State} {C C' : Contents} {q : Sequencer} {v d pos : Nat} {b : Bool} {text : List Byte} {F : ATree}
  {p r : List Bool} {y : Byte}

theorem loading_begin (hs : s.StoreCanonical) :
    Loading s (ATree.lookup .absent) (.sym 0 false) s.textIn (s.beginTree (.sym 0 false)) where
  sequencer_eq := rfl
  textIn_eq := rfl
  canonical := hs
  shaped := State.treeShaped_iff.mpr ⟨.of_noTree rfl rfl rfl ⟨fun _ => rfl, Nat.zero_le _⟩, .of_noTree rfl rfl rfl⟩
  contents_eq := rfl
  weightless := nofun
  besides_eq := rfl

theorem Loading.params_eq (h : Loading s C q text t) : t.params = s.params :=
  (congrArg State.params h.besides_eq :)

theorem Loading.host_eq (h : Loading s C q text t) : t.host = s.host :=
  (congrArg State.host h.besides_eq :)

theorem Loading.fault_eq (h : Loading s C q text t) : t.fault = s.fault :=
  (congrArg State.fault h.besides_eq :)

/-- What the whole command changes. -/
theorem Loading.eq_of_idle (h : Loading s C .idle [] t) (hq : s.sequencer = .idle) :
    t = { s with nodes := t.nodes, rootValid := t.rootValid, root := t.root, nextFree := t.nextFree,
                 cursorValid := false, treeBefore := s.rootValid, textIn := [] } := by
  calc
    t = { t.besidesLoad with nodes := t.nodes, rootValid := t.rootValid, root := t.root, nextFree := t.nextFree,
                             sequencer := t.sequencer, textIn := t.textIn } := rfl
    _ = _ := by rw [h.besides_eq, h.sequencer_eq, h.textIn_eq, ← hq]; rfl

theorem Loading.contents_of_root (h : Loading s C q text t) (hr : t.rootValid = true) :
    t.nodes.contents (some t.root) = C := by
  rw [← h.contents_eq, State.rootPtr, hr]
  rfl

/-- A step that leaves the rest of the block alone; what every step keeps need not be shown again. -/
theorem Loading.advance (h : Loading s C q text t) (hstep : step t = .next u) (hcontents : u.nodes.contents u.rootPtr = C')
    (hweight : u.nodes.Weightless u.nextFree) (hbesides : u.besidesLoad = t.besidesLoad) :
    Loading s C' u.sequencer u.textIn u where
  sequencer_eq := rfl
  textIn_eq := rfl
  canonical := stepKeepsStoreCanonical t u h.canonical hstep
  shaped := stepKeepsTreeShaped t u h.canonical h.shaped hstep
  contents_eq := hcontents
  weightless := hweight
  besides_eq := hbesides.trans h.besides_eq

theorem Loading.exists_tree (h : Loading s C q text t) (hq : q.collection = []) :
    ∃ U : ATree, t.hasTree U = true ∧ U.size = t.nextFree ∧ U.lookup = C := by
  obtain ⟨U, hU, hsize⟩ := h.shaped.exists_tree (by rw [h.sequencer_eq, hq])
  exact ⟨U, hU, hsize, (lookup_of_treeAt hU).trans h.contents_eq⟩

/-- A loader that has made the abstract tree `F` holds it, and nothing more. -/
theorem Loading.hasTree (h : Loading s F.lookup q text t) (hq : q.collection = []) :
    t.hasTree F = true ∧ t.nextFree = F.size := by
  obtain ⟨U, hU, hsize, hlookup⟩ := h.exists_tree hq
  cases ATree.ext_lookup hlookup
  exact ⟨hU, hsize.symm⟩

/-- There is room for a node more of a record that fits. -/
theorem Loading.room (h : Loading s C q text t) (hq : q.collection = []) (hF : F.lookup = C.insert r y)
    (hcap : F.size ≤ s.params.nodeCap) (hp : p <+: r) (hnew : C p = none) : t.nextFree < t.params.nodeCap := by
  obtain ⟨U, -, hsize, rfl⟩ := h.exists_tree hq
  have hlt : U.size < F.size := by
    refine ATree.size_lt_of_lookup (fun p hp => ?_) hnew ?_
    · rw [hF]; exact Contents.insert_ne_none hp
    · rw [hF]; exact Contents.insert_ne_none_of_prefix hp
  rw [h.params_eq]
  omega

/-! ### The bytes of a symbol line -/

theorem decode_digitByte (p : Params) (hd : d < 10) :
    ∃ i, decode p (.textSym (digitByte d)) = .ok i ∧ exec i = digitStep d := by
  interval_cases d <;> exact ⟨_, rfl, rfl⟩

/-- With nothing from the host a step of the loader runs the byte it takes. -/
theorem Loading.step_symByte {ch : Byte} {i : Instr} (h : Loading s C (.sym v b) (ch :: text) t) (hh : s.host = [])
    (hd : decode t.params (.textSym ch) = .ok i) : step t = exec i { t with textIn := text } := by
  have hht : t.host = [] := h.host_eq.trans hh
  rw [step_of_symByte (State.blockTurn_of_host_nil hht) h.sequencer_eq h.textIn_eq hd, ← hht]

theorem Loading.step_codeByte {ch : Byte} {i : Instr} (h : Loading s C (.code v pos) (ch :: text) t) (hh : s.host = [])
    (hd : decode t.params (.textCode ch) = .ok i) : step t = exec i { t with textIn := text } := by
  have hht : t.host = [] := h.host_eq.trans hh
  rw [step_of_codeByte (State.blockTurn_of_host_nil hht) h.sequencer_eq h.textIn_eq hd, ← hht]

theorem Loading.digit (h : Loading s C (.sym v b) (digitByte d :: text) t) (hh : s.host = []) (hd : d < 10) :
    ∃ u, step t = .next u ∧ Loading s C (.sym (accumulate v d) true) text u := by
  obtain ⟨i, hi, he⟩ := decode_digitByte t.params hd
  have hstep := h.step_symByte hh hi
  rw [he, digitStep_of_sym (s := { t with textIn := text }) h.sequencer_eq] at hstep
  exact ⟨_, hstep, h.advance hstep h.contents_eq h.weightless rfl⟩

/-- The digits of a line, whatever they are. -/
theorem Loading.digits {line : List Byte} (h : Loading s C (.sym v b) (line ++ text) t) (hh : s.host = [])
    (hline : ∀ ch ∈ line, ∃ d < 10, ch = digitByte d) :
    ∃ u, run line.length t = .next u
      ∧ Loading s C (.sym (line.foldl (fun v ch => accumulate v (ch.toNat - 0x30)) v) (b || !line.isEmpty)) text u := by
  induction line generalizing v b t with
  | nil => exact ⟨t, rfl, by simpa using h⟩
  | cons ch line ih =>
    obtain ⟨⟨d, hd, rfl⟩, hrest⟩ := List.forall_mem_cons.mp hline
    obtain ⟨u, hu, h'⟩ := h.digit hh hd
    obtain ⟨w, hw, h''⟩ := ih h' hrest
    have hvalue : (digitByte d).toNat - 0x30 = d := by rw [digitByte_toNat hd, Nat.add_sub_cancel_left]
    exact ⟨w, (run_succ_of_step hu _).trans hw, by simpa [hvalue] using h''⟩

/-- The digits of a symbol give the symbol (30_encoding.md R92). -/
theorem Loading.symbol (h : Loading s C (.sym 0 false) (decimalDigits y ++ text) t) (hh : s.host = []) :
    ∃ u, run (decimalDigits y).length t = .next u ∧ Loading s C (.sym y.toNat true) text u := by
  have hline := decimalDigits_line y
  obtain ⟨u, hu, h'⟩ := h.digits hh hline.forall_digit
  have hne : (decimalDigits y).isEmpty = false := by simp [decimalDigits]
  rw [hline.accumulates, hne] at h'
  exact ⟨u, hu, h'⟩

/-- The end of the symbol line leads to the root, which the first record makes (42_save_load.md R161). -/
theorem Loading.symLineEnd (h : Loading s C (.sym v true) (0x0A#8 :: text) t) (hh : s.host = []) (hv : v ≤ 255)
    (htext : text ≠ []) (hroom : C [] = none → t.nextFree < t.params.nodeCap) :
    ∃ u, step t = .next u ∧ LoadingAt s (C.touch []) v [] text u := by
  have hstep := h.step_symByte (i := .symEol) hh rfl
  obtain ⟨hold, hnew⟩ := symbolLineEndEntersCode { t with textIn := text } v h.sequencer_eq hv htext
  cases hr : t.rootValid with
  | true =>
    have hpresent : C [] ≠ none := by
      rw [← h.contents_eq, State.rootPtr, hr]
      exact nofun
    have hstep := hstep.trans (hold hr)
    rw [Contents.touch_eq_self hpresent]
    exact ⟨_, hstep, t.root, h.advance hstep h.contents_eq h.weightless rfl, rfl⟩
  | false =>
    have hC : t.nodes.contents none = C := by rw [← h.contents_eq, State.rootPtr, hr]; rfl
    have hstep := hstep.trans (hnew hr (hroom (by rw [← hC]; rfl)))
    have hcontents := Memory.contents_firstRoot (nf := t.nextFree) h.canonical
    rw [hC] at hcontents
    exact ⟨_, hstep, t.nextFree, h.advance hstep hcontents (h.weightless.alloc h.canonical) rfl, rfl⟩

/-! ### The bytes of a code line -/

theorem LoadingAt.edge (h : LoadingAt s C v p ((if b then 0x31#8 else 0x30#8) :: text) t) (hh : s.host = [])
    (hroom : C (p ++ [b]) = none → t.nextFree < t.params.nodeCap) :
    ∃ u, step t = .next u ∧ LoadingAt s (C.touch (p ++ [b])) v (p ++ [b]) text u := by
  obtain ⟨pos, h, hpath⟩ := h
  obtain ⟨hr, hpos, -⟩ := h.shaped.toInRange.code h.sequencer_eq
  have hroot := h.shaped.root_lt hr
  have hcontents := h.contents_of_root hr
  have hstep : step t = edgeStep b { t with textIn := text } := by
    cases b
    · exact h.step_codeByte (i := .code0) hh rfl
    · exact h.step_codeByte (i := .code1) hh rfl
  cases hc : (Memory.read t.nodes pos).child b with
  | some k =>
    have hpath' : Memory.follow t.nodes t.root (p ++ [b]) = some k := Memory.follow_concat.mpr ⟨pos, hpath, hc⟩
    have hpresent : C (p ++ [b]) ≠ none := by
      rw [← hcontents, Memory.contents_some, hpath']
      exact nofun
    rw [edgeStep_of_child (s := { t with textIn := text }) h.sequencer_eq hpos hc] at hstep
    rw [Contents.touch_eq_self hpresent]
    exact ⟨_, hstep, k, h.advance hstep h.contents_eq h.weightless rfl, hpath'⟩
  | none =>
    have hiff := h.shaped.follow_iff hr hpath
    have habsent : C (p ++ [b]) = none := by
      rw [← hcontents, Memory.contents_some, Memory.follow_append, hpath, Option.bind_some, Memory.follow, hc]
      rfl
    have hnew := Memory.contents_newEdge h.canonical h.shaped.links hroot hiff hc
    have hpath' := (Memory.follow_newEdge h.canonical h.shaped.links hroot hiff hc).mpr (.inr ⟨rfl, rfl⟩)
    rw [edgeStep_of_room (s := { t with textIn := text }) h.sequencer_eq hpos hc (hroom habsent)] at hstep
    rw [hcontents] at hnew
    refine ⟨_, hstep, t.nextFree, h.advance hstep ?_ (h.weightless.newEdge h.canonical hpos b) rfl, hpath'⟩
    rw [State.rootPtr, hr]
    exact hnew

/-- The end of the code line completes the record (42_save_load.md R164). -/
theorem LoadingAt.codeLineEnd (h : LoadingAt s C v p (0x0A#8 :: text) t) (hh : s.host = []) :
    ∃ u, step t = .next u ∧ Loading s (C.insert p (BitVec.ofNat 8 v)) (.sym 0 false) text u := by
  obtain ⟨pos, h, hpath⟩ := h
  obtain ⟨hr, hpos, -⟩ := h.shaped.toInRange.code h.sequencer_eq
  have hcontents := h.contents_of_root hr
  have hexec := execCodeEol_of_code (s := { t with textIn := text }) h.sequencer_eq
  have hmark := markLeaf_of_lt (s := { t with textIn := text }) (v := v) hpos (.sym 0 false)
  have hstep := (h.step_codeByte (i := .codeEol) hh rfl).trans (hexec.trans hmark)
  have hpresent : ∀ p', p' <+: p → C p' ≠ none := by
    intro p' hp'
    have hreached := Memory.follow_prefix_ne_none (m := t.nodes) (root := t.root) (by rw [hpath]; exact nofun) hp'
    rw [← hcontents, Memory.contents_some]
    exact fun hn => hreached (Option.map_eq_none_iff.mp hn)
  have hmarked := Memory.contents_markLeaf h.canonical (h.shaped.follow_iff hr hpath) (BitVec.ofNat 8 v)
  rw [hcontents, ← Contents.insert_of_present hpresent] at hmarked
  refine ⟨_, hstep, h.advance hstep ?_ (h.weightless.markLeaf h.canonical hpos _) rfl⟩
  rw [State.rootPtr, hr]
  exact hmarked

/-- The rest `r` of a code line inserts the record, if the tree then fits. -/
theorem LoadingAt.codeLine (h : LoadingAt s C v p (codeChars r ++ 0x0A#8 :: text) t) (hh : s.host = [])
    (hy : BitVec.ofNat 8 v = y) (hF : F.lookup = C.insert (p ++ r) y) (hcap : F.size ≤ s.params.nodeCap) :
    ∃ u, run (r.length + 1) t = .next u ∧ Loading s F.lookup (.sym 0 false) text u := by
  induction r generalizing C p t with
  | nil =>
    obtain ⟨u, hu, h'⟩ := h.codeLineEnd hh
    rw [List.append_nil, ← hy] at hF
    exact ⟨u, run_succ_of_step hu 0, hF ▸ h'⟩
  | cons b r ih =>
    have hprefix : p ++ [b] <+: p ++ b :: r := ⟨r, by simp⟩
    have hroom : C (p ++ [b]) = none → t.nextFree < t.params.nodeCap := by
      obtain ⟨pos, h, -⟩ := h
      exact h.room rfl hF hcap hprefix
    obtain ⟨u, hu, h'⟩ := h.edge hh hroom
    rw [← Contents.insert_touch hprefix, List.append_cons p b r] at hF
    obtain ⟨w, hw, h''⟩ := ih h' hF
    exact ⟨w, (run_succ_of_step hu _).trans hw, h''⟩

/-! ### The records -/

/-- The text of a record inserts it, whatever the tree and the path (42_save_load.md R155). -/
theorem Loading.record {T : ATree} (h : Loading s T.lookup (.sym 0 false) (recordBytes y p ++ text) t) (hh : s.host = [])
    (hcap : (T.insert p y).size ≤ s.params.nodeCap) :
    ∃ u, run (recordBytes y p).length t = .next u ∧ Loading s (T.insert p y).lookup (.sym 0 false) text u := by
  have hbytes : recordBytes y p ++ text = decimalDigits y ++ 0x0A#8 :: (codeChars p ++ 0x0A#8 :: text) := by
    simp [recordBytes]
  have hlen : (recordBytes y p).length = (decimalDigits y).length + (p.length + 1 + 1) := by
    simp [recordBytes, codeChars]
  have hF := ATree.lookup_insert T p y
  rw [hbytes] at h
  obtain ⟨a, ha, h⟩ := h.symbol hh
  have hroom : T.lookup [] = none → a.nextFree < a.params.nodeCap := h.room rfl hF hcap List.nil_prefix
  obtain ⟨c, hc, h⟩ := h.symLineEnd hh (Nat.le_of_lt_succ y.isLt) (by simp) hroom
  rw [← Contents.insert_touch List.nil_prefix] at hF
  obtain ⟨u, hu, h⟩ := h.codeLine hh (by simp) hF hcap
  exact ⟨u, by rw [hlen, run_add _ ha, run_succ_of_step hc, hu], h⟩

theorem ATree.size_le_insertAll (T : ATree) (rs : List (Byte × List Bool)) : T.size ≤ (T.insertAll rs).size := by
  induction rs generalizing T with
  | nil => exact Nat.le_refl _
  | cons e rs ih => exact (T.size_le_insert _ _).trans (ih _)

/-- Every record is applied, in stream order (42_save_load.md R157). -/
theorem Loading.records {rs : List (Byte × List Bool)} {T : ATree}
    (h : Loading s T.lookup (.sym 0 false) (textOfRecords rs) t) (hh : s.host = [])
    (hcap : (T.insertAll rs).size ≤ s.params.nodeCap) :
    ∃ u, run (textOfRecords rs).length t = .next u ∧ Loading s (T.insertAll rs).lookup (.sym 0 false) [] u := by
  induction rs generalizing T t with
  | nil => exact ⟨t, rfl, h⟩
  | cons e rs ih =>
    have hbytes : textOfRecords (e :: rs) = recordBytes e.1 e.2 ++ textOfRecords rs := rfl
    rw [hbytes] at h ⊢
    obtain ⟨a, ha, h⟩ := h.record hh ((ATree.size_le_insertAll _ rs).trans hcap)
    obtain ⟨u, hu, h⟩ := ih h hcap
    exact ⟨u, by rw [List.length_append, run_add _ ha, hu], h⟩

theorem Loading.textEnd (h : Loading s C (.sym 0 false) [] t) (hh : s.host = []) :
    ∃ u, run 1 t = .next u ∧ Loading s C .idle [] u := by
  have hht : t.host = [] := h.host_eq.trans hh
  have hstep : step t = .next { t with host := [], sequencer := .idle } :=
    step_of_symEnd (State.blockTurn_of_host_nil hht) h.sequencer_eq h.textIn_eq
  rw [← hht] at hstep
  have h' := h.advance hstep h.contents_eq h.weightless rfl
  exact ⟨_, run_succ_of_step hstep 0, { h' with textIn_eq := h.textIn_eq }⟩

/-- `LOAD` as a whole: accepted, it takes every byte and makes the records' tree. -/
theorem exists_load {rs : List (Byte × List Bool)} (hs : s.Ready) (hwf : s.StoreCanonical)
    (htext : s.textIn = textOfRecords rs) (hcap : (treeOfRecords rs).size ≤ s.params.nodeCap) :
    ∃ t u, exec .load s = .next t ∧ run (s.textIn.length + 1) t = .next u
      ∧ Loading s (treeOfRecords rs).lookup .idle [] u := by
  obtain ⟨hh, hb, hf⟩ := hs
  have h := loading_begin hwf
  rw [htext] at h ⊢
  obtain ⟨a, ha, h⟩ := h.records hh hcap
  obtain ⟨u, hu, h⟩ := h.textEnd hh
  exact ⟨_, u, loadBeginsByDiscarding s hb hf, (run_add 1 ha).trans hu, h⟩

end

/-- Settles O34: what the loader has made at the end is the records' tree. -/
theorem loadAppliesTheRecords : Obligations.LoadAppliesTheRecords := by
  unfold Obligations.LoadAppliesTheRecords
  intro s rs hs hwf htext hcap
  obtain ⟨t, u, ht, hu, h⟩ := exists_load hs hwf htext hcap
  obtain ⟨hT, hsize⟩ := h.hasTree rfl
  exact ⟨t, u, ht, hu, hT, hsize, h.eq_of_idle (State.sequencer_of_not_busy hs.2.1)⟩

/-! ## The round trip (42_save_load.md R170) -/

theorem ATree.insertAll_append (T : ATree) (rs rs' : List (Byte × List Bool)) :
    T.insertAll (rs ++ rs') = (T.insertAll rs).insertAll rs' := List.foldl_append

theorem ATree.insertAll_left (es : List (Byte × List Bool)) (l r : ATree) :
    (ATree.node none l r).insertAll (es.map fun e => (e.1, false :: e.2)) = .node none (l.insertAll es) r := by
  induction es generalizing l with
  | nil => rfl
  | cons e es ih => exact ih _

theorem ATree.insertAll_right (es : List (Byte × List Bool)) (l r : ATree) :
    (ATree.node none l r).insertAll (es.map fun e => (e.1, true :: e.2)) = .node none l (r.insertAll es) := by
  induction es generalizing r with
  | nil => rfl
  | cons e es ih => exact ih _

/-- The leaves of a well-formed tree, inserted one after another, make the tree. -/
theorem treeOfRecords_leaves {T : ATree} (h : T.wf = true) : treeOfRecords T.leaves = T := by
  induction T with
  | absent => rfl
  | node sym l r ihl ihr =>
    rcases ATree.wf_node_cases h with ⟨y, hT⟩ | ⟨rfl, hl, hr, hlwf, hrwf⟩
    · cases hT
      rfl
    · have hne : l.leaves ≠ [] := fun hnil => by
        have hpos := ATree.symbols_length_pos hl hlwf
        rw [ATree.symbols, hnil] at hpos
        cases hpos
      obtain ⟨e, es, hes⟩ := List.exists_cons_of_ne_nil hne
      have hbegin : treeOfRecords (ATree.node none l r).leaves
          = (ATree.node none .absent .absent).insertAll (ATree.node none l r).leaves := by
        rw [ATree.leaves_join, hes]
        rfl
      rw [hbegin, ATree.leaves_join, ATree.insertAll_append, ATree.insertAll_left, ATree.insertAll_right,
        ← treeOfRecords_eq, ← treeOfRecords_eq, ihl hlwf, ihr hrwf]

/-- Settles O35: the text is the records of the leaves, which make the tree. -/
theorem saveThenLoadGivesTheSameTree : Obligations.SaveThenLoadGivesTheSameTree := by
  unfold Obligations.SaveThenLoadGivesTheSameTree
  intro s T hs hwf hT hTwf hcap
  obtain ⟨t, ht, hrun, htext⟩ := saveWritesTheTree s T hs hT
  obtain ⟨hh, hb, hf⟩ := hs
  have hsaved : run (T.size + 1) t = .next { s with out := s.out ++ textOfRecords T.leaves } := by
    simpa [htext hTwf, hf] using hrun
  have htree := treeOfRecords_leaves hTwf
  obtain ⟨v, w, hv, hw, hload⟩ := exists_load (rs := T.leaves)
    (s := { s with out := s.out ++ textOfRecords T.leaves, textIn := textOfRecords T.leaves })
    ⟨hh, hb, hf⟩ hwf rfl (by rwa [htree])
  rw [htree] at hload
  have hbusy : w.busy = false := by rw [State.busy, hload.sequencer_eq]; rfl
  exact ⟨t, _, v, w, _, ht, hsaved, rfl, hv, hw, (hload.hasTree rfl).1, hload.fault_eq.trans hf, hbusy, hload.textIn_eq,
    hload.weightless⟩

end Sys2Proof.Machine

namespace Sys2Proof.Machine

/-! ## The steps of `DECODE` (43_decode.md) -/

/-- Settles O15: with no command running and no fault pending `DECODE` is accepted. -/
theorem decodeBeginsAtTheRoot : Obligations.DecodeBeginsAtTheRoot := by
  unfold Obligations.DecodeBeginsAtTheRoot
  intro s hb hf
  rw [exec, execDecode, State.accept_of_ready hb hf]
  rfl

section
variable {s : State} {b : Bool} {c : Nat}

/-- A fault of the walker changes `FAULT`, `CAUSE` and `BUSY` alone (60_exceptions.md R224). -/
theorem State.raise_of_walk (hq : s.sequencer = .walk) (x : Cause) :
    s.raise x = { s with fault := true, cause := x, sequencer := .idle } := by
  simp only [State.raise, hq, Sequencer.constructs, Bool.false_eq_true, if_false]

/-! ### One bit -/

theorem walkStep_of_no_cursor (hq : s.sequencer = .walk) (hv : s.cursorValid = false) :
    walkStep b s = .next { s with fault := true, cause := .decEmptyTree, sequencer := .idle } := by
  simp only [walkStep, hq, hv, Bool.not_false, if_true, State.raise_of_walk hq]

theorem walkStep_of_leaf (hq : s.sequencer = .walk) (hv : s.cursorValid = true) (hk : s.cursor < s.nextFree)
    (hc : (Memory.read s.nodes s.cursor).cls = .leaf) :
    walkStep b s = .next { s with fault := true, cause := .decLeafRoot, sequencer := .idle } := by
  simp only [walkStep, hq, hv, Bool.not_true, Bool.false_eq_true, if_false, State.withNode_of_lt hk, hc,
    State.raise_of_walk hq]

theorem walkStep_of_illformed (hq : s.sequencer = .walk) (hv : s.cursorValid = true) (hk : s.cursor < s.nextFree)
    (hc : (Memory.read s.nodes s.cursor).cls = .illformed) :
    walkStep b s = .next { s with fault := true, cause := .treeIllformed, sequencer := .idle } := by
  simp only [walkStep, hq, hv, Bool.not_true, Bool.false_eq_true, if_false, State.withNode_of_lt hk, hc,
    State.raise_of_walk hq]

/-- Arrival at a leaf writes its symbol, arrival at any other node moves the cursor (43_decode.md R191). -/
theorem arrive_of_lt (hc : c < s.nextFree) :
    arrive c s = if (Memory.read s.nodes c).cls = .leaf then
        .next { s with out := s.out ++ [(Memory.read s.nodes c).sym], cursor := s.root }
      else .next { s with cursor := c } := by
  rw [arrive, State.withNode_of_lt hc]
  cases (Memory.read s.nodes c).cls <;> rfl

theorem walkStep_of_internal (hq : s.sequencer = .walk) (hv : s.cursorValid = true) (hk : s.cursor < s.nextFree)
    (hc : (Memory.read s.nodes s.cursor).cls = .internal) (hchild : (Memory.read s.nodes s.cursor).child b = some c) :
    walkStep b s = arrive c s := by
  rw [NodeRec.child_of_internal hc] at hchild
  simp only [walkStep, hq, hv, Bool.not_true, Bool.false_eq_true, if_false, State.withNode_of_lt hk, hc,
    Option.some.inj hchild]

/-! ### The bits of the source -/

theorem step_of_walkBit {h : List HostAction} {bits : List Bool} (hb : s.BlockTurn h) (hq : s.sequencer = .walk)
    (hbits : s.bitsIn = b :: bits) : step s = walkStep b { s with host := h, bitsIn := bits } := by
  cases b
  · exact step_of_bit (i := .left) hb hq hbits rfl
  · exact step_of_bit (i := .right) hb hq hbits rfl

theorem step_of_walkEnd {h : List HostAction} (hb : s.BlockTurn h) (hq : s.sequencer = .walk) (hbits : s.bitsIn = []) :
    step s = bitStreamEnd { s with host := h } := by
  rw [step_of_blockTurn hb]
  simp only [blockNext, hq, hbits, Fetched.outcome]

end

/-- Settles O16: the bit's side is the child the walker arrives at. -/
theorem bitsMoveTheWalker : Obligations.BitsMoveTheWalker := by
  unfold Obligations.BitsMoveTheWalker
  intro s hq hv hk hc
  refine ⟨fun l hl hlt => ?_, fun r hr hlt => ?_⟩
  · have hchild : (Memory.read s.nodes s.cursor).child false = some l := by rw [NodeRec.child_of_internal hc, ← hl]; rfl
    exact (walkStep_of_internal hq hv hk hc hchild).trans (arrive_of_lt hlt)
  · have hchild : (Memory.read s.nodes s.cursor).child true = some r := by rw [NodeRec.child_of_internal hc, ← hr]; rfl
    exact (walkStep_of_internal hq hv hk hc hchild).trans (arrive_of_lt hlt)

/-- Settles O17: both bits are `walkStep`, which looks at the cursor before the side. -/
theorem walkerFaultsOnBadNodes : Obligations.WalkerFaultsOnBadNodes := by
  unfold Obligations.WalkerFaultsOnBadNodes
  rintro s _ hq (rfl | rfl)
  all_goals exact ⟨walkStep_of_no_cursor hq, walkStep_of_leaf hq, walkStep_of_illformed hq⟩

/-- Settles O18: the step is `bitStreamEnd`. -/
theorem bitStreamEndCompletesDecode : Obligations.BitStreamEndCompletesDecode := by
  unfold Obligations.BitStreamEndCompletesDecode
  intro s h hb hq hbits
  have hunder : s.underflowAtEnd = decide (s.cursorValid = true ∧ s.cursor ≠ s.root) := by
    rw [State.underflowAtEnd, Bool.decide_and, Bool.decide_eq_true, decide_not, bne, beq_eq_decide]
  rw [step_of_walkEnd hb hq hbits, ← hunder]
  rfl

/-! ### The walker at a node -/

/-- The walker of `s` at node `k`, with `bits` left and `o` written. -/
def State.walkingAt (s : State) (k : Nat) (bits : List Bool) (o : List Byte) : State :=
  { s with out := s.out ++ o, bitsIn := bits, cursorValid := s.rootValid, cursor := k, sequencer := .walk }

/-- `s` after a `DECODE` that wrote and ended as 43_decode.md R196 says; after a fault the cursor is at node `k`. -/
def State.afterDecode (s : State) (k : Nat) : List Byte × DecodeEnd → State
  | (o, .done uf) =>
    { s with out := s.out ++ o, bitsIn := [], underflow := uf, cursorValid := s.rootValid, cursor := s.root,
             sequencer := .idle }
  | (o, .faulted c rest) =>
    { s with out := s.out ++ o, bitsIn := rest, fault := true, cause := c, cursorValid := s.rootValid, cursor := k,
             sequencer := .idle }

section
variable {s : State} {k : Nat} {bits : List Bool} {o : List Byte} {b : Bool}

theorem exec_decode_of_ready (hs : s.Ready) : exec .decode s = .next (s.walkingAt s.root s.bitsIn []) := by
  obtain ⟨-, hb, hf⟩ := hs
  rw [decodeBeginsAtTheRoot s hb hf, State.walkingAt, List.append_nil]

theorem State.afterDecode_done (hs : s.Ready) (uf : Bool) : s.afterDecode k (o, .done uf)
    = { s with out := s.out ++ o, bitsIn := [], underflow := uf, cursorValid := s.rootValid, cursor := s.root } := by
  obtain ⟨-, hb, -⟩ := hs
  rw [State.afterDecode, ← State.sequencer_of_not_busy hb]

theorem State.afterDecode_faulted (hs : s.Ready) (c : Cause) : s.afterDecode k (o, .faulted c bits)
    = { s with out := s.out ++ o, bitsIn := bits, fault := true, cause := c, cursorValid := s.rootValid, cursor := k } := by
  obtain ⟨-, hb, -⟩ := hs
  rw [State.afterDecode, ← State.sequencer_of_not_busy hb]

theorem State.afterDecode_sequencer (x : List Byte × DecodeEnd) : (s.afterDecode k x).sequencer = .idle := by
  obtain ⟨o, _ | _⟩ := x <;> rfl

theorem State.afterDecode_host (x : List Byte × DecodeEnd) : (s.afterDecode k x).host = s.host := by
  obtain ⟨o, _ | _⟩ := x <;> rfl

theorem step_walkingAt_bit (hh : s.host = []) :
    step (s.walkingAt k (b :: bits) o) = walkStep b (s.walkingAt k bits o) := by
  rw [step_of_walkBit (s := s.walkingAt k (b :: bits) o) (State.blockTurn_of_host_nil hh) rfl rfl]
  exact congrArg (walkStep b) (State.with_host_nil (s := s.walkingAt k bits o) hh)

theorem step_walkingAt_end (hh : s.host = []) :
    step (s.walkingAt k [] o) = .next (s.afterDecode k (o, .done (s.rootValid && k != s.root))) := by
  rw [step_of_walkEnd (s := s.walkingAt k [] o) (State.blockTurn_of_host_nil hh) rfl rfl,
    State.with_host_nil (s := s.walkingAt k [] o) hh]
  rfl

theorem step_walkingAt_no_tree (hh : s.host = []) (hv : s.rootValid = false) :
    step (s.walkingAt k (b :: bits) o) = .next (s.afterDecode k (o, .faulted .decEmptyTree bits)) :=
  (step_walkingAt_bit hh).trans (walkStep_of_no_cursor rfl hv)

theorem step_walkingAt_leaf (hh : s.host = []) (hv : s.rootValid = true) (hk : k < s.nextFree)
    (hc : (Memory.read s.nodes k).cls = .leaf) :
    step (s.walkingAt k (b :: bits) o) = .next (s.afterDecode k (o, .faulted .decLeafRoot bits)) :=
  (step_walkingAt_bit hh).trans (walkStep_of_leaf rfl hv hk hc)

theorem step_walkingAt_illformed (hh : s.host = []) (hv : s.rootValid = true) (hk : k < s.nextFree)
    (hc : (Memory.read s.nodes k).cls = .illformed) :
    step (s.walkingAt k (b :: bits) o) = .next (s.afterDecode k (o, .faulted .treeIllformed bits)) :=
  (step_walkingAt_bit hh).trans (walkStep_of_illformed rfl hv hk hc)

theorem step_walkingAt_internal {c : Nat} (hh : s.host = []) (hv : s.rootValid = true) (hk : k < s.nextFree)
    (hc : (Memory.read s.nodes k).cls = .internal) (hchild : (Memory.read s.nodes k).child b = some c)
    (hlt : c < s.nextFree) :
    step (s.walkingAt k (b :: bits) o) = .next
      (if (Memory.read s.nodes c).cls = .leaf then s.walkingAt s.root bits (o ++ [(Memory.read s.nodes c).sym])
        else s.walkingAt c bits o) := by
  rw [step_walkingAt_bit hh, walkStep_of_internal rfl hv hk hc hchild, arrive_of_lt (s := s.walkingAt k bits o) hlt]
  simp only [State.walkingAt, List.append_assoc]
  split <;> rfl

end

/-- Settles O22: the walker is at the root, where the end of the bits is no underflow, and a bit is the first fault of a step or
the second. -/
theorem degenerateTreesRejectTheFirstBit : Obligations.DegenerateTreesRejectTheFirstBit := by
  unfold Obligations.DegenerateTreesRejectTheFirstBit
  intro s hs hroot
  have ⟨hh, _, _⟩ := hs
  refine ⟨fun hbits => ⟨_, exec_decode_of_ready hs, ?_⟩, fun b rest hbits => ⟨_, exec_decode_of_ready hs, ?_⟩⟩
  · rw [hbits, step_walkingAt_end hh, State.afterDecode_done hs]
    simp
  · rw [hbits]
    rcases hroot with hv | ⟨hv, hlt, hleaf⟩
    · rw [step_walkingAt_no_tree hh hv, State.afterDecode_faulted hs, hv, List.append_nil]
      rfl
    · rw [step_walkingAt_leaf hh hv hlt hleaf, State.afterDecode_faulted hs, hv, List.append_nil]
      rfl

end Sys2Proof.Machine

namespace Sys2Proof.Machine

/-! ## `DECODE` as a function of the tree (43_decode.md R196) -/

/-! ### The children of an abstract tree -/

/-- `child` of 00_scope.md R10 for an abstract tree: what the pointer `NodeRec.child` leads to (`treeAt_child`). -/
def ATree.child : ATree → Bool → ATree
  | .absent, _ => .absent
  | .node _ l r, b => if b then r else l

theorem treeAt_child {m : Memory} {nf k : Nat} {P : ATree} (h : treeAt m nf (some k) P = true) (b : Bool) :
    treeAt m nf ((Memory.read m k).child b) (P.child b) = true := by
  obtain ⟨-, l, r, rfl, hl, hr⟩ := treeAt_some.mp h
  cases b
  · exact hl
  · exact hr

/-- A pointer leads to one tree. -/
theorem treeAt_unique {m : Memory} {nf : Nat} {p : Option Nat} {T U : ATree} (hT : treeAt m nf p T = true)
    (hU : treeAt m nf p U = true) : T = U :=
  ATree.ext_lookup ((lookup_of_treeAt hT).trans (lookup_of_treeAt hU).symm)

theorem NodeRec.sym_of_symbol {x : NodeRec} {y : Byte} (h : x.symbol = some y) : x.sym = y := by
  unfold NodeRec.symbol at h
  split at h
  · exact Option.some.inj h
  · cases h

section
variable {T P : ATree} {a b : Bool} {bits : List Bool} {o : List Byte} {y : Byte}

theorem ATree.size_child_lt (h : P.cls = .internal) (b : Bool) : (P.child b).size < P.size := by
  cases P with
  | absent => cases h
  | node sym l r =>
    cases b
    · exact Nat.lt_succ_of_le (Nat.le_add_right ..)
    · exact Nat.lt_succ_of_le (Nat.le_add_left ..)

/-- An internal node of a well-formed tree holds no symbol, and its children are well-formed trees that are not absent. -/
theorem ATree.eq_join_of_internal (hwf : P.wf = true) (hc : P.cls = .internal) :
    P = .node none (P.child false) (P.child true) ∧ ∀ b, P.child b ≠ .absent ∧ (P.child b).wf = true := by
  cases P with
  | absent => cases hc
  | node sym l r =>
    rcases ATree.wf_node_cases hwf with ⟨y, h⟩ | ⟨rfl, hl, hr, hlwf, hrwf⟩
    · rw [h] at hc
      cases hc
    · exact ⟨rfl, Bool.forall_bool.mpr ⟨⟨hl, hlwf⟩, hr, hrwf⟩⟩

/-- A child of a well-formed internal node is a leaf or such a node itself (00_scope.md R13). -/
theorem ATree.child_cases (hwf : P.wf = true) (hc : P.cls = .internal) (b : Bool) :
    (∃ y, P.child b = .node (some y) .absent .absent) ∨ ((P.child b).wf = true ∧ (P.child b).cls = .internal) := by
  obtain ⟨hne, hcwf⟩ := (ATree.eq_join_of_internal hwf hc).2 b
  generalize P.child b = C at hne hcwf ⊢
  cases C with
  | absent => exact absurd rfl hne
  | node sym l r =>
    rcases ATree.wf_node_cases hcwf with h | ⟨rfl, hl, hr, -⟩
    · exact .inl h
    · exact .inr ⟨hcwf, ATree.cls_join hl hr⟩

/-- The leaves below an internal node are those of its children, one edge further down. -/
theorem ATree.mem_leaves_of_internal {p : List Bool} (hwf : P.wf = true) (hc : P.cls = .internal) (he : (y, p) ∈ P.leaves) :
    ∃ b p', p = b :: p' ∧ (y, p') ∈ (P.child b).leaves := by
  rw [(ATree.eq_join_of_internal hwf hc).1, ATree.leaves_join, List.mem_append] at he
  rcases he with he | he
  all_goals
    obtain ⟨⟨z, p'⟩, hmem, heq⟩ := List.mem_map.mp he
    cases heq
    exact ⟨_, p', rfl, hmem⟩

/-! ### The bits of `go` -/

theorem decodeGo_nil : decodeGo T P a [] o = (o, .done (!a)) := by
  cases P <;> rfl

theorem decodeGo_leaf (h : P.cls = .leaf) : decodeGo T P a (b :: bits) o = (o, .faulted .decLeafRoot bits) := by
  obtain ⟨y, rfl⟩ := ATree.eq_of_cls_leaf h
  rfl

theorem decodeGo_illformed (hP : P ≠ .absent) (h : P.cls = .illformed) :
    decodeGo T P a (b :: bits) o = (o, .faulted .treeIllformed bits) := by
  cases P with
  | absent => exact absurd rfl hP
  | node => rw [decodeGo, h]

theorem decodeGo_leafChild (h : P.cls = .internal) (hc : P.child b = .node (some y) .absent .absent) :
    decodeGo T P a (b :: bits) o = decodeGo T T true bits (o ++ [y]) := by
  cases P with
  | absent => cases h
  | node sym l r =>
    rw [decodeGo, h]
    rw [ATree.child] at hc
    simp only [hc]

theorem decodeGo_innerChild (h : P.cls = .internal) (hc : (P.child b).cls ≠ .leaf) :
    decodeGo T P a (b :: bits) o = decodeGo T (P.child b) false bits o := by
  cases P with
  | absent => cases h
  | node sym l r =>
    rw [decodeGo, h]
    rw [ATree.child] at hc ⊢
    dsimp only
    split
    · rename_i hleaf
      rw [hleaf] at hc
      exact absurd rfl hc
    · rfl

end

/-! ### The walker follows `go` -/

/-- The walker of `s` at node `k` is where `go` is in the tree `T`: at `P`, which is `T` itself or a smaller tree. -/
structure State.WalksTo (s : State) (T P : ATree) (atRoot : Bool) (k : Nat) : Prop where
  tree : treeAt s.nodes s.nextFree (if s.rootValid then some k else none) P = true
  root : atRoot = true → k = s.root ∧ P = T
  below : atRoot = false → P.size < T.size

section
variable {s : State} {T P : ATree} {a b : Bool} {k : Nat} {bits : List Bool} {o : List Byte}

theorem State.walksTo_root (hT : s.hasTree T = true) : s.WalksTo T T true s.root where
  tree := hT
  root _ := ⟨rfl, rfl⟩
  below := nofun

theorem State.WalksTo.size_le (h : s.WalksTo T P a k) : P.size ≤ T.size := by
  cases a with
  | true => rw [(h.root rfl).2]
  | false => exact Nat.le_of_lt (h.below rfl)

/-- The walker sees that it is away from the root: no smaller tree has the same root. -/
theorem State.WalksTo.away_eq (h : s.WalksTo T P a k) (hT : s.hasTree T = true) : (s.rootValid && k != s.root) = !a := by
  cases a with
  | true => simp [(h.root rfl).1]
  | false =>
    by_contra hne
    have hptr : (if s.rootValid then some k else none) = s.rootPtr := by
      unfold State.rootPtr
      cases hv : s.rootValid <;> simp_all
    have hPT : P = T := treeAt_unique (hptr ▸ h.tree) hT
    exact Nat.lt_irrefl _ (hPT ▸ h.below rfl)

theorem State.WalksTo.tree_of_root (h : s.WalksTo T P a k) (hv : s.rootValid = true) :
    treeAt s.nodes s.nextFree (some k) P = true := by
  have htree := h.tree
  rwa [if_pos hv] at htree

/-- Without a tree the walker is nowhere. -/
theorem State.WalksTo.eq_absent (h : s.WalksTo T P a k) (hv : s.rootValid = false) : P = .absent := by
  have htree := h.tree
  rw [hv] at htree
  cases P with
  | absent => rfl
  | node => cases htree

/-- One bit takes both to a child or a fault, or the walker back to the root and `go` back to `T`. -/
theorem State.WalksTo.bit (h : s.WalksTo T P a k) (hh : s.host = []) (hT : s.hasTree T = true) (b : Bool) (bits : List Bool)
    (o : List Byte) :
    step (s.walkingAt k (b :: bits) o) = .next (s.afterDecode k (decodeGo T P a (b :: bits) o))
    ∨ ∃ P' a' k' o', s.WalksTo T P' a' k' ∧ decodeGo T P a (b :: bits) o = decodeGo T P' a' bits o'
      ∧ step (s.walkingAt k (b :: bits) o) = .next (s.walkingAt k' bits o') := by
  cases hv : s.rootValid with
  | false =>
    left
    rw [h.eq_absent hv]
    exact step_walkingAt_no_tree hh hv
  | true =>
    have htree := h.tree_of_root hv
    have hk := (treeAt_some.mp htree).1
    have hcls := NodeRec.cls_eq_of_treeAt htree
    cases hc : P.cls with
    | leaf =>
      left
      rw [decodeGo_leaf hc]
      exact step_walkingAt_leaf hh hv hk (hcls.trans hc)
    | illformed =>
      left
      rw [decodeGo_illformed ((treeAt_isSome_iff htree).mp rfl) hc]
      exact step_walkingAt_illformed hh hv hk (hcls.trans hc)
    | internal =>
      have hchild := NodeRec.child_of_internal (hcls.trans hc) b
      have hctree := treeAt_child htree b
      rw [hchild] at hctree
      have hccls := NodeRec.cls_eq_of_treeAt hctree
      obtain ⟨hlt, l, r, hceq, -⟩ := treeAt_some.mp hctree
      have hstep := step_walkingAt_internal (bits := bits) (o := o) hh hv hk (hcls.trans hc) hchild hlt
      rw [hccls] at hstep
      by_cases hleaf : (P.child b).cls = .leaf
      · obtain ⟨y, hy⟩ := ATree.eq_of_cls_leaf hleaf
        injection hceq.symm.trans hy with hsym
        rw [if_pos hleaf, NodeRec.sym_of_symbol hsym] at hstep
        exact .inr ⟨T, true, s.root, o ++ [y], State.walksTo_root hT, decodeGo_leafChild hc hy, hstep⟩
      · rw [if_neg hleaf] at hstep
        refine .inr ⟨P.child b, false, _, o, ⟨?_, nofun, fun _ => ?_⟩, decodeGo_innerChild hc hleaf, hstep⟩
        · rwa [if_pos hv]
        · exact Nat.lt_of_lt_of_le (ATree.size_child_lt hc b) h.size_le

/-- The steps of the walker, one a bit and one for the end of the bits, come to what `go` gives. -/
theorem State.WalksTo.run_walk (h : s.WalksTo T P a k) (hh : s.host = []) (hT : s.hasTree T = true) (bits : List Bool)
    (o : List Byte) :
    ∃ k', run (bits.length + 1) (s.walkingAt k bits o) = .next (s.afterDecode k' (decodeGo T P a bits o)) := by
  induction bits generalizing P a k o with
  | nil =>
    have hend := step_walkingAt_end (k := k) (o := o) hh
    rw [h.away_eq hT] at hend
    rw [decodeGo_nil]
    exact ⟨k, run_succ_of_step hend 0⟩
  | cons b bits ih =>
    rcases h.bit hh hT b bits o with hstep | ⟨P', a', k', o', h', hgo, hstep⟩
    · refine ⟨k, ?_⟩
      rw [run_succ_of_step hstep]
      exact run_of_idle ((State.afterDecode_host _).trans hh) (State.afterDecode_sequencer _) _
    · obtain ⟨j, hj⟩ := ih h' o'
      exact ⟨j, by rw [List.length_cons, run_succ_of_step hstep, hgo, hj]⟩

/-- `DECODE` as a whole. -/
theorem exists_decode (hs : s.Ready) (hT : s.hasTree T = true) :
    ∃ t k, exec .decode s = .next t ∧ run (s.bitsIn.length + 1) t = .next (s.afterDecode k (decodeRun T s.bitsIn)) := by
  have ⟨hh, _, _⟩ := hs
  obtain ⟨k, hk⟩ := (State.walksTo_root hT).run_walk hh hT s.bitsIn []
  exact ⟨_, k, exec_decode_of_ready hs, hk⟩

end

/-- Settles O19: the walker follows `go` from the root. -/
theorem decodeIsTheRunFunction : Obligations.DecodeIsTheRunFunction := by
  unfold Obligations.DecodeIsTheRunFunction
  intro s T hs hT
  obtain ⟨t, k, ht, hrun⟩ := exists_decode hs hT
  refine ⟨t, _, ht, hrun, ?_⟩
  obtain ⟨o, uf | ⟨c, rest⟩⟩ := decodeRun T s.bitsIn
  · exact State.afterDecode_done hs uf
  · exact State.afterDecode_faulted hs c

/-! ### Decodable trees -/

theorem ATree.wf_and_internal_of_decodable {T : ATree} (h : T.decodable = true) : T.wf = true ∧ T.cls = .internal := by
  simpa [ATree.decodable] using h

section
variable {T P : ATree} {a : Bool} {bits : List Bool} {o : List Byte} {y : Byte}

/-- Below internal nodes of a well-formed tree `go` meets no fault (43_decode.md R194). -/
theorem decodeGo_done (hTwf : T.wf = true) (hTc : T.cls = .internal) (hwf : P.wf = true) (hc : P.cls = .internal) :
    ∃ o' uf, decodeGo T P a bits o = (o', .done uf) := by
  induction bits generalizing P a o with
  | nil => exact ⟨o, !a, decodeGo_nil⟩
  | cons b bits ih =>
    rcases ATree.child_cases hwf hc b with ⟨y, hy⟩ | ⟨hcwf, hcc⟩
    · rw [decodeGo_leafChild hc hy]
      exact ih hTwf hTc
    · rw [decodeGo_innerChild hc (by rw [hcc]; exact nofun)]
      exact ih hcwf hcc

/-- The code of a leaf leads `go` to its symbol and back to the root. -/
theorem decodeGo_code {p : List Bool} (hwf : P.wf = true) (hc : P.cls = .internal) (he : (y, p) ∈ P.leaves) :
    decodeGo T P a (p ++ bits) o = decodeGo T T true bits (o ++ [y]) := by
  induction p generalizing P a with
  | nil =>
    obtain ⟨b, p, heq, -⟩ := ATree.mem_leaves_of_internal hwf hc he
    cases heq
  | cons b p ih =>
    obtain ⟨_, _, heq, he⟩ := ATree.mem_leaves_of_internal hwf hc he
    cases heq
    rcases ATree.child_cases hwf hc b with ⟨z, hz⟩ | ⟨hcwf, hcc⟩
    · rw [hz] at he
      obtain ⟨rfl, rfl⟩ : y = z ∧ p = [] := by simpa [ATree.leaves] using he
      exact decodeGo_leafChild hc hz
    · rw [List.cons_append, decodeGo_innerChild hc (by rw [hcc]; exact nofun)]
      exact ih hcwf hcc he

theorem decodeGo_codes {es : List (Byte × List Bool)} (hwf : T.wf = true) (hc : T.cls = .internal)
    (hes : ∀ e ∈ es, e ∈ T.leaves) :
    decodeGo T T true (es.flatMap fun e => e.2) o = (o ++ es.map fun e => e.1, .done false) := by
  induction es generalizing o with
  | nil => rw [List.flatMap_nil, decodeGo_nil, List.map_nil, List.append_nil, Bool.not_true]
  | cons e es ih =>
    rw [List.flatMap_cons, decodeGo_code hwf hc (hes e List.mem_cons_self),
      ih fun e' he' => hes e' (List.mem_cons_of_mem _ he')]
    simp

end

/-- Settles O20: `go` ends with `done`, after the last bit. -/
theorem decodableTreeNeverFaults : Obligations.DecodableTreeNeverFaults := by
  unfold Obligations.DecodableTreeNeverFaults
  intro s T hs hT hdec
  obtain ⟨hwf, hc⟩ := ATree.wf_and_internal_of_decodable hdec
  obtain ⟨t, k, ht, hrun⟩ := exists_decode hs hT
  obtain ⟨o, uf, hgo⟩ := decodeGo_done (a := true) (bits := s.bitsIn) (o := []) hwf hc hwf hc
  rw [decodeRun, hgo, State.afterDecode_done hs] at hrun
  obtain ⟨-, hb, hf⟩ := hs
  exact ⟨t, _, ht, hrun, hf, hb, rfl, rfl⟩

/-- Settles O21: `go` over the codes, one leaf after another. -/
theorem concatenatedCodesDecode : Obligations.ConcatenatedCodesDecode := by
  unfold Obligations.ConcatenatedCodesDecode
  intro s T es hs hT hdec hes hbits
  obtain ⟨hwf, hc⟩ := ATree.wf_and_internal_of_decodable hdec
  obtain ⟨t, k, ht, hrun⟩ := exists_decode hs hT
  refine ⟨t, ht, hrun.trans ?_⟩
  rw [hbits, decodeRun, decodeGo_codes hwf hc hes, State.afterDecode_done hs, List.nil_append]

end Sys2Proof.Machine

namespace Sys2Proof.Machine

/-! ## Fault entry and fault return (60_exceptions.md R224, R226) -/

section
variable {s t : State}

/-- A fault of `DECODE` or `SAVE`, or with no running command, leaves the tree and the cursor as they are. -/
theorem State.raise_of_not_constructs (hq : s.sequencer.constructs = false) (c : Cause) :
    s.raise c = { s with fault := true, cause := c, sequencer := .idle } := by
  simp only [State.raise, hq, Bool.false_eq_true, if_false]

theorem BlockMove.fault_of_fault (h : BlockMove s t) (hs : s.fault = true) : t.fault = true := by
  rcases h.fault_cases with ⟨hf, -⟩ | ⟨hf, -⟩
  · exact hf.trans hs
  · exact hf

theorem State.SameCore.fault_eq (h : s.SameCore t) : t.fault = s.fault := by
  obtain ⟨_, _, _, _, _, _, _, rfl⟩ := h
  rfl

/-- The one command that leaves the fault state is `CLEAR`. -/
theorem CommandMove.eq_acknowledge (h : CommandMove s t) (hs : s.fault = true) (ht : t.fault = false) :
    s.busy = false ∧ t = s.acknowledge := by
  cases h with
  | cleared hb => exact ⟨hb, rfl⟩
  | ignored => cases hs.symm.trans ht
  | illegal _ hf | build _ hf | save _ hf | load _ hf | decode _ hf => cases hs.symm.trans hf

/-- The host leaves the fault state by a reset or by a command. -/
theorem HostMove.leaves_fault {a : HostAction} (h : HostMove s a t) (hs : s.fault = true) (ht : t.fault = false) :
    (a = .reset ∧ t = s.blockReset)
    ∨ ∃ addr w, a = .write addr w ∧ addr.toNat < 4 ∧ s.busy = false ∧ t = s.acknowledge := by
  cases h with
  | command addr w haddr hm => exact .inr ⟨addr, w, rfl, hostReg_eq_cmd.mp haddr, hm.eq_acknowledge hs ht⟩
  | didReset => exact .inl ⟨rfl, rfl⟩
  | wrote addr w => cases (hs.symm.trans (hostWrite_sameCore addr w s).fault_eq.symm).trans ht
  | didRead addr => cases (hs.symm.trans (hostRead_sameCore addr s).fault_eq.symm).trans ht
  | gotBits | moreBits | gotText | moreText | drained | waited => cases hs.symm.trans ht

/-- A command word that takes the block out of the fault state is that of `CLEAR` (40_control.md R110). -/
theorem eq_clear_of_step_leaves_fault {addr : Offset} {w : Word} {rest : List HostAction}
    (hh : s.host = .write addr w :: rest) (haddr : addr.toNat < 4) (hs : s.fault = true) (h : step s = .next t)
    (ht : t.fault = false) : w = 0x00000001#32 := by
  by_contra hw
  have hstay : step s = .next { s with host := rest } :=
    (step_of_cmd hh haddr).trans (fetchUnit_cmd_ignored (.inr hs) fun hclear => absurd hclear hw)
  cases hstay.symm.trans h
  cases hs.symm.trans ht

end

/-- Settles O43: `raise` discards the tree where the running command constructs one, and without a running command the sequencer
is idle already. -/
theorem faultEntryAsDescribed : Obligations.FaultEntryAsDescribed := by
  unfold Obligations.FaultEntryAsDescribed
  intro s c
  exact ⟨fun hq => State.raise_of_constructs hq c, fun hq => State.raise_of_not_constructs hq c,
    fun hb => State.raise_of_idle hb c, rfl⟩

/-- Settles O44: a move of the running unit keeps `FAULT`, and of the host's actions only reset and `CLEAR` do not. -/
theorem onlyClearOrResetLeavesFault : Obligations.OnlyClearOrResetLeavesFault := by
  unfold Obligations.OnlyClearOrResetLeavesFault
  intro s t hs h ht
  rcases step_cases h with ⟨script, bits, text, -, hm⟩ | ⟨a, rest, hh, hm⟩
  · cases (hm.fault_of_fault hs).symm.trans ht
  · rcases hm.leaves_fault hs ht with ⟨rfl, rfl⟩ | ⟨addr, w, rfl, haddr, hb, rfl⟩
    · exact ⟨⟨.reset, rest, hh, .inl rfl⟩, rfl, rfl, rfl, rfl, rfl⟩
    · have hw := eq_clear_of_step_leaves_fault hh haddr hs h rfl
      exact ⟨⟨_, rest, hh, .inr ⟨addr, haddr, hw ▸ rfl⟩⟩, rfl, rfl, rfl, rfl, hb⟩

end Sys2Proof.Machine

namespace Sys2Proof.Machine

/-! ## The host's reset -/

/-- Reset is taken at once, also where a command runs (70_reset_and_hazards.md R247). -/
theorem step_of_reset {s : State} {rest : List HostAction} (hh : s.host = .reset :: rest) :
    step s = .next ({ s with host := rest } : State).blockReset :=
  step_of_host hh nofun

/-- Settles O59: `blockReset` takes every field that R37 names from `State.reset`, which O1 describes, and the records, the streams
and the rest of the script from the state it resets. -/
theorem hostResetGivesTheResetState : Obligations.HostResetGivesTheResetState := by
  unfold Obligations.HostResetGivesTheResetState
  intro s rest hh
  obtain ⟨hroot, hfree, hcursor, hfreq, hstatus, hcause, hidle⟩ := resetHoldsTheSpecValues
  exact ⟨_, step_of_reset hh, hroot, hfree, hcursor, hfreq, hstatus, hcause, hidle, rfl, rfl, rfl, rfl, rfl⟩

end Sys2Proof.Machine
